-- ==== Sys2Proof/Word.lean ====
section
/-! DEFINITION. The word, the byte and the register number: the plain bit vectors of the machine
(spec/00_scope.md R2, R3, R7; spec/10_state.md R20, R28; spec/20_memory.md R40). -/

namespace Sys2Proof

/-- A 32-bit vector: an integer register, a floating-point register, `pc`, an address, an instruction word
(R2 XLEN = 32, R3 ILEN = 32, R4 FLEN = 32). Bit 0 is the least significant (R7). -/
abbrev Word := BitVec 32

/-- The addressable unit of memory (R40). -/
abbrev Byte := BitVec 8

/-- The number of an integer register, 0 to 31 (R8, R20). -/
abbrev XReg := BitVec 5

/-- The number of a floating-point register, 0 to 31 (R8, R28). -/
abbrev FReg := BitVec 5

end Sys2Proof
end

