-- ==== Sys2Proof/Config.lean ====
section
/-! DEFINITION. The parameters the spec leaves open (spec/00_scope.md section 5, spec/92_eei_decisions.md
section 2): a model takes them as arguments and a claim quantifies over them. Here they are plain data, held
in `State.params` and never changed by a step (notes/assumptions/1.md). -/

namespace Sys2Proof

/-- `FMW_W_X_POLICY` (R140, decision D9): whether the source's own encoding of `fmw.w.x` is admitted. -/
inductive FmwPolicy where
  /-- the row is admitted with the bits the source gives it (the default) -/
  | source
  /-- the row is removed from the opcode table -/
  | refuse
deriving DecidableEq, Repr

/-- The open parameters of the machine, but for the program text, which `State.text` holds. -/
structure Params where
  /-- `ADMIT_GK_ROWS`: whether the 19 Tier G rows are admitted (R6, decision D8) -/
  admitGkRows : Bool
  /-- `FMW_W_X_POLICY` (R140, decision D9) -/
  fmwPolicy : FmwPolicy
  /-- `PROGRAM_BASE`: the first address of the program text (R41) -/
  programBase : Nat
  /-- `PROGRAM_LEN`: the length of the program text in bytes (R41) -/
  programLen : Nat
  /-- `RESET_PC`: the address of the first fetch (R36, R240) -/
  resetPc : Word
deriving DecidableEq, Repr

/-- The constraints on the parameters (R36, R41, spec/92_eei_decisions.md section 2): a value that breaks one
is refused, not run (spec/93_implementation_defined.md U8). -/
abbrev Params.legal (p : Params) : Prop :=
  p.programBase % 4 = 0 ∧ p.programLen % 4 = 0 ∧ p.programBase < 2 ^ 32 ∧ p.programLen < 2 ^ 32 ∧
    p.programBase + p.programLen ≤ 2 ^ 32 ∧ p.resetPc.toNat % 4 = 0

/-- The parameters at their defaults (R6, D8: Tier G not admitted; D9: `source`; D15: `RESET_PC` is
`PROGRAM_BASE`). `PROGRAM_BASE` and `PROGRAM_LEN` have no default: they are the loader's. DESIGN CHOICE
(notes/assumptions/3.md): the base of the spec's own programs (spec/95_test_vectors.md part 3) and an empty
text. -/
def Params.default : Params where
  admitGkRows := false
  fmwPolicy := .source
  programBase := 0x1000
  programLen := 0
  resetPc := 0x1000

end Sys2Proof
end

