-- ==== Sys2Proof/Machine/Memory.lean ====
section
/-! DEFINITION. The program text as data: a list of (address, byte) pairs in one canonical form, its read, its
write and the four-byte forms of both (spec/20_memory.md R40 to R42, R44). The machine only reads it; the write
is the loader's (spec/70_reset_and_hazards.md R243). -/

namespace Sys2Proof.Machine

/-- The bytes of the program text that are not `0x00`, by address. -/
abbrev Memory := List Host.Cell

/-- What an address that the list does not name reads as. DESIGN CHOICE (notes/assumptions/2.md): the text is a
total function on its addresses (R41), supplied by the loader; only its non-zero bytes are listed. -/
def Memory.unlisted : Byte := 0#8

/-- The byte at an address. -/
def Memory.read : Memory → Nat → Byte
  | [], _ => Memory.unlisted
  | c :: m, a => if a = c.1 then c.2 else Memory.read m a

/-- Writes one byte, keeping the canonical form. -/
def Memory.write : Memory → Nat → Byte → Memory
  | [], a, b => if b = Memory.unlisted then [] else [(a, b)]
  | c :: m, a, b =>
    if a < c.1 then
      if b = Memory.unlisted then c :: m else (a, b) :: c :: m
    else if a = c.1 then
      if b = Memory.unlisted then m else (a, b) :: m
    else c :: Memory.write m a b

/-- The canonical form: addresses strictly rising, no entry equal to what an unlisted address reads as. -/
abbrev Memory.wf (m : Memory) : Prop :=
  m.Pairwise (fun c d => c.1 < d.1) ∧ ∀ c ∈ m, c.2 ≠ Memory.unlisted

end Sys2Proof.Machine
end

