-- ==== Sys2Proof/Machine/State.lean ====
section
/-! DEFINITION. The state of the machine (spec/10_state.md), the reasons a step can stop, and the state after
reset. -/

namespace Sys2Proof.Machine

/-- The state: `x`, `f`, `fcsr` and `pc` are all the state the spec gives the machine (R38); `params` and `text`
are the parameters of the step relation (R37), carried as data that no step changes (notes/assumptions/1.md). -/
structure State where
  /-- integer registers 1 to 31, register `r` at index `r - 1`: `x[0]` is constant zero and is no cell
  (R20, R21; notes/assumptions/9.md) -/
  x : Vector Word 31
  /-- floating-point registers 0 to 31 (R28) -/
  f : Vector Word 32
  /-- `fcsr[7:0]`: `frm` in bits 7:5, `fflags` in bits 4:0 (R30, R33) -/
  fcsr : BitVec 8
  /-- the program counter (R25) -/
  pc : Word
  /-- the parameters of the machine (R37) -/
  params : Params
  /-- the program text (R37, R41) -/
  text : Memory
deriving DecidableEq, Repr

/-- The two faults (R200). Each carries its value and, beside it, the state the fault leaves, which is the state
before the step, unchanged (R207; notes/assumptions/7.md). Both are terminal: no step follows a fault (R207). -/
inductive Fault where
  /-- `FetchFault(pc)`: raised by the fetch stage of `step` when `pc` is neither inside the program text nor its
  end (R201). Safe: the spec names this fault. -/
  | fetchFault (pc : Word) (s : State)
  /-- `IllegalInstruction(insn)`: raised by the decode stage of `step` for a word of no admitted row, and by the
  eight Tier G meanings with an `rm` field for a reserved rounding mode (R202, R78). Safe: the spec names this
  fault; real hardware may go on (decision D7). -/
  | illegalInstruction (insn : Word) (s : State)
deriving DecidableEq, Repr

/-- Why there is no step. -/
inductive Refusal where
  /-- An instruction that has no meaning yet; raised by an arm of `exec`. No arm raises it. Safe. -/
  | notModelled (mnemonic : String)
  /-- The run has ended normally: `pc` is the end of the program text, the state is final and there is no step
  (R245); raised by `step`. Neither a fault nor a next state (notes/assumptions/5.md). Safe. -/
  | runFinal
  /-- The parameters break the constraints of R36 and R41, so the model does not accept the configuration
  (spec/93_implementation_defined.md U8); raised by `step` (notes/assumptions/6.md). Safe. -/
  | illegalParameters
deriving DecidableEq, Repr

/-- A launch state (R36, R240): `pc` is `RESET_PC`; the parameters, the text and the launch values of the
registers are whatever the loader supplies (R243). -/
def State.launch (p : Params) (text : Memory) (x : Vector Word 31) (f : Vector Word 32) (fcsr : BitVec 8) :
    State where
  x := x
  f := f
  fcsr := fcsr
  pc := p.resetPc
  params := p
  text := text

/-- The machine right after reset: the launch state with the parameters at their defaults and nothing listed in
the text. The spec states no launch value for `x[1]` to `x[31]`, `f` and `fcsr` (R36: any value). DESIGN CHOICE
(notes/assumptions/4.md): zero for each, unsafe. -/
def State.reset : State :=
  State.launch Params.default [] (Vector.replicate 31 0#32) (Vector.replicate 32 0#32) 0#8

end Sys2Proof.Machine
end

