-- ==== Sys2Proof/Machine/Flags.lean ====
section
/-! DEFINITION. The fields of `fcsr` and the accrued exception flags (spec/10_state.md R30 to R33;
spec/42_rv32f_move_convert_arith.md R132). -/

namespace Sys2Proof.Machine

/-- A 5-bit flag mask: NV, DZ, OF, UF, NX = bits 4 to 0 (R31). -/
abbrev Flags := BitVec 5

/-- No flag raised. -/
def noFlags : Flags := 0x00#5
/-- NV, invalid operation (R31, R132). -/
def flagNV : Flags := 0x10#5
/-- DZ, divide by zero (R31, R132). -/
def flagDZ : Flags := 0x08#5
/-- OF, overflow (R31, R132). -/
def flagOF : Flags := 0x04#5
/-- UF, underflow (R31, R132). -/
def flagUF : Flags := 0x02#5
/-- NX, inexact (R31, R132). -/
def flagNX : Flags := 0x01#5

/-- A flag raised on a condition, else nothing. -/
def flagIf (c : Bool) (m : Flags) : Flags := if c then m else noFlags

/-- `frm` = `fcsr[7:5]` (R30, R32). -/
def State.frm (s : State) : BitVec 3 := s.fcsr.extractLsb' 5 3

/-- `fflags` = `fcsr[4:0]` (R30, R31). -/
def State.fflags (s : State) : Flags := s.fcsr.extractLsb' 0 5

/-- A write of `fcsr[7:0]`: bits 31:8 of the written value are ignored (R33). -/
def State.writeFcsr (s : State) (v : BitVec 8) : State := { s with fcsr := v }

/-- A write of `frm`: `fflags` is unchanged (R30). -/
def State.writeFrm (s : State) (v : BitVec 3) : State := { s with fcsr := v ++ s.fflags }

/-- A write of `fflags`: `frm` is unchanged (R30). -/
def State.writeFflags (s : State) (v : Flags) : State := { s with fcsr := s.frm ++ v }

/-- `fflags |= m`: bits already 1 stay 1 (R31). -/
def State.accrue (s : State) (m : Flags) : State := s.writeFflags (s.fflags ||| m)

end Sys2Proof.Machine
end

