-- ==== Sys2Proof/Syntax.lean ====
section
/-! DEFINITION. The instructions: one constructor of `Instr` per row of spec/opcode_table.json, in the table's
order, with the operands of its rule (spec/30_encoding.md R66, R72, R75 to R78; register files as
spec/10_state.md R24 assigns them). -/

namespace Sys2Proof

/-- The five rounding modes of R32 and R133. -/
inductive RoundingMode where
  /-- to nearest, ties to even -/
  | rne
  /-- toward zero -/
  | rtz
  /-- down, toward minus infinity -/
  | rdn
  /-- up, toward plus infinity -/
  | rup
  /-- to nearest, ties to max magnitude -/
  | rmm
deriving DecidableEq, Repr

/-- The eight values of the 3-bit rounding-mode field `rm` of a Tier G instruction (R78). All eight decode; the
two reserved ones make the instruction raise `IllegalInstruction` when it executes (R78, R155). -/
inductive Rm where
  /-- `000` -/
  | rne
  /-- `001` -/
  | rtz
  /-- `010` -/
  | rdn
  /-- `011` -/
  | rup
  /-- `100` -/
  | rmm
  /-- `101`, reserved -/
  | reserved5
  /-- `110`, reserved -/
  | reserved6
  /-- `111`: the mode `frm` holds -/
  | dyn
deriving DecidableEq, Repr

/-- The mnemonics, one per row of the opcode table. -/
inductive Mnemonic where
  -- RV32I
  | add | sub | sll | slt | sltu | xor | srl | sra | or | and 
  -- RV32M
  | mul | mulh | mulhsu | mulhu | div | divu | rem | remu 
  -- RV32F
  | fmwWX | fmwXW | fcvtSW | fcvtSWu | fmwWS | fmwWuS | faddS | fsubS | fmulS | fdivS | fsqrtS
  | fmaddS | fmsubS | fnmsubS | fnmaddS | fsgnjS | fsgnjnS | fsgnjxS | fminS | fmaxS | feqS | fltS
  | fleS | fclassS | frcsr | frrm | frflags | fscsr | fsrm | fsflags
deriving DecidableEq, Repr

/-- An instruction with its operands. `rd`, `rs1`, `rs2`, `rs3` are register numbers; the type says which
register file the number indexes (R24). -/
inductive Instr where
  -- RV32I
  /-- `add` (R100) -/
  | add (rd rs1 rs2 : XReg)
  /-- `sub` (R101) -/
  | sub (rd rs1 rs2 : XReg)
  /-- `sll` (R102) -/
  | sll (rd rs1 rs2 : XReg)
  /-- `slt` (R103) -/
  | slt (rd rs1 rs2 : XReg)
  /-- `sltu` (R104) -/
  | sltu (rd rs1 rs2 : XReg)
  /-- `xor` (R105) -/
  | xor (rd rs1 rs2 : XReg)
  /-- `srl` (R106) -/
  | srl (rd rs1 rs2 : XReg)
  /-- `sra` (R107) -/
  | sra (rd rs1 rs2 : XReg)
  /-- `or` (R108) -/
  | or (rd rs1 rs2 : XReg)
  /-- `and` (R109) -/
  | and (rd rs1 rs2 : XReg)
  -- RV32M
  /-- `mul` (R120) -/
  | mul (rd rs1 rs2 : XReg)
  /-- `mulh` (R121) -/
  | mulh (rd rs1 rs2 : XReg)
  /-- `mulhsu` (R122) -/
  | mulhsu (rd rs1 rs2 : XReg)
  /-- `mulhu` (R123) -/
  | mulhu (rd rs1 rs2 : XReg)
  /-- `div` (R124) -/
  | div (rd rs1 rs2 : XReg)
  /-- `divu` (R125) -/
  | divu (rd rs1 rs2 : XReg)
  /-- `rem` (R126) -/
  | rem (rd rs1 rs2 : XReg)
  /-- `remu` (R127) -/
  | remu (rd rs1 rs2 : XReg)
  -- RV32F
  /-- `fmw.w.x` (R140) -/
  | fmwWX (rd : FReg) (rs1 : XReg)
  /-- `fmw.x.w` (R141) -/
  | fmwXW (rd : XReg) (rs1 : FReg)
  /-- `fcvt.s.w` (R142) -/
  | fcvtSW (rd : FReg) (rs1 : XReg) (rm : Rm)
  /-- `fcvt.s.wu` (R143) -/
  | fcvtSWu (rd : FReg) (rs1 : XReg) (rm : Rm)
  /-- `fmw.w.s` (R144) -/
  | fmwWS (rd : XReg) (rs1 : FReg) (rm : Rm)
  /-- `fmw.wu.s` (R145) -/
  | fmwWuS (rd : XReg) (rs1 : FReg) (rm : Rm)
  /-- `fadd.s` (R146) -/
  | faddS (rd rs1 rs2 : FReg)
  /-- `fsub.s` (R147) -/
  | fsubS (rd rs1 rs2 : FReg)
  /-- `fmul.s` (R148) -/
  | fmulS (rd rs1 rs2 : FReg)
  /-- `fdiv.s` (R149) -/
  | fdivS (rd rs1 rs2 : FReg)
  /-- `fsqrt.s` (R150) -/
  | fsqrtS (rd rs1 : FReg)
  /-- `fmadd.s` (R151) -/
  | fmaddS (rd rs1 rs2 rs3 : FReg) (rm : Rm)
  /-- `fmsub.s` (R152) -/
  | fmsubS (rd rs1 rs2 rs3 : FReg) (rm : Rm)
  /-- `fnmsub.s` (R153) -/
  | fnmsubS (rd rs1 rs2 rs3 : FReg) (rm : Rm)
  /-- `fnmadd.s` (R154) -/
  | fnmaddS (rd rs1 rs2 rs3 : FReg) (rm : Rm)
  /-- `fsgnj.s` (R160) -/
  | fsgnjS (rd rs1 rs2 : FReg)
  /-- `fsgnjn.s` (R161) -/
  | fsgnjnS (rd rs1 rs2 : FReg)
  /-- `fsgnjx.s` (R162) -/
  | fsgnjxS (rd rs1 rs2 : FReg)
  /-- `fmin.s` (R163) -/
  | fminS (rd rs1 rs2 : FReg)
  /-- `fmax.s` (R164) -/
  | fmaxS (rd rs1 rs2 : FReg)
  /-- `feq.s` (R165) -/
  | feqS (rd : XReg) (rs1 rs2 : FReg)
  /-- `flt.s` (R166) -/
  | fltS (rd : XReg) (rs1 rs2 : FReg)
  /-- `fle.s` (R167) -/
  | fleS (rd : XReg) (rs1 rs2 : FReg)
  /-- `fclass.s` (R168) -/
  | fclassS (rd : XReg) (rs1 : FReg)
  /-- `frcsr` (R169) -/
  | frcsr (rd : XReg)
  /-- `frrm` (R170) -/
  | frrm (rd : XReg)
  /-- `frflags` (R171) -/
  | frflags (rd : XReg)
  /-- `fscsr` (R172) -/
  | fscsr (rd rs1 : XReg)
  /-- `fsrm` (R173) -/
  | fsrm (rd rs1 : XReg)
  /-- `fsflags` (R174) -/
  | fsflags (rd rs1 : XReg)
deriving DecidableEq, Repr

/-- The row of the opcode table an instruction belongs to. -/
def Instr.mnemonic : Instr → Mnemonic
  | .add _ _ _ => .add
  | .sub _ _ _ => .sub
  | .sll _ _ _ => .sll
  | .slt _ _ _ => .slt
  | .sltu _ _ _ => .sltu
  | .xor _ _ _ => .xor
  | .srl _ _ _ => .srl
  | .sra _ _ _ => .sra
  | .or _ _ _ => .or
  | .and _ _ _ => .and
  | .mul _ _ _ => .mul
  | .mulh _ _ _ => .mulh
  | .mulhsu _ _ _ => .mulhsu
  | .mulhu _ _ _ => .mulhu
  | .div _ _ _ => .div
  | .divu _ _ _ => .divu
  | .rem _ _ _ => .rem
  | .remu _ _ _ => .remu
  | .fmwWX _ _ => .fmwWX
  | .fmwXW _ _ => .fmwXW
  | .fcvtSW _ _ _ => .fcvtSW
  | .fcvtSWu _ _ _ => .fcvtSWu
  | .fmwWS _ _ _ => .fmwWS
  | .fmwWuS _ _ _ => .fmwWuS
  | .faddS _ _ _ => .faddS
  | .fsubS _ _ _ => .fsubS
  | .fmulS _ _ _ => .fmulS
  | .fdivS _ _ _ => .fdivS
  | .fsqrtS _ _ => .fsqrtS
  | .fmaddS _ _ _ _ _ => .fmaddS
  | .fmsubS _ _ _ _ _ => .fmsubS
  | .fnmsubS _ _ _ _ _ => .fnmsubS
  | .fnmaddS _ _ _ _ _ => .fnmaddS
  | .fsgnjS _ _ _ => .fsgnjS
  | .fsgnjnS _ _ _ => .fsgnjnS
  | .fsgnjxS _ _ _ => .fsgnjxS
  | .fminS _ _ _ => .fminS
  | .fmaxS _ _ _ => .fmaxS
  | .feqS _ _ _ => .feqS
  | .fltS _ _ _ => .fltS
  | .fleS _ _ _ => .fleS
  | .fclassS _ _ => .fclassS
  | .frcsr _ => .frcsr
  | .frrm _ => .frrm
  | .frflags _ => .frflags
  | .fscsr _ _ => .fscsr
  | .fsrm _ _ => .fsrm
  | .fsflags _ _ => .fsflags

end Sys2Proof
end

