-- ==== Sys2Proof/Machine/Rounding.lean ====
section
/-! DEFINITION. The binary32 format and the rounding of an exact rational, in integer arithmetic
(spec/42_rv32f_move_convert_arith.md R130, R131, R133). The numerics are those the spec writes in full, choice (1)
of R136; they rest on decision D4 (notes/assumptions/10.md). -/

namespace Sys2Proof.Machine

/-! ### The format (R130) -/

/-- The sign bit, `v[31]`. -/
def fpSign (v : Word) : Bool := v.msb
/-- The biased exponent `E`, `v[30:23]`. -/
def fpExp (v : Word) : Nat := (v.extractLsb' 23 8).toNat
/-- The fraction `F`, `v[22:0]`. -/
def fpFrac (v : Word) : Nat := (v.extractLsb' 0 23).toNat

def isZero (v : Word) : Bool := fpExp v == 0 && fpFrac v == 0
def isSub (v : Word) : Bool := fpExp v == 0 && fpFrac v != 0
def isInf (v : Word) : Bool := fpExp v == 255 && fpFrac v == 0
def isNaN (v : Word) : Bool := fpExp v == 255 && fpFrac v != 0
/-- A NaN with bit 22 clear. -/
def isSNaN (v : Word) : Bool := isNaN v && !v.getLsbD 22
/-- A NaN with bit 22 set. -/
def isQNaN (v : Word) : Bool := isNaN v && v.getLsbD 22
def isFinite (v : Word) : Bool := fpExp v != 255

/-- The canonical NaN, `0x7FC00000` (R131). -/
def canonNaN : Word := 0x7FC00000#32

/-- The pattern with a sign, a biased exponent and a fraction (R130). -/
def fpPattern (sign : Bool) (exp frac : Nat) : Word :=
  BitVec.ofBool sign ++ BitVec.ofNat 8 exp ++ BitVec.ofNat 23 frac

/-- The zero of a sign. -/
def zeroOf (sign : Bool) : Word := fpPattern sign 0 0
/-- The infinity of a sign. -/
def infOf (sign : Bool) : Word := fpPattern sign 255 0
/-- The greatest finite number of a sign. -/
def maxOf (sign : Bool) : Word := fpPattern sign 254 (2 ^ 23 - 1)

/-- The significand of a finite pattern as an integer: `F`, or `2^23 + F` for a normal number. -/
def fpSig (v : Word) : Nat := if fpExp v = 0 then fpFrac v else 2 ^ 23 + fpFrac v

/-- The exponent of a finite pattern's significand: `|val v| = fpSig v * 2^(fpSigExp v)`. -/
def fpSigExp (v : Word) : Int := if fpExp v = 0 then -149 else (fpExp v : Int) - 150

/-- The value of a finite pattern in units of `2^-149`: every finite binary32 number is an integer number of them,
`val v = fpUnits v * 2^-149` (R130). -/
def fpUnits (v : Word) : Int :=
  let m : Nat := if fpExp v = 0 then fpFrac v else (2 ^ 23 + fpFrac v) * 2 ^ (fpExp v - 1)
  if fpSign v then -(m : Int) else (m : Int)

/-! ### Exact magnitudes -/

/-- A non-negative rational `num / den`, `den` positive: an exact magnitude before rounding. -/
structure Mag where
  num : Nat
  den : Nat
deriving DecidableEq, Repr

/-- `m * 2^k`. -/
def Mag.mulPow2 (m : Mag) (k : Int) : Mag := ⟨m.num * 2 ^ k.toNat, m.den * 2 ^ (-k).toNat⟩

/-- `n * 2^k` for an integer `n`. -/
def Mag.scaled (n : Nat) (k : Int) : Mag := Mag.mulPow2 ⟨n, 1⟩ k

/-- `a < b`. -/
def Mag.lt (a b : Mag) : Bool := Nat.blt (a.num * b.den) (b.num * a.den)

/-- `a = b` as numbers. -/
def Mag.eqv (a b : Mag) : Bool := a.num * b.den == b.num * a.den

/-- The integer `e` with `2^e <= m < 2^(e+1)`, for `m` not zero (R133). -/
def Mag.floorLog2 (m : Mag) : Int :=
  let k : Int := (m.num.log2 : Int) - (m.den.log2 : Int)
  if m.lt (Mag.scaled 1 k) then k - 1 else k

/-- `rint(u)` of R133: the integer rounding of a non-negative number, aware of the sign. -/
def rint (rm : RoundingMode) (neg : Bool) (u : Mag) : Nat :=
  let q := u.num / u.den
  let r := u.num % u.den
  let ceil := if r = 0 then q else q + 1
  match rm with
  | .rne =>
    if 2 * r < u.den then q else if u.den < 2 * r then q + 1 else if q % 2 = 0 then q else q + 1
  | .rmm => if 2 * r < u.den then q else q + 1
  | .rtz => q
  | .rdn => if neg then ceil else q
  | .rup => if neg then q else ceil

/-! ### Rounding to binary32 (R133) -/

/-- A result pattern and the flags the operation raises. -/
structure FpResult where
  bits : Word
  flags : Flags
deriving DecidableEq, Repr

/-- The result delivered on overflow, by rounding mode and sign (R133). -/
def overflowResult (rm : RoundingMode) (neg : Bool) : Word :=
  match rm with
  | .rne | .rmm => infOf neg
  | .rtz => maxOf neg
  | .rdn => if neg then infOf neg else maxOf neg
  | .rup => if neg then maxOf neg else infOf neg

/-- The pattern of the finite number `n * 2^qe` of a sign, for `n <= 2^24` and `qe >= -149`, `qe = -149` if
`n < 2^23` (R133, the last case split). -/
def finitePattern (neg : Bool) (n : Nat) (qe : Int) : Word :=
  if n < 2 ^ 23 then fpPattern neg 0 n
  else if n = 2 ^ 24 then fpPattern neg (qe + 1 + 150).toNat 0
  else fpPattern neg (qe + 150).toNat (n - 2 ^ 23)

/-- `round(rm, t)` of R133 for a non-zero exact `t` given by its sign and magnitude. -/
def roundMag (rm : RoundingMode) (neg : Bool) (m : Mag) : FpResult :=
  let e := m.floorLog2
  -- (1) tininess, judged after rounding with unbounded exponent range (decision D25)
  let ru := Mag.scaled (rint rm neg (m.mulPow2 (23 - e))) (e - 23)
  let tiny := ru.lt (Mag.scaled 1 (-126))
  -- (2) the delivered value: 24 significant bits, but no quantum finer than 2^-149
  let qe := max e (-126) - 23
  let n := rint rm neg (m.mulPow2 (-qe))
  let v := Mag.scaled n qe
  let inexact := !v.eqv m
  if v.lt (Mag.scaled 1 128) then
    ⟨finitePattern neg n qe, flagIf inexact flagNX ||| flagIf (tiny && inexact) flagUF⟩
  else
    ⟨overflowResult rm neg, flagOF ||| flagNX⟩

/-- `round(rm, n / d)` for a non-zero integer `n` and a positive `d`. -/
def roundRatio (rm : RoundingMode) (n : Int) (d : Nat) : FpResult :=
  roundMag rm (decide (n < 0)) ⟨n.natAbs, d⟩

/-! ### The integer square root (R150) -/

/-- The bits of `floor(sqrt m)` below bit `k`, found from the highest down, added to `acc`. -/
def isqrtBits (m : Nat) : Nat → Nat → Nat
  | 0, acc => acc
  | k + 1, acc => isqrtBits m k (if (acc + 2 ^ k) * (acc + 2 ^ k) ≤ m then acc + 2 ^ k else acc)

/-- `floor(sqrt m)` for `m < 2^48`. -/
def isqrt (m : Nat) : Nat := isqrtBits m 24 0

end Sys2Proof.Machine
end

