-- ==== Sys2Proof/Machine/Numerics.lean ====
section
/-! DEFINITION. The floating-point operations as functions of their operands: a result and a flag mask
(spec/42_rv32f_move_convert_arith.md R134, R135, R142 to R154; spec/43_rv32f_sign_minmax_compare_csr.md R160 to
R168). The order of the cases is that of each rule's pseudocode. -/

namespace Sys2Proof.Machine

/-! ### Arithmetic (R134, R135, R146 to R151) -/

/-- A sum that is exactly zero where the addends are not two zeros of one sign (R135 a). -/
def zeroSum (mode : RoundingMode) : Word := if mode = .rdn then 0x80000000#32 else 0x00000000#32

/-- `fp_add(a, b, mode)` (R146). -/
def fpAdd (a b : Word) (mode : RoundingMode) : FpResult :=
  if isNaN a || isNaN b then ⟨canonNaN, flagIf (isSNaN a || isSNaN b) flagNV⟩
  else if isInf a && isInf b && (fpSign a != fpSign b) then ⟨canonNaN, flagNV⟩
  else if isInf a then ⟨a, noFlags⟩
  else if isInf b then ⟨b, noFlags⟩
  else
    let t := fpUnits a + fpUnits b
    if t = 0 then
      ⟨if isZero a && isZero b && fpSign a == fpSign b then a else zeroSum mode, noFlags⟩
    else roundRatio mode t (2 ^ 149)

/-- Subtraction is addition of the operand with its sign bit flipped (R147). -/
def fpSub (a b : Word) (mode : RoundingMode) : FpResult := fpAdd a (b ^^^ 0x80000000#32) mode

/-- `fp_mul(a, b, mode)` (R148). -/
def fpMul (a b : Word) (mode : RoundingMode) : FpResult :=
  let sg := fpSign a ^^ fpSign b
  if isNaN a || isNaN b then ⟨canonNaN, flagIf (isSNaN a || isSNaN b) flagNV⟩
  else if (isInf a && isZero b) || (isZero a && isInf b) then ⟨canonNaN, flagNV⟩
  else if isInf a || isInf b then ⟨infOf sg, noFlags⟩
  else if isZero a || isZero b then ⟨zeroOf sg, noFlags⟩
  else roundRatio mode (fpUnits a * fpUnits b) (2 ^ 298)

/-- `fp_div(a, b, mode)` (R149). -/
def fpDiv (a b : Word) (mode : RoundingMode) : FpResult :=
  let sg := fpSign a ^^ fpSign b
  if isNaN a || isNaN b then ⟨canonNaN, flagIf (isSNaN a || isSNaN b) flagNV⟩
  else if isInf a && isInf b then ⟨canonNaN, flagNV⟩
  else if isZero a && isZero b then ⟨canonNaN, flagNV⟩
  else if isInf a then ⟨infOf sg, noFlags⟩
  else if isInf b then ⟨zeroOf sg, noFlags⟩
  else if isZero b then ⟨infOf sg, flagDZ⟩
  else if isZero a then ⟨zeroOf sg, noFlags⟩
  else roundMag mode sg ⟨(fpUnits a).natAbs, (fpUnits b).natAbs⟩

/-- The square root of a positive finite number, rounded to nearest, by the integer algorithm of R150: `val a` is
`M * 2^(2k)` with `2^46 <= M < 2^48`. -/
def sqrtFinite (a : Word) : FpResult :=
  let j0 : Nat := 46 - (fpSig a).log2
  let j : Nat := if (fpSigExp a - j0) % 2 = 0 then j0 else j0 + 1
  let M := fpSig a * 2 ^ j
  let k := (fpSigExp a - j) / 2
  let n := isqrt M
  let d := M - n * n
  ⟨finitePattern false (if n < d then n + 1 else n) k, flagIf (d != 0) flagNX⟩

/-- `fp_sqrt(a, RNE)` (R150). -/
def fpSqrt (a : Word) : FpResult :=
  if isNaN a then ⟨canonNaN, flagIf (isSNaN a) flagNV⟩
  else if isZero a then ⟨a, noFlags⟩
  else if fpSign a then ⟨canonNaN, flagNV⟩
  else if isInf a then ⟨a, noFlags⟩
  else sqrtFinite a

/-- `fp_fma(a, b, c, mode, negp, negc)` (R151): the product, negated if `negp`, plus the addend, its sign flipped
if `negc`, with one rounding. -/
def fpFma (a b c0 : Word) (mode : RoundingMode) (negp negc : Bool) : FpResult :=
  let c := if negc then c0 ^^^ 0x80000000#32 else c0
  let sp := (fpSign a ^^ fpSign b) ^^ negp
  let invalidProduct := (isInf a && isZero b) || (isZero a && isInf b)
  if isNaN a || isNaN b || isNaN c then
    ⟨canonNaN, flagIf (isSNaN a || isSNaN b || isSNaN c || invalidProduct) flagNV⟩
  else if invalidProduct then ⟨canonNaN, flagNV⟩
  else if (isInf a || isInf b) && isInf c && (sp != fpSign c) then ⟨canonNaN, flagNV⟩
  else if isInf a || isInf b then ⟨infOf sp, noFlags⟩
  else if isInf c then ⟨c, noFlags⟩
  else
    let ab := fpUnits a * fpUnits b
    let p := if negp then -ab else ab
    let t := p + fpUnits c * 2 ^ 149
    if t = 0 then
      ⟨if p = 0 ∧ isZero c ∧ sp = fpSign c then c else zeroSum mode, noFlags⟩
    else roundRatio mode t (2 ^ 298)

/-! ### Conversions (R142 to R145) -/

/-- An integer to binary32 (R142, R143). -/
def fpOfInt (mode : RoundingMode) (k : Int) : FpResult :=
  if k = 0 then ⟨0x00000000#32, noFlags⟩ else roundRatio mode k 1

/-- The integer rounding of a finite number: `rint` of its magnitude, the sign restored (R144). -/
def fpRint (mode : RoundingMode) (a : Word) : Int :=
  let n : Nat := rint mode (fpSign a) ⟨(fpUnits a).natAbs, 2 ^ 149⟩
  if fpSign a then -(n : Int) else (n : Int)

/-- Binary32 to an integer in the range `lo` to `hi` (R144, R145): NaN and what lies above the range give `hi`,
what lies below gives `lo`, with NV; in range, NX if the value changed. -/
def fpToInt (lo hi : Int) (mode : RoundingMode) (a : Word) : FpResult :=
  if isNaN a then ⟨BitVec.ofInt 32 hi, flagNV⟩
  else if isInf a then ⟨BitVec.ofInt 32 (if fpSign a then lo else hi), flagNV⟩
  else
    let n := fpRint mode a
    if hi < n then ⟨BitVec.ofInt 32 hi, flagNV⟩
    else if n < lo then ⟨BitVec.ofInt 32 lo, flagNV⟩
    else ⟨BitVec.ofInt 32 n, flagIf (n * 2 ^ 149 != fpUnits a) flagNX⟩

/-! ### Sign injection (R160 to R162) -/

/-- `{ sign, a[30:0] }`. -/
def withSign (sign : Bool) (a : Word) : Word := BitVec.ofBool sign ++ a.extractLsb' 0 31

/-! ### Order: minimum, maximum, comparisons (R163 to R167) -/

/-- `key(v)` of R163: orders the non-NaN patterns, `-0` just below `+0`. -/
def fpKey (v : Word) : Int :=
  let m : Int := ((v.extractLsb' 0 31).toNat : Int)
  if fpSign v then -1 - m else m

/-- `key'(v)` of R165 to R167: as `key`, but both zeros are 0. -/
def fpCmpKey (v : Word) : Int := if isZero v then 0 else fpKey v

/-- `fp_minmax(a, b, isMax)` (R163, R164). -/
def fpMinMax (a b : Word) (isMax : Bool) : FpResult :=
  let fl := flagIf (isSNaN a || isSNaN b) flagNV
  if isNaN a && isNaN b then ⟨canonNaN, fl⟩
  else if isNaN a then ⟨b, fl⟩
  else if isNaN b then ⟨a, fl⟩
  else if fpKey a < fpKey b then ⟨if isMax then b else a, fl⟩
  else if fpKey b < fpKey a then ⟨if isMax then a else b, fl⟩
  else ⟨a, fl⟩

/-- A truth value as a register value: 1 or 0. -/
def boolWord (c : Bool) : Word := if c then 1#32 else 0#32

/-- Neither operand is a NaN: a comparison can be true (R165 to R167). -/
def ordered (a b : Word) : Bool := !isNaN a && !isNaN b

/-- The quiet comparison `a = b` (R165). -/
def fpEq (a b : Word) : FpResult :=
  ⟨boolWord (ordered a b && fpCmpKey a == fpCmpKey b), flagIf (isSNaN a || isSNaN b) flagNV⟩

/-- The signaling comparison `a < b` (R166). -/
def fpLt (a b : Word) : FpResult :=
  ⟨boolWord (ordered a b && decide (fpCmpKey a < fpCmpKey b)), flagIf (isNaN a || isNaN b) flagNV⟩

/-- The signaling comparison `a <= b` (R167). -/
def fpLe (a b : Word) : FpResult :=
  ⟨boolWord (ordered a b && (decide (fpCmpKey a < fpCmpKey b) || fpCmpKey a == fpCmpKey b)),
    flagIf (isNaN a || isNaN b) flagNV⟩

/-! ### Classes (R130, R168) -/

/-- The ten classes of R130, in the order of the bits of `fclass.s` (R168). -/
inductive FpClass where
  | negInf | negNormal | negSubnormal | negZero | posZero | posSubnormal | posNormal | posInf
  | signalingNaN | quietNaN
deriving DecidableEq, Repr

/-- The class of a pattern (R130). -/
def fpClass (v : Word) : FpClass :=
  if isSNaN v then .signalingNaN
  else if isNaN v then .quietNaN
  else if isInf v then (if fpSign v then .negInf else .posInf)
  else if isZero v then (if fpSign v then .negZero else .posZero)
  else if isSub v then (if fpSign v then .negSubnormal else .posSubnormal)
  else (if fpSign v then .negNormal else .posNormal)

/-- `classIndex`: the bit of each class in the result of `fclass.s` (R168). -/
def classIndex : FpClass → Nat
  | .negInf => 0
  | .negNormal => 1
  | .negSubnormal => 2
  | .negZero => 3
  | .posZero => 4
  | .posSubnormal => 5
  | .posNormal => 6
  | .posInf => 7
  | .signalingNaN => 8
  | .quietNaN => 9

end Sys2Proof.Machine
end

