-- ==== Sys2Proof/WellFormed.lean ====
section
/-! DEFINITION. Which rows of the opcode table the machine admits, and so which instructions are well formed
(spec/00_scope.md R6; spec/30_encoding.md R65; spec/42_rv32f_move_convert_arith.md R140). The operands need no
check: every register number 0 to 31 is legal (R8), and every value of the `rm` field decodes (R78). -/

namespace Sys2Proof

/-- The two tiers of R6: rows the source encodes, and rows whose encoding is general knowledge. -/
inductive Tier where
  | S | G
deriving DecidableEq, Repr

/-- The tier of each row (R6). -/
def Mnemonic.tier : Mnemonic → Tier
  | .add | .sub | .sll | .slt | .sltu | .xor | .srl | .sra | .or | .and | .mul | .mulh | .mulhsu
  | .mulhu | .div | .divu | .rem | .remu | .fmwWX | .faddS | .fsubS | .fmulS | .fdivS | .fsqrtS
  | .fsgnjS | .fsgnjnS | .fsgnjxS | .fminS | .fmaxS => .S
  | .fmwXW | .fcvtSW | .fcvtSWu | .fmwWS | .fmwWuS | .fmaddS | .fmsubS | .fnmsubS | .fnmaddS | .feqS
  | .fltS | .fleS | .fclassS | .frcsr | .frrm | .frflags | .fscsr | .fsrm | .fsflags => .G

/-- The rows that the parameters admit (R6, R65): Tier S always, but for `fmw.w.x` under `FMW_W_X_POLICY` =
`refuse` (R140); Tier G only with `ADMIT_GK_ROWS`. -/
def Mnemonic.admitted (p : Params) (m : Mnemonic) : Bool :=
  match m.tier with
  | .S => !(m == .fmwWX && p.fmwPolicy == .refuse)
  | .G => p.admitGkRows

/-- An instruction is well formed under the parameters when its row is admitted: a mnemonic that is not
admitted spells no instruction (R6). -/
abbrev Instr.wellFormed (p : Params) (i : Instr) : Prop := i.mnemonic.admitted p = true

end Sys2Proof
end

