-- ==== Sys2Proof/Decode.lean ====
section
/-! DEFINITION. The decoder (spec/30_encoding.md R62, R65, R66, R75 to R78), total on every word and on every
list of bytes, and after it the encoder, written from the fields of the formats (R61, R62, R76, R77). -/

namespace Sys2Proof

/-! ### Byte order -/

/-- The 32-bit value of four bytes, the byte at the lowest address first (R42: little-endian). -/
def wordOfBytes (b0 b1 b2 b3 : Byte) : Word := b3 ++ b2 ++ b1 ++ b0

/-- Byte `k` of a word as memory holds it: `k` = 0 is bits 7:0 (R42). -/
def byteOfWord (w : Word) (k : Nat) : Byte := w.extractLsb' (8 * k) 8

/-! ### The fields of an instruction word (R61, R62, R76, R78) -/

/-- Bits 11:7. -/
def rdField (w : Word) : BitVec 5 := w.extractLsb' 7 5
/-- Bits 19:15. -/
def rs1Field (w : Word) : BitVec 5 := w.extractLsb' 15 5
/-- Bits 24:20. -/
def rs2Field (w : Word) : BitVec 5 := w.extractLsb' 20 5
/-- Bits 31:27 (R4 format, R76). -/
def rs3Field (w : Word) : BitVec 5 := w.extractLsb' 27 5
/-- Bits 14:12 (R78). -/
def rmField (w : Word) : BitVec 3 := w.extractLsb' 12 3

/-- The meaning of the `rm` field's codes (R78). -/
def Rm.ofBits (b : BitVec 3) : Rm :=
  match b.toNat with
  | 0 => .rne
  | 1 => .rtz
  | 2 => .rdn
  | 3 => .rup
  | 4 => .rmm
  | 5 => .reserved5
  | 6 => .reserved6
  | _ => .dyn

/-- The code of each value of the `rm` field (R78). -/
def Rm.bits : Rm → BitVec 3
  | .rne => 0b000#3
  | .rtz => 0b001#3
  | .rdn => 0b010#3
  | .rup => 0b011#3
  | .rmm => 0b100#3
  | .reserved5 => 0b101#3
  | .reserved6 => 0b110#3
  | .dyn => 0b111#3

/-! ### The opcode table (R66, R75) -/

/-- A row's pattern: `mask` has a 1 in every bit the row fixes, `bits` holds the fixed bits (R66). -/
structure Pattern where
  bits : Word
  mask : Word
deriving DecidableEq, Repr

/-- The columns "match" and "mask" of the opcode map: Tier S from R66, Tier G from R75. -/
def Mnemonic.pattern : Mnemonic → Pattern
  | .add => ⟨0x00000033#32, 0xFE00707F#32⟩
  | .sub => ⟨0x40000033#32, 0xFE00707F#32⟩
  | .sll => ⟨0x00001033#32, 0xFE00707F#32⟩
  | .slt => ⟨0x00002033#32, 0xFE00707F#32⟩
  | .sltu => ⟨0x00003033#32, 0xFE00707F#32⟩
  | .xor => ⟨0x00004033#32, 0xFE00707F#32⟩
  | .srl => ⟨0x00005033#32, 0xFE00707F#32⟩
  | .sra => ⟨0x40005033#32, 0xFE00707F#32⟩
  | .or => ⟨0x00006033#32, 0xFE00707F#32⟩
  | .and => ⟨0x00007033#32, 0xFE00707F#32⟩
  | .mul => ⟨0x02000033#32, 0xFE00707F#32⟩
  | .mulh => ⟨0x02001033#32, 0xFE00707F#32⟩
  | .mulhsu => ⟨0x02002033#32, 0xFE00707F#32⟩
  | .mulhu => ⟨0x02003033#32, 0xFE00707F#32⟩
  | .div => ⟨0x02004033#32, 0xFE00707F#32⟩
  | .divu => ⟨0x02005033#32, 0xFE00707F#32⟩
  | .rem => ⟨0x02006033#32, 0xFE00707F#32⟩
  | .remu => ⟨0x02007033#32, 0xFE00707F#32⟩
  | .fmwWX => ⟨0x58002053#32, 0xFFF0707F#32⟩
  | .fmwXW => ⟨0xE0000053#32, 0xFFF0707F#32⟩
  | .fcvtSW => ⟨0xD0000053#32, 0xFFF0007F#32⟩
  | .fcvtSWu => ⟨0xD0100053#32, 0xFFF0007F#32⟩
  | .fmwWS => ⟨0xC0000053#32, 0xFFF0007F#32⟩
  | .fmwWuS => ⟨0xC0100053#32, 0xFFF0007F#32⟩
  | .faddS => ⟨0x00000053#32, 0xFE00707F#32⟩
  | .fsubS => ⟨0x08000053#32, 0xFE00707F#32⟩
  | .fmulS => ⟨0x10000053#32, 0xFE00707F#32⟩
  | .fdivS => ⟨0x18000053#32, 0xFE00707F#32⟩
  | .fsqrtS => ⟨0x58000053#32, 0xFFF0707F#32⟩
  | .fmaddS => ⟨0x00000043#32, 0x0600007F#32⟩
  | .fmsubS => ⟨0x00000047#32, 0x0600007F#32⟩
  | .fnmsubS => ⟨0x0000004B#32, 0x0600007F#32⟩
  | .fnmaddS => ⟨0x0000004F#32, 0x0600007F#32⟩
  | .fsgnjS => ⟨0x20000053#32, 0xFE00707F#32⟩
  | .fsgnjnS => ⟨0x20001053#32, 0xFE00707F#32⟩
  | .fsgnjxS => ⟨0x20002053#32, 0xFE00707F#32⟩
  | .fminS => ⟨0x28000053#32, 0xFE00707F#32⟩
  | .fmaxS => ⟨0x28001053#32, 0xFE00707F#32⟩
  | .feqS => ⟨0xA0002053#32, 0xFE00707F#32⟩
  | .fltS => ⟨0xA0001053#32, 0xFE00707F#32⟩
  | .fleS => ⟨0xA0000053#32, 0xFE00707F#32⟩
  | .fclassS => ⟨0xE0001053#32, 0xFFF0707F#32⟩
  | .frcsr => ⟨0x00302073#32, 0xFFFFF07F#32⟩
  | .frrm => ⟨0x00202073#32, 0xFFFFF07F#32⟩
  | .frflags => ⟨0x00102073#32, 0xFFFFF07F#32⟩
  | .fscsr => ⟨0x00301073#32, 0xFFF0707F#32⟩
  | .fsrm => ⟨0x00201073#32, 0xFFF0707F#32⟩
  | .fsflags => ⟨0x00101073#32, 0xFFF0707F#32⟩

/-- A word is of a row if and only if `w & mask = match` (R66). -/
def Mnemonic.fits (m : Mnemonic) (w : Word) : Bool := w &&& m.pattern.mask == m.pattern.bits

/-- The instruction of a row, its operands extracted from the word (R62, R65, R76 to R78). -/
def Mnemonic.build (m : Mnemonic) (w : Word) : Instr :=
  match m with
  | .add => .add (rdField w) (rs1Field w) (rs2Field w)
  | .sub => .sub (rdField w) (rs1Field w) (rs2Field w)
  | .sll => .sll (rdField w) (rs1Field w) (rs2Field w)
  | .slt => .slt (rdField w) (rs1Field w) (rs2Field w)
  | .sltu => .sltu (rdField w) (rs1Field w) (rs2Field w)
  | .xor => .xor (rdField w) (rs1Field w) (rs2Field w)
  | .srl => .srl (rdField w) (rs1Field w) (rs2Field w)
  | .sra => .sra (rdField w) (rs1Field w) (rs2Field w)
  | .or => .or (rdField w) (rs1Field w) (rs2Field w)
  | .and => .and (rdField w) (rs1Field w) (rs2Field w)
  | .mul => .mul (rdField w) (rs1Field w) (rs2Field w)
  | .mulh => .mulh (rdField w) (rs1Field w) (rs2Field w)
  | .mulhsu => .mulhsu (rdField w) (rs1Field w) (rs2Field w)
  | .mulhu => .mulhu (rdField w) (rs1Field w) (rs2Field w)
  | .div => .div (rdField w) (rs1Field w) (rs2Field w)
  | .divu => .divu (rdField w) (rs1Field w) (rs2Field w)
  | .rem => .rem (rdField w) (rs1Field w) (rs2Field w)
  | .remu => .remu (rdField w) (rs1Field w) (rs2Field w)
  | .fmwWX => .fmwWX (rdField w) (rs1Field w)
  | .fmwXW => .fmwXW (rdField w) (rs1Field w)
  | .fcvtSW => .fcvtSW (rdField w) (rs1Field w) (.ofBits (rmField w))
  | .fcvtSWu => .fcvtSWu (rdField w) (rs1Field w) (.ofBits (rmField w))
  | .fmwWS => .fmwWS (rdField w) (rs1Field w) (.ofBits (rmField w))
  | .fmwWuS => .fmwWuS (rdField w) (rs1Field w) (.ofBits (rmField w))
  | .faddS => .faddS (rdField w) (rs1Field w) (rs2Field w)
  | .fsubS => .fsubS (rdField w) (rs1Field w) (rs2Field w)
  | .fmulS => .fmulS (rdField w) (rs1Field w) (rs2Field w)
  | .fdivS => .fdivS (rdField w) (rs1Field w) (rs2Field w)
  | .fsqrtS => .fsqrtS (rdField w) (rs1Field w)
  | .fmaddS => .fmaddS (rdField w) (rs1Field w) (rs2Field w) (rs3Field w) (.ofBits (rmField w))
  | .fmsubS => .fmsubS (rdField w) (rs1Field w) (rs2Field w) (rs3Field w) (.ofBits (rmField w))
  | .fnmsubS => .fnmsubS (rdField w) (rs1Field w) (rs2Field w) (rs3Field w) (.ofBits (rmField w))
  | .fnmaddS => .fnmaddS (rdField w) (rs1Field w) (rs2Field w) (rs3Field w) (.ofBits (rmField w))
  | .fsgnjS => .fsgnjS (rdField w) (rs1Field w) (rs2Field w)
  | .fsgnjnS => .fsgnjnS (rdField w) (rs1Field w) (rs2Field w)
  | .fsgnjxS => .fsgnjxS (rdField w) (rs1Field w) (rs2Field w)
  | .fminS => .fminS (rdField w) (rs1Field w) (rs2Field w)
  | .fmaxS => .fmaxS (rdField w) (rs1Field w) (rs2Field w)
  | .feqS => .feqS (rdField w) (rs1Field w) (rs2Field w)
  | .fltS => .fltS (rdField w) (rs1Field w) (rs2Field w)
  | .fleS => .fleS (rdField w) (rs1Field w) (rs2Field w)
  | .fclassS => .fclassS (rdField w) (rs1Field w)
  | .frcsr => .frcsr (rdField w)
  | .frrm => .frrm (rdField w)
  | .frflags => .frflags (rdField w)
  | .fscsr => .fscsr (rdField w) (rs1Field w)
  | .fsrm => .fsrm (rdField w) (rs1Field w)
  | .fsflags => .fsflags (rdField w) (rs1Field w)

/-- Every row of the opcode table, in the table's order. -/
def Mnemonic.all : List Mnemonic :=
  [.add, .sub, .sll, .slt, .sltu, .xor, .srl, .sra, .or, .and, .mul, .mulh, .mulhsu, .mulhu, .div, .divu,
   .rem, .remu, .fmwWX, .fmwXW, .fcvtSW, .fcvtSWu, .fmwWS, .fmwWuS, .faddS, .fsubS, .fmulS, .fdivS,
   .fsqrtS, .fmaddS, .fmsubS, .fnmsubS, .fnmaddS, .fsgnjS, .fsgnjnS, .fsgnjxS, .fminS, .fmaxS, .feqS,
   .fltS, .fleS, .fclassS, .frcsr, .frrm, .frflags, .fscsr, .fsrm, .fsflags]

/-- Why the decoder refuses. -/
inductive Reject where
  /-- the word matches no admitted row: the verdict "unlisted" of R65 and R69 -/
  | unlisted (w : Word)
  /-- the bytes are not the four of one instruction (R60, R71: every instruction is 32 bits) -/
  | notOneWord (nbytes : Nat)
deriving DecidableEq, Repr

/-- The decoder of R65: the admitted row that the word matches, with its operands, or "unlisted". At most one
row matches (R74), so the order of the tests does not matter. -/
def decodeWord (p : Params) (w : Word) : Except Reject Instr :=
  match Mnemonic.all.find? (fun m => m.admitted p && m.fits w) with
  | some m => .ok (m.build w)
  | none => .error (.unlisted w)

/-- The decoder on the bytes of an instruction as memory holds them, lowest address first (R42, R60). -/
def decodeBytes (p : Params) : List Byte → Except Reject Instr
  | [b0, b1, b2, b3] => decodeWord p (wordOfBytes b0 b1 b2 b3)
  | bs => .error (.notOneWord bs.length)

/-- Parameters under which every row of the opcode table is admitted. -/
def Params.admitAll (p : Params) : Params := { p with admitGkRows := true, fmwPolicy := .source }

/-- The word whose bits the opcode table numbers: bits 31:0, those above `nbits` zero. -/
def tableWord (nbits w : Nat) : Word := BitVec.ofNat 32 (w % 2 ^ nbits)

/-- What the decoder reads from an instruction whose bits are `w`, numbered as spec/opcode_table.json numbers
them, with every row of the table admitted (notes/assumptions/8.md). The bytes are those memory would hold. -/
def decodeTableWord (nbits w : Nat) : Option Instr :=
  let word := tableWord nbits w
  match decodeBytes Params.default.admitAll [byteOfWord word 0, byteOfWord word 1, byteOfWord word 2, byteOfWord word 3] with
  | .ok i => some i
  | .error _ => none

/-! ### The encoder -/

/-- The R-type format (R61, R62): `{funct7, rs2, rs1, funct3, rd, opcode}`. -/
def assembleR (funct7 : BitVec 7) (rs2 rs1 : BitVec 5) (funct3 : BitVec 3) (rd : BitVec 5) (opcode : BitVec 7) :
    Word :=
  funct7 ++ rs2 ++ rs1 ++ funct3 ++ rd ++ opcode

/-- The R4 format (R76): `{rs3, 00, rs2, rs1, rm, rd, opcode}`. -/
def assembleR4 (rs3 rs2 rs1 : BitVec 5) (rm : BitVec 3) (rd : BitVec 5) (opcode : BitVec 7) : Word :=
  rs3 ++ 0b00#2 ++ rs2 ++ rs1 ++ rm ++ rd ++ opcode

/-- The CSR format (R77): `{csr, rs1, funct3, rd, opcode}`. -/
def assembleCsr (csr : BitVec 12) (rs1 : BitVec 5) (funct3 : BitVec 3) (rd : BitVec 5) (opcode : BitVec 7) :
    Word :=
  csr ++ rs1 ++ funct3 ++ rd ++ opcode

/-- The instruction word of an instruction, from the field columns of R66 and R75. -/
def encode : Instr → Word
  | .add rd rs1 rs2 => assembleR 0b0000000#7 rs2 rs1 0b000#3 rd 0b0110011#7
  | .sub rd rs1 rs2 => assembleR 0b0100000#7 rs2 rs1 0b000#3 rd 0b0110011#7
  | .sll rd rs1 rs2 => assembleR 0b0000000#7 rs2 rs1 0b001#3 rd 0b0110011#7
  | .slt rd rs1 rs2 => assembleR 0b0000000#7 rs2 rs1 0b010#3 rd 0b0110011#7
  | .sltu rd rs1 rs2 => assembleR 0b0000000#7 rs2 rs1 0b011#3 rd 0b0110011#7
  | .xor rd rs1 rs2 => assembleR 0b0000000#7 rs2 rs1 0b100#3 rd 0b0110011#7
  | .srl rd rs1 rs2 => assembleR 0b0000000#7 rs2 rs1 0b101#3 rd 0b0110011#7
  | .sra rd rs1 rs2 => assembleR 0b0100000#7 rs2 rs1 0b101#3 rd 0b0110011#7
  | .or rd rs1 rs2 => assembleR 0b0000000#7 rs2 rs1 0b110#3 rd 0b0110011#7
  | .and rd rs1 rs2 => assembleR 0b0000000#7 rs2 rs1 0b111#3 rd 0b0110011#7
  | .mul rd rs1 rs2 => assembleR 0b0000001#7 rs2 rs1 0b000#3 rd 0b0110011#7
  | .mulh rd rs1 rs2 => assembleR 0b0000001#7 rs2 rs1 0b001#3 rd 0b0110011#7
  | .mulhsu rd rs1 rs2 => assembleR 0b0000001#7 rs2 rs1 0b010#3 rd 0b0110011#7
  | .mulhu rd rs1 rs2 => assembleR 0b0000001#7 rs2 rs1 0b011#3 rd 0b0110011#7
  | .div rd rs1 rs2 => assembleR 0b0000001#7 rs2 rs1 0b100#3 rd 0b0110011#7
  | .divu rd rs1 rs2 => assembleR 0b0000001#7 rs2 rs1 0b101#3 rd 0b0110011#7
  | .rem rd rs1 rs2 => assembleR 0b0000001#7 rs2 rs1 0b110#3 rd 0b0110011#7
  | .remu rd rs1 rs2 => assembleR 0b0000001#7 rs2 rs1 0b111#3 rd 0b0110011#7
  | .fmwWX rd rs1 => assembleR 0b0101100#7 0b00000#5 rs1 0b010#3 rd 0b1010011#7
  | .fmwXW rd rs1 => assembleR 0b1110000#7 0b00000#5 rs1 0b000#3 rd 0b1010011#7
  | .fcvtSW rd rs1 rm => assembleR 0b1101000#7 0b00000#5 rs1 rm.bits rd 0b1010011#7
  | .fcvtSWu rd rs1 rm => assembleR 0b1101000#7 0b00001#5 rs1 rm.bits rd 0b1010011#7
  | .fmwWS rd rs1 rm => assembleR 0b1100000#7 0b00000#5 rs1 rm.bits rd 0b1010011#7
  | .fmwWuS rd rs1 rm => assembleR 0b1100000#7 0b00001#5 rs1 rm.bits rd 0b1010011#7
  | .faddS rd rs1 rs2 => assembleR 0b0000000#7 rs2 rs1 0b000#3 rd 0b1010011#7
  | .fsubS rd rs1 rs2 => assembleR 0b0000100#7 rs2 rs1 0b000#3 rd 0b1010011#7
  | .fmulS rd rs1 rs2 => assembleR 0b0001000#7 rs2 rs1 0b000#3 rd 0b1010011#7
  | .fdivS rd rs1 rs2 => assembleR 0b0001100#7 rs2 rs1 0b000#3 rd 0b1010011#7
  | .fsqrtS rd rs1 => assembleR 0b0101100#7 0b00000#5 rs1 0b000#3 rd 0b1010011#7
  | .fmaddS rd rs1 rs2 rs3 rm => assembleR4 rs3 rs2 rs1 rm.bits rd 0b1000011#7
  | .fmsubS rd rs1 rs2 rs3 rm => assembleR4 rs3 rs2 rs1 rm.bits rd 0b1000111#7
  | .fnmsubS rd rs1 rs2 rs3 rm => assembleR4 rs3 rs2 rs1 rm.bits rd 0b1001011#7
  | .fnmaddS rd rs1 rs2 rs3 rm => assembleR4 rs3 rs2 rs1 rm.bits rd 0b1001111#7
  | .fsgnjS rd rs1 rs2 => assembleR 0b0010000#7 rs2 rs1 0b000#3 rd 0b1010011#7
  | .fsgnjnS rd rs1 rs2 => assembleR 0b0010000#7 rs2 rs1 0b001#3 rd 0b1010011#7
  | .fsgnjxS rd rs1 rs2 => assembleR 0b0010000#7 rs2 rs1 0b010#3 rd 0b1010011#7
  | .fminS rd rs1 rs2 => assembleR 0b0010100#7 rs2 rs1 0b000#3 rd 0b1010011#7
  | .fmaxS rd rs1 rs2 => assembleR 0b0010100#7 rs2 rs1 0b001#3 rd 0b1010011#7
  | .feqS rd rs1 rs2 => assembleR 0b1010000#7 rs2 rs1 0b010#3 rd 0b1010011#7
  | .fltS rd rs1 rs2 => assembleR 0b1010000#7 rs2 rs1 0b001#3 rd 0b1010011#7
  | .fleS rd rs1 rs2 => assembleR 0b1010000#7 rs2 rs1 0b000#3 rd 0b1010011#7
  | .fclassS rd rs1 => assembleR 0b1110000#7 0b00000#5 rs1 0b001#3 rd 0b1010011#7
  | .frcsr rd => assembleCsr 0b000000000011#12 0b00000#5 0b010#3 rd 0b1110011#7
  | .frrm rd => assembleCsr 0b000000000010#12 0b00000#5 0b010#3 rd 0b1110011#7
  | .frflags rd => assembleCsr 0b000000000001#12 0b00000#5 0b010#3 rd 0b1110011#7
  | .fscsr rd rs1 => assembleCsr 0b000000000011#12 rs1 0b001#3 rd 0b1110011#7
  | .fsrm rd rs1 => assembleCsr 0b000000000010#12 rs1 0b001#3 rd 0b1110011#7
  | .fsflags rd rs1 => assembleCsr 0b000000000001#12 rs1 0b001#3 rd 0b1110011#7

/-- The bytes of an instruction as memory holds them, lowest address first (R42). -/
def encodeBytes (i : Instr) : List Byte :=
  [byteOfWord (encode i) 0, byteOfWord (encode i) 1, byteOfWord (encode i) 2, byteOfWord (encode i) 3]

end Sys2Proof
end

