-- ==== Sys2Proof/Machine/Ops.lean ====
section
/-! DEFINITION. The named operations over registers, the program counter and the program text: register
accessors (spec/10_state.md R20, R21, R25, R26, R28), the fetch (spec/20_memory.md R43, R44), the two faults
(spec/60_exceptions.md R200 to R207), the end of the run (spec/70_reset_and_hazards.md R245), and the loader's
placing of a word (R243). -/

namespace Sys2Proof.Machine

/-! ### Registers -/

/-- `x[r]`: `x[0]` reads as zero in every instruction (R21). -/
def State.readX (s : State) (r : XReg) : Word :=
  if r = 0#5 then 0#32 else s.x[r.toNat - 1]'(by have := r.isLt; omega)

/-- `x[r] <- v`: a write to `x[0]` is discarded (R21). -/
def State.writeX (s : State) (r : XReg) (v : Word) : State :=
  if r = 0#5 then s else { s with x := s.x.set (r.toNat - 1) v (by have := r.isLt; omega) }

/-- `f[r]`: none of the 32 is hardwired (R28). -/
def State.readF (s : State) (r : FReg) : Word := s.f[r.toNat]'(by have := r.isLt; omega)

/-- `f[r] <- v` (R28). -/
def State.writeF (s : State) (r : FReg) (v : Word) : State :=
  { s with f := s.f.set r.toNat v (by have := r.isLt; omega) }

/-- `pc <- trunc_32(unsigned(pc) + 4)`, the end of every instruction (R26). -/
def State.advance (s : State) : State := { s with pc := BitVec.ofNat 32 (s.pc.toNat + 4) }

/-! ### Taking an exception

A fault is the whole of exception entry: nothing is saved, no register is written, `pc` stays, no handler runs
and no step follows (R206, R207). There is no return from one (R208). -/

/-- `raise IllegalInstruction(insn)` (R202, R207). -/
def raiseIllegal (insn : Word) (s : State) : Host.Outcome State Fault Refusal :=
  .fault (.illegalInstruction insn s)

/-- `raise FetchFault(pc)` (R201, R207). -/
def raiseFetchFault (s : State) : Host.Outcome State Fault Refusal := .fault (.fetchFault s.pc s)

/-! ### The end of the run and the fetch -/

/-- The address just past the program text, modulo 2^32 (R201, R245). -/
def State.endOfText (s : State) : Nat := (s.params.programBase + s.params.programLen) % 2 ^ 32

/-- The run has ended normally: `pc` is the end of the program text (R245). -/
def State.atEnd (s : State) : Bool := s.pc.toNat == s.endOfText

/-- The admission test of a fetch at `pc` (R43). -/
def State.fetchAdmitted (s : State) : Bool :=
  s.pc.toNat % 4 == 0 && Nat.ble s.params.programBase s.pc.toNat &&
    Nat.ble (s.pc.toNat + 4) (s.params.programBase + s.params.programLen)

/-- The byte of the program text at an address. -/
def State.readByte (s : State) (a : Nat) : Byte := s.text.read a

/-- `MemRead(a, 4)`: the byte at `a` in bits 7:0 and so on (R42, R44). -/
def State.readWord (s : State) (a : Nat) : Word :=
  wordOfBytes (s.readByte a) (s.readByte (a + 1)) (s.readByte (a + 2)) (s.readByte (a + 3))

/-- `insn <- MemRead(pc, 4)` (R44). -/
def State.fetchWord (s : State) : Word := s.readWord s.pc.toNat

/-! ### The loader (R243) -/

/-- Places one instruction word at an address, in the byte order of R42. -/
def Memory.writeWord (m : Memory) (a : Nat) (w : Word) : Memory :=
  (((m.write a (byteOfWord w 0)).write (a + 1) (byteOfWord w 1)).write (a + 2) (byteOfWord w 2)).write (a + 3)
    (byteOfWord w 3)

/-- `pc` moved down to a multiple of 4: itself in every state of a run (R27). -/
def State.alignedPc (s : State) : Word := s.pc &&& 0xFFFFFFFC#32

/-- The parameters in force, but for the one admission (`ADMIT_GK_ROWS` or `FMW_W_X_POLICY`) that the row of the
word `w` needs and lacks (R65); unchanged where `w` is listed already, or in no setting. -/
def admitting (p : Params) (w : Word) : Params :=
  let gk := { p with admitGkRows := true }
  let fmw := { p with fmwPolicy := .source }
  if (decodeWord p w).isOk then p
  else if (decodeWord gk w).isOk then gk
  else if (decodeWord fmw w).isOk then fmw
  else p

/-- The state with a word placed where the next step fetches, and all that the fetch takes
(notes/assumptions/8.md): `pc` is a multiple of 4; the word's row is admitted; and where the fetch at `pc` would
not be admitted, or the parameters break their constraints, the program text is the four bytes at `pc` in place
of what it was. -/
def State.placeWord (s : State) (w : Word) : State :=
  let pc := s.alignedPc
  let p := admitting s.params w
  let t : State := { s with pc := pc, params := p }
  if decide p.legal && t.fetchAdmitted then
    { t with text := t.text.writeWord pc.toNat w }
  else
    { t with
      params := { p with
        programBase := pc.toNat, programLen := 4, resetPc := p.resetPc &&& 0xFFFFFFFC#32 }
      text := Memory.writeWord [] pc.toNat w }

end Sys2Proof.Machine
end

