-- ==== Sys2Proof/Machine/Operands.lean ====
section
/-! DEFINITION. The operand forms: which registers an instruction reads and writes, and the frames its rule puts
around its operation (spec/10_state.md R24; spec/40_rv32i_regreg.md R99; spec/42_rv32f_move_convert_arith.md R137,
R155). Every read is of the state before the instruction (spec/00_scope.md R12). -/

namespace Sys2Proof.Machine

/-- The rounding mode a 3-bit code names, if it names one (R32, R78). -/
def modeOfBits (b : BitVec 3) : Option RoundingMode :=
  match b.toNat with
  | 0 => some .rne
  | 1 => some .rtz
  | 2 => some .rdn
  | 3 => some .rup
  | 4 => some .rmm
  | _ => none

/-- `resolve(rm)` of R155, given the value of `frm` before the instruction: the static mode, or the mode `frm`
holds; nothing where the mode is reserved. -/
def resolve (rm : Rm) (frm : BitVec 3) : Option RoundingMode :=
  match rm with
  | .rne => some .rne
  | .rtz => some .rtz
  | .rdn => some .rdn
  | .rup => some .rup
  | .rmm => some .rmm
  | .reserved5 => none
  | .reserved6 => none
  | .dyn => modeOfBits frm

/-- The frame of the RV32I and RV32M rows (R99, R119): both sources are read, the result is written, `pc`
advances; no flag, no fault. -/
def execIntOp (op : Word → Word → Word) (rd rs1 rs2 : XReg) (s : State) : Host.Outcome State Fault Refusal :=
  .next (s.writeX rd (op (s.readX rs1) (s.readX rs2))).advance

/-- The end of an instruction with a floating-point destination: the result is written, the flags accrue, `pc`
advances (R137). -/
def finishF (rd : FReg) (r : FpResult) (s : State) : Host.Outcome State Fault Refusal :=
  .next ((s.writeF rd r.bits).accrue r.flags).advance

/-- The end of a floating-point instruction with an integer destination: with `rd` = 0 the result is discarded and
the flags still accrue (R21, R137). -/
def finishX (rd : XReg) (r : FpResult) (s : State) : Host.Outcome State Fault Refusal :=
  .next ((s.writeX rd r.bits).accrue r.flags).advance

/-- The frame of the two-operand instructions from the floating-point file to itself (R137). -/
def execFpOp (op : Word → Word → FpResult) (rd rs1 rs2 : FReg) (s : State) : Host.Outcome State Fault Refusal :=
  finishF rd (op (s.readF rs1) (s.readF rs2)) s

/-- The frame of the comparisons: two floating-point sources, an integer destination (R24, R165 to R167). -/
def execFpCompare (op : Word → Word → FpResult) (rd : XReg) (rs1 rs2 : FReg) (s : State) :
    Host.Outcome State Fault Refusal :=
  finishX rd (op (s.readF rs1) (s.readF rs2)) s

/-- The frame of the sign injections: bits only, no flag, `fcsr` untouched (R160 to R162). -/
def execBitsF (rd : FReg) (bits : Word) (s : State) : Host.Outcome State Fault Refusal :=
  .next (s.writeF rd bits).advance

/-- A write of an integer register that touches no flag, then the advance (R141, R168 to R171). -/
def execBitsX (rd : XReg) (bits : Word) (s : State) : Host.Outcome State Fault Refusal :=
  .next (s.writeX rd bits).advance

/-- The frame of the eight instructions with an `rm` field (R78, R155): a reserved rounding mode raises
`IllegalInstruction(insn)` and nothing is written; else the instruction goes on with the mode. `insn` is the
instruction's own word (notes/assumptions/11.md). -/
def withMode (i : Instr) (rm : Rm) (s : State) (run : RoundingMode → Host.Outcome State Fault Refusal) :
    Host.Outcome State Fault Refusal :=
  match resolve rm s.frm with
  | some mode => run mode
  | none => raiseIllegal (encode i) s

end Sys2Proof.Machine
end

