-- ==== Sys2Proof/Machine/FloatArith.lean ====
section
/-! DEFINITION. The Tier S arithmetic, which rounds to nearest, ties to even, always and never reads `frm`
(spec/42_rv32f_move_convert_arith.md R146 to R150), and the Tier G fused multiply-add (R151 to R154). -/

namespace Sys2Proof.Machine

/-- `fadd.s` (R146). -/
def execFaddS (rd rs1 rs2 : FReg) (s : State) : Host.Outcome State Fault Refusal :=
  execFpOp (fun a b => fpAdd a b .rne) rd rs1 rs2 s

/-- `fsub.s`: `f[rs1]` minus `f[rs2]` (R147). -/
def execFsubS (rd rs1 rs2 : FReg) (s : State) : Host.Outcome State Fault Refusal :=
  execFpOp (fun a b => fpSub a b .rne) rd rs1 rs2 s

/-- `fmul.s` (R148). -/
def execFmulS (rd rs1 rs2 : FReg) (s : State) : Host.Outcome State Fault Refusal :=
  execFpOp (fun a b => fpMul a b .rne) rd rs1 rs2 s

/-- `fdiv.s`: `f[rs1]` divided by `f[rs2]` (R149). -/
def execFdivS (rd rs1 rs2 : FReg) (s : State) : Host.Outcome State Fault Refusal :=
  execFpOp (fun a b => fpDiv a b .rne) rd rs1 rs2 s

/-- `fsqrt.s` (R150). -/
def execFsqrtS (rd rs1 : FReg) (s : State) : Host.Outcome State Fault Refusal :=
  finishF rd (fpSqrt (s.readF rs1)) s

/-- `fmadd.s`: `(f[rs1] * f[rs2]) + f[rs3]` (R151). -/
def execFmaddS (rd rs1 rs2 rs3 : FReg) (rm : Rm) (s : State) : Host.Outcome State Fault Refusal :=
  withMode (.fmaddS rd rs1 rs2 rs3 rm) rm s fun mode =>
    finishF rd (fpFma (s.readF rs1) (s.readF rs2) (s.readF rs3) mode false false) s

/-- `fmsub.s`: `(f[rs1] * f[rs2]) - f[rs3]` (R152). -/
def execFmsubS (rd rs1 rs2 rs3 : FReg) (rm : Rm) (s : State) : Host.Outcome State Fault Refusal :=
  withMode (.fmsubS rd rs1 rs2 rs3 rm) rm s fun mode =>
    finishF rd (fpFma (s.readF rs1) (s.readF rs2) (s.readF rs3) mode false true) s

/-- `fnmsub.s`: `-(f[rs1] * f[rs2]) + f[rs3]` (R153). -/
def execFnmsubS (rd rs1 rs2 rs3 : FReg) (rm : Rm) (s : State) : Host.Outcome State Fault Refusal :=
  withMode (.fnmsubS rd rs1 rs2 rs3 rm) rm s fun mode =>
    finishF rd (fpFma (s.readF rs1) (s.readF rs2) (s.readF rs3) mode true false) s

/-- `fnmadd.s`: `-(f[rs1] * f[rs2]) - f[rs3]` (R154). -/
def execFnmaddS (rd rs1 rs2 rs3 : FReg) (rm : Rm) (s : State) : Host.Outcome State Fault Refusal :=
  withMode (.fnmaddS rd rs1 rs2 rs3 rm) rm s fun mode =>
    finishF rd (fpFma (s.readF rs1) (s.readF rs2) (s.readF rs3) mode true true) s

end Sys2Proof.Machine
end

