-- ==== Sys2Proof/Machine/FloatBits.lean ====
section
/-! DEFINITION. Sign injection, minimum and maximum, comparisons and classify
(spec/43_rv32f_sign_minmax_compare_csr.md R160 to R168). -/

namespace Sys2Proof.Machine

/-- `fsgnj.s`: the sign of `f[rs2]`, everything else of `f[rs1]` (R160). -/
def execFsgnjS (rd rs1 rs2 : FReg) (s : State) : Host.Outcome State Fault Refusal :=
  execBitsF rd (withSign (fpSign (s.readF rs2)) (s.readF rs1)) s

/-- `fsgnjn.s`: the opposite of the sign of `f[rs2]` (R161). -/
def execFsgnjnS (rd rs1 rs2 : FReg) (s : State) : Host.Outcome State Fault Refusal :=
  execBitsF rd (withSign (!fpSign (s.readF rs2)) (s.readF rs1)) s

/-- `fsgnjx.s`: the exclusive or of the two signs (R162). -/
def execFsgnjxS (rd rs1 rs2 : FReg) (s : State) : Host.Outcome State Fault Refusal :=
  execBitsF rd (withSign (fpSign (s.readF rs1) ^^ fpSign (s.readF rs2)) (s.readF rs1)) s

/-- `fmin.s` (R163). -/
def execFminS (rd rs1 rs2 : FReg) (s : State) : Host.Outcome State Fault Refusal :=
  execFpOp (fun a b => fpMinMax a b false) rd rs1 rs2 s

/-- `fmax.s` (R164). -/
def execFmaxS (rd rs1 rs2 : FReg) (s : State) : Host.Outcome State Fault Refusal :=
  execFpOp (fun a b => fpMinMax a b true) rd rs1 rs2 s

/-- `feq.s` (R165). -/
def execFeqS (rd : XReg) (rs1 rs2 : FReg) (s : State) : Host.Outcome State Fault Refusal :=
  execFpCompare fpEq rd rs1 rs2 s

/-- `flt.s` (R166). -/
def execFltS (rd : XReg) (rs1 rs2 : FReg) (s : State) : Host.Outcome State Fault Refusal :=
  execFpCompare fpLt rd rs1 rs2 s

/-- `fle.s` (R167). -/
def execFleS (rd : XReg) (rs1 rs2 : FReg) (s : State) : Host.Outcome State Fault Refusal :=
  execFpCompare fpLe rd rs1 rs2 s

/-- `fclass.s`: `1 << classIndex(f[rs1])`, no flag (R168). -/
def execFclassS (rd : XReg) (rs1 : FReg) (s : State) : Host.Outcome State Fault Refusal :=
  execBitsX rd (1#32 <<< classIndex (fpClass (s.readF rs1))) s

end Sys2Proof.Machine
end

