-- ==== Sys2Proof/Machine/FloatCsr.lean ====
section
/-! DEFINITION. Access to the floating-point control and status register
(spec/43_rv32f_sign_minmax_compare_csr.md R169 to R174; spec/10_state.md R30, R33). A read is zero-extended; a
write takes the low bits of `x[rs1]`, read before `rd` is written (spec/00_scope.md R12). -/

namespace Sys2Proof.Machine

/-- `frcsr`: reads `fcsr` (R169). -/
def execFrcsr (rd : XReg) (s : State) : Host.Outcome State Fault Refusal :=
  execBitsX rd (s.fcsr.setWidth 32) s

/-- `frrm`: reads `frm`, right-justified (R170). -/
def execFrrm (rd : XReg) (s : State) : Host.Outcome State Fault Refusal :=
  execBitsX rd (s.frm.setWidth 32) s

/-- `frflags`: reads `fflags` (R171). -/
def execFrflags (rd : XReg) (s : State) : Host.Outcome State Fault Refusal :=
  execBitsX rd (s.fflags.setWidth 32) s

/-- `fscsr`: swaps `fcsr` with an integer register (R172). -/
def execFscsr (rd rs1 : XReg) (s : State) : Host.Outcome State Fault Refusal :=
  .next ((s.writeFcsr ((s.readX rs1).extractLsb' 0 8)).writeX rd (s.fcsr.setWidth 32)).advance

/-- `fsrm`: swaps `frm`; `fflags` is unchanged (R173). -/
def execFsrm (rd rs1 : XReg) (s : State) : Host.Outcome State Fault Refusal :=
  .next ((s.writeFrm ((s.readX rs1).extractLsb' 0 3)).writeX rd (s.frm.setWidth 32)).advance

/-- `fsflags`: swaps `fflags`; `frm` is unchanged (R174). -/
def execFsflags (rd rs1 : XReg) (s : State) : Host.Outcome State Fault Refusal :=
  .next ((s.writeFflags ((s.readX rs1).extractLsb' 0 5)).writeX rd (s.fflags.setWidth 32)).advance

end Sys2Proof.Machine
end

