-- ==== Sys2Proof/Machine/FloatMove.lean ====
section
/-! DEFINITION. The moves between the register files and the conversions
(spec/42_rv32f_move_convert_arith.md R140 to R145). -/

namespace Sys2Proof.Machine

/-- `fmw.w.x`: the 32 bits of `x[rs1]`, unchanged, no flag (R140). -/
def execFmwWX (rd : FReg) (rs1 : XReg) (s : State) : Host.Outcome State Fault Refusal :=
  execBitsF rd (s.readX rs1) s

/-- `fmw.x.w`: the 32 bits of `f[rs1]`, unchanged, no flag (R141). -/
def execFmwXW (rd : XReg) (rs1 : FReg) (s : State) : Host.Outcome State Fault Refusal :=
  execBitsX rd (s.readF rs1) s

/-- `fcvt.s.w`: a signed 32-bit integer to binary32 (R142). -/
def execFcvtSW (rd : FReg) (rs1 : XReg) (rm : Rm) (s : State) : Host.Outcome State Fault Refusal :=
  withMode (.fcvtSW rd rs1 rm) rm s fun mode => finishF rd (fpOfInt mode (s.readX rs1).toInt) s

/-- `fcvt.s.wu`: an unsigned 32-bit integer to binary32 (R143). -/
def execFcvtSWu (rd : FReg) (rs1 : XReg) (rm : Rm) (s : State) : Host.Outcome State Fault Refusal :=
  withMode (.fcvtSWu rd rs1 rm) rm s fun mode => finishF rd (fpOfInt mode ((s.readX rs1).toNat : Int)) s

/-- `fmw.w.s`: binary32 to a signed 32-bit integer (R144). -/
def execFmwWS (rd : XReg) (rs1 : FReg) (rm : Rm) (s : State) : Host.Outcome State Fault Refusal :=
  withMode (.fmwWS rd rs1 rm) rm s fun mode =>
    finishX rd (fpToInt (-2 ^ 31) (2 ^ 31 - 1) mode (s.readF rs1)) s

/-- `fmw.wu.s`: binary32 to an unsigned 32-bit integer (R145). -/
def execFmwWuS (rd : XReg) (rs1 : FReg) (rm : Rm) (s : State) : Host.Outcome State Fault Refusal :=
  withMode (.fmwWuS rd rs1 rm) rm s fun mode => finishX rd (fpToInt 0 (2 ^ 32 - 1) mode (s.readF rs1)) s

end Sys2Proof.Machine
end

