-- ==== Sys2Proof/Machine/IntReg.lean ====
section
/-! DEFINITION. The ten RV32I register-register instructions (spec/40_rv32i_regreg.md R99 to R110). -/

namespace Sys2Proof.Machine

/-- The shift amount: the low five bits of the second source, 0 to 31 (R102, R106, R107, R110). -/
def shiftAmount (b : Word) : Nat := (b.extractLsb' 0 5).toNat

/-- `add`: wraps modulo `2^32` (R100). -/
def execAdd (rd rs1 rs2 : XReg) (s : State) : Host.Outcome State Fault Refusal :=
  execIntOp (fun a b => a + b) rd rs1 rs2 s

/-- `sub`: `x[rs1]` minus `x[rs2]`, wraps modulo `2^32` (R101). -/
def execSub (rd rs1 rs2 : XReg) (s : State) : Host.Outcome State Fault Refusal :=
  execIntOp (fun a b => a - b) rd rs1 rs2 s

/-- `sll`: zeros enter at bit 0 (R102). -/
def execSll (rd rs1 rs2 : XReg) (s : State) : Host.Outcome State Fault Refusal :=
  execIntOp (fun a b => a <<< shiftAmount b) rd rs1 rs2 s

/-- `slt`: signed comparison, result 1 or 0 (R103). -/
def execSlt (rd rs1 rs2 : XReg) (s : State) : Host.Outcome State Fault Refusal :=
  execIntOp (fun a b => boolWord (decide (a.toInt < b.toInt))) rd rs1 rs2 s

/-- `sltu`: unsigned comparison, result 1 or 0 (R104). -/
def execSltu (rd rs1 rs2 : XReg) (s : State) : Host.Outcome State Fault Refusal :=
  execIntOp (fun a b => boolWord (decide (a.toNat < b.toNat))) rd rs1 rs2 s

/-- `xor` (R105). -/
def execXor (rd rs1 rs2 : XReg) (s : State) : Host.Outcome State Fault Refusal :=
  execIntOp (fun a b => a ^^^ b) rd rs1 rs2 s

/-- `srl`: zeros enter at bit 31 (R106). -/
def execSrl (rd rs1 rs2 : XReg) (s : State) : Host.Outcome State Fault Refusal :=
  execIntOp (fun a b => a >>> shiftAmount b) rd rs1 rs2 s

/-- `sra`: copies of the old bit 31 enter at bit 31 (R107). -/
def execSra (rd rs1 rs2 : XReg) (s : State) : Host.Outcome State Fault Refusal :=
  execIntOp (fun a b => a.sshiftRight (shiftAmount b)) rd rs1 rs2 s

/-- `or` (R108). -/
def execOr (rd rs1 rs2 : XReg) (s : State) : Host.Outcome State Fault Refusal :=
  execIntOp (fun a b => a ||| b) rd rs1 rs2 s

/-- `and` (R109). -/
def execAnd (rd rs1 rs2 : XReg) (s : State) : Host.Outcome State Fault Refusal :=
  execIntOp (fun a b => a &&& b) rd rs1 rs2 s

end Sys2Proof.Machine
end

