-- ==== Sys2Proof/Machine/MulDiv.lean ====
section
/-! DEFINITION. The eight RV32M instructions (spec/41_rv32m_muldiv.md R119 to R128): each computes exactly over the
integers and keeps 32 bits; none traps, division by zero and signed overflow included. -/

namespace Sys2Proof.Machine

/-- Bits 63:32 of a product: `trunc_32(floor(p / 2^32))` (R121 to R123). -/
def highWord (p : Int) : Word := BitVec.ofInt 32 (p / 2 ^ 32)

/-- The signed quotient, rounding toward zero (R124). -/
def divSigned (a b : Word) : Word :=
  if b = 0x00000000#32 then 0xFFFFFFFF#32
  else if a = 0x80000000#32 ∧ b = 0xFFFFFFFF#32 then 0x80000000#32
  else BitVec.ofInt 32 (Int.tdiv a.toInt b.toInt)

/-- The unsigned quotient (R125). -/
def divUnsigned (a b : Word) : Word :=
  if b = 0x00000000#32 then 0xFFFFFFFF#32 else BitVec.ofNat 32 (a.toNat / b.toNat)

/-- The signed remainder, with the sign of the dividend (R126). -/
def remSigned (a b : Word) : Word :=
  if b = 0x00000000#32 then a
  else if a = 0x80000000#32 ∧ b = 0xFFFFFFFF#32 then 0x00000000#32
  else BitVec.ofInt 32 (Int.tmod a.toInt b.toInt)

/-- The unsigned remainder (R127). -/
def remUnsigned (a b : Word) : Word :=
  if b = 0x00000000#32 then a else BitVec.ofNat 32 (a.toNat % b.toNat)

/-- `mul`: the low 32 bits of the product (R120). -/
def execMul (rd rs1 rs2 : XReg) (s : State) : Host.Outcome State Fault Refusal :=
  execIntOp (fun a b => BitVec.ofNat 32 (a.toNat * b.toNat)) rd rs1 rs2 s

/-- `mulh`: the high word of signed times signed (R121). -/
def execMulh (rd rs1 rs2 : XReg) (s : State) : Host.Outcome State Fault Refusal :=
  execIntOp (fun a b => highWord (a.toInt * b.toInt)) rd rs1 rs2 s

/-- `mulhsu`: the high word of `x[rs1]` signed times `x[rs2]` unsigned (R122). -/
def execMulhsu (rd rs1 rs2 : XReg) (s : State) : Host.Outcome State Fault Refusal :=
  execIntOp (fun a b => highWord (a.toInt * (b.toNat : Int))) rd rs1 rs2 s

/-- `mulhu`: the high word of unsigned times unsigned (R123). -/
def execMulhu (rd rs1 rs2 : XReg) (s : State) : Host.Outcome State Fault Refusal :=
  execIntOp (fun a b => highWord ((a.toNat : Int) * (b.toNat : Int))) rd rs1 rs2 s

/-- `div` (R124). -/
def execDiv (rd rs1 rs2 : XReg) (s : State) : Host.Outcome State Fault Refusal :=
  execIntOp divSigned rd rs1 rs2 s

/-- `divu` (R125). -/
def execDivu (rd rs1 rs2 : XReg) (s : State) : Host.Outcome State Fault Refusal :=
  execIntOp divUnsigned rd rs1 rs2 s

/-- `rem` (R126). -/
def execRem (rd rs1 rs2 : XReg) (s : State) : Host.Outcome State Fault Refusal :=
  execIntOp remSigned rd rs1 rs2 s

/-- `remu` (R127). -/
def execRemu (rd rs1 rs2 : XReg) (s : State) : Host.Outcome State Fault Refusal :=
  execIntOp remUnsigned rd rs1 rs2 s

end Sys2Proof.Machine
end

