-- ==== Sys2Proof/Machine/Step.lean ====
section
/-! DEFINITION. One step of the machine: the instruction cycle of spec/00_scope.md R10 with the checks in the order of
spec/60_exceptions.md R205; and the loader's placing of one instruction where the next step fetches. -/

namespace Sys2Proof.Machine

/-- One step: (0) parameters that break their constraints are refused (spec/93_implementation_defined.md U8);
(1) end of run: no step (R245); (2) fetch admission (R43, R201); (3) decode (R65, R202); (4), (5) execution, with
the rounding-mode check of R78 in the meanings that have an `rm` field (R205). -/
def step (s : State) : Host.Outcome State Fault Refusal :=
  if ¬ s.params.legal then .refused .illegalParameters
  else if s.atEnd then .refused .runFinal
  else if s.fetchAdmitted then
    match decodeWord s.params s.fetchWord with
    | .ok i => exec i s
    | .error _ => raiseIllegal s.fetchWord s
  else raiseFetchFault s

/-- The instruction whose bits are `w`, numbered as spec/opcode_table.json numbers them, stored where the next step
fetches, with all that the fetch takes (notes/assumptions/8.md). -/
def State.withFetchWord (s : State) (nbits w : Nat) : State := s.placeWord (tableWord nbits w)

end Sys2Proof.Machine
end

