-- ==== Sys2Proof/Safety.lean ====
section
/-! DEFINITION. The terms claims use: which states a run can be in, what an instruction leaves unchanged, and the
arithmetic of the spec over the rational numbers, written from its rules and not from the functions of the machine. -/

namespace Sys2Proof.Machine

/-! ### States of a run -/

/-- A state a run can be in: the parameters obey their constraints (R36, R41); `pc` is a multiple of 4 (R27); the text
is in canonical form and lists nothing outside `PROGRAM_BASE` to `PROGRAM_BASE + PROGRAM_LEN - 1` (R41). -/
abbrev State.legal (s : State) : Prop :=
  s.params.legal ∧ s.pc.toNat % 4 = 0 ∧ s.text.wf ∧
    ∀ c ∈ s.text, s.params.programBase ≤ c.1 ∧ c.1 < s.params.programBase + s.params.programLen

/-- The address just past the program text, modulo `2^32` (R201). -/
def textEnd (p : Params) : Nat := (p.programBase + p.programLen) % 2 ^ 32

/-- The run has ended normally: the state is final (R245). -/
abbrev State.final (s : State) : Prop := s.params.legal ∧ s.pc.toNat = textEnd s.params

/-- The fetch at `pc` is admitted (R43). -/
abbrev Fetchable (s : State) : Prop :=
  s.pc.toNat % 4 = 0 ∧ s.params.programBase ≤ s.pc.toNat ∧
    s.pc.toNat + 4 ≤ s.params.programBase + s.params.programLen

/-- A step runs an instruction: the parameters are legal, the run has not ended, the fetch is admitted and its word
decodes to `i` (R10, R205). -/
abbrev Runs (s : State) (i : Instr) : Prop :=
  s.params.legal ∧ s.pc.toNat ≠ textEnd s.params ∧ Fetchable s ∧ decodeWord s.params s.fetchWord = .ok i

/-! ### What an instruction writes and what it leaves -/

/-- Everything but the two register files: the flags of `fl` are set and no other bit of `fcsr` changes, `pc` moves to
the next instruction (R26), and no byte of memory and no parameter changes (R37, R52). -/
def KeepsRest (s : State) (fl : Flags) (t : State) : Prop :=
  t.fflags = s.fflags ||| fl ∧ t.frm = s.frm ∧ t.pc = s.pc + 4#32 ∧ t.params = s.params ∧
    ∀ a, t.readByte a = s.readByte a

/-- `t` is `s` with `v` in `x[rd]` (nothing written if `rd` is 0: `x[0]` stays zero, R21), the flags `fl` accrued, and
`pc` at the next instruction. -/
def WritesX (s : State) (rd : XReg) (v : Word) (fl : Flags) (t : State) : Prop :=
  (∀ q, t.readX q = if q = 0#5 then 0#32 else if q = rd then v else s.readX q) ∧
    (∀ q, t.readF q = s.readF q) ∧ KeepsRest s fl t

/-- `t` is `s` with `v` in `f[rd]`, the flags `fl` accrued, and `pc` at the next instruction. -/
def WritesF (s : State) (rd : FReg) (v : Word) (fl : Flags) (t : State) : Prop :=
  (∀ q, t.readX q = s.readX q) ∧ (∀ q, t.readF q = if q = rd then v else s.readF q) ∧ KeepsRest s fl t

/-- The instruction completes, writing `v` to `x[rd]` and accruing `fl`. -/
def CompletesX (i : Instr) (s : State) (rd : XReg) (v : Word) (fl : Flags) : Prop :=
  ∃ t, exec i s = .next t ∧ WritesX s rd v fl t

/-- The instruction completes, writing `v` to `f[rd]` and accruing `fl`. -/
def CompletesF (i : Instr) (s : State) (rd : FReg) (v : Word) (fl : Flags) : Prop :=
  ∃ t, exec i s = .next t ∧ WritesF s rd v fl t

/-- The instruction completes with `x[rd]` = `old` and `fcsr[7:0]` = `new`, and nothing else changed but `pc` (R172 to
R174). -/
def SwapsFcsr (i : Instr) (s : State) (rd : XReg) (old : Word) (new : BitVec 8) : Prop :=
  ∃ t, exec i s = .next t ∧ (∀ q, t.readX q = if q = 0#5 then 0#32 else if q = rd then old else s.readX q) ∧
    (∀ q, t.readF q = s.readF q) ∧ t.fcsr = new ∧ t.pc = s.pc + 4#32 ∧ t.params = s.params ∧
    ∀ a, t.readByte a = s.readByte a

/-- A row of the opcode table: an admitted word is this instruction, with the operands `of` extracts, if and only if
`w & mask = match` (R65, R66). -/
def RowDecodes (m : Mnemonic) (bits mask : Word) (of : Word → Instr) : Prop :=
  ∀ (p : Params) (w : Word),
    (m.admitted p = true → w &&& mask = bits → decodeWord p w = .ok (of w)) ∧
      ∀ i, decodeWord p w = .ok i → i.mnemonic = m → w &&& mask = bits ∧ i = of w

/-- The operands `rd`, `rs1`, `rs2` at bits 11:7, 19:15, 24:20 (R61, R62). -/
def fromRdRs1Rs2 (mk : BitVec 5 → BitVec 5 → BitVec 5 → Instr) (w : Word) : Instr :=
  mk (w.extractLsb' 7 5) (w.extractLsb' 15 5) (w.extractLsb' 20 5)

/-- The operands `rd`, `rs1` (R61, R62). -/
def fromRdRs1 (mk : BitVec 5 → BitVec 5 → Instr) (w : Word) : Instr := mk (w.extractLsb' 7 5) (w.extractLsb' 15 5)

/-- The operand `rd` alone (R77). -/
def fromRd (mk : BitVec 5 → Instr) (w : Word) : Instr := mk (w.extractLsb' 7 5)

/-- The operands `rd`, `rs1` and the field `rm` at bits 14:12 (R78). -/
def fromRdRs1Rm (mk : BitVec 5 → BitVec 5 → Rm → Instr) (w : Word) : Instr :=
  mk (w.extractLsb' 7 5) (w.extractLsb' 15 5) (.ofBits (w.extractLsb' 12 3))

/-- The operands of the R4 format: `rd`, `rs1`, `rs2`, `rs3` at bits 31:27, and `rm` (R76, R78). -/
def fromR4 (mk : BitVec 5 → BitVec 5 → BitVec 5 → BitVec 5 → Rm → Instr) (w : Word) : Instr :=
  mk (w.extractLsb' 7 5) (w.extractLsb' 15 5) (w.extractLsb' 20 5) (w.extractLsb' 27 5)
    (.ofBits (w.extractLsb' 12 3))

/-- The register an instruction writes, and its file (R24). -/
inductive Dest where
  | x (r : XReg)
  | f (r : FReg)
deriving DecidableEq, Repr

/-- The columns "rd" and "also writes" of the table of R24: the destination, and whether the instruction may change
`fflags`, and whether it may change all of `fcsr`. -/
structure Writes where
  dest : Dest
  flags : Bool
  fcsr : Bool
deriving DecidableEq, Repr

/-- The table of R24, writes only. -/
def writesOf : Instr → Writes
  | .add rd _ _ | .sub rd _ _ | .sll rd _ _ | .slt rd _ _ | .sltu rd _ _ | .xor rd _ _ | .srl rd _ _
  | .sra rd _ _ | .or rd _ _ | .and rd _ _ => ⟨.x rd, false, false⟩
  | .mul rd _ _ | .mulh rd _ _ | .mulhsu rd _ _ | .mulhu rd _ _ | .div rd _ _ | .divu rd _ _ | .rem rd _ _
  | .remu rd _ _ => ⟨.x rd, false, false⟩
  | .fmwWX rd _ => ⟨.f rd, false, false⟩
  | .faddS rd _ _ | .fsubS rd _ _ | .fmulS rd _ _ | .fdivS rd _ _ | .fsqrtS rd _ => ⟨.f rd, true, false⟩
  | .fsgnjS rd _ _ | .fsgnjnS rd _ _ | .fsgnjxS rd _ _ => ⟨.f rd, false, false⟩
  | .fminS rd _ _ | .fmaxS rd _ _ => ⟨.f rd, true, false⟩
  | .fmwXW rd _ => ⟨.x rd, false, false⟩
  | .fcvtSW rd _ _ | .fcvtSWu rd _ _ => ⟨.f rd, true, false⟩
  | .fmwWS rd _ _ | .fmwWuS rd _ _ => ⟨.x rd, true, false⟩
  | .fmaddS rd _ _ _ _ | .fmsubS rd _ _ _ _ | .fnmsubS rd _ _ _ _ | .fnmaddS rd _ _ _ _ => ⟨.f rd, true, false⟩
  | .feqS rd _ _ | .fltS rd _ _ | .fleS rd _ _ => ⟨.x rd, true, false⟩
  | .fclassS rd _ => ⟨.x rd, false, false⟩
  | .frcsr rd | .frrm rd | .frflags rd => ⟨.x rd, false, false⟩
  | .fscsr rd _ | .fsrm rd _ | .fsflags rd _ => ⟨.x rd, true, true⟩

/-- The columns "rs1", "rs2", "rs3" and "also reads" of the table of R24: the source registers of each file, and
whether the instruction reads `fcsr` (`frm` where its `rm` field is `111`). -/
structure Reads where
  x : List XReg
  f : List FReg
  fcsr : Bool
deriving DecidableEq, Repr

/-- The table of R24, reads only. -/
def readsOf : Instr → Reads
  | .add _ a b | .sub _ a b | .sll _ a b | .slt _ a b | .sltu _ a b | .xor _ a b | .srl _ a b | .sra _ a b
  | .or _ a b | .and _ a b => ⟨[a, b], [], false⟩
  | .mul _ a b | .mulh _ a b | .mulhsu _ a b | .mulhu _ a b | .div _ a b | .divu _ a b | .rem _ a b
  | .remu _ a b => ⟨[a, b], [], false⟩
  | .fmwWX _ a => ⟨[a], [], false⟩
  | .faddS _ a b | .fsubS _ a b | .fmulS _ a b | .fdivS _ a b => ⟨[], [a, b], false⟩
  | .fsqrtS _ a => ⟨[], [a], false⟩
  | .fsgnjS _ a b | .fsgnjnS _ a b | .fsgnjxS _ a b | .fminS _ a b | .fmaxS _ a b => ⟨[], [a, b], false⟩
  | .fmwXW _ a => ⟨[], [a], false⟩
  | .fcvtSW _ a rm | .fcvtSWu _ a rm => ⟨[a], [], rm == .dyn⟩
  | .fmwWS _ a rm | .fmwWuS _ a rm => ⟨[], [a], rm == .dyn⟩
  | .fmaddS _ a b c rm | .fmsubS _ a b c rm | .fnmsubS _ a b c rm | .fnmaddS _ a b c rm =>
    ⟨[], [a, b, c], rm == .dyn⟩
  | .feqS _ a b | .fltS _ a b | .fleS _ a b => ⟨[], [a, b], false⟩
  | .fclassS _ a => ⟨[], [a], false⟩
  | .frcsr _ | .frrm _ | .frflags _ => ⟨[], [], true⟩
  | .fscsr _ a | .fsrm _ a | .fsflags _ a => ⟨[a], [], true⟩

/-- Two states agree on everything an instruction reads. -/
def AgreeOn (r : Reads) (s t : State) : Prop :=
  (∀ q ∈ r.x, s.readX q = t.readX q) ∧ (∀ q ∈ r.f, s.readF q = t.readF q) ∧ (r.fcsr = true → s.fcsr = t.fcsr)

/-- What a register of either file holds. -/
def State.readDest (s : State) : Dest → Word
  | .x r => s.readX r
  | .f r => s.readF r

/-- The `rm` field of the eight instructions that have one (R78). -/
def rmOf : Instr → Option Rm
  | .fcvtSW _ _ rm | .fcvtSWu _ _ rm | .fmwWS _ _ rm | .fmwWuS _ _ rm => some rm
  | .fmaddS _ _ _ _ rm | .fmsubS _ _ _ _ rm | .fnmsubS _ _ _ _ rm | .fnmaddS _ _ _ _ rm => some rm
  | .add _ _ _ | .sub _ _ _ | .sll _ _ _ | .slt _ _ _ | .sltu _ _ _ | .xor _ _ _ | .srl _ _ _ | .sra _ _ _
  | .or _ _ _ | .and _ _ _ | .mul _ _ _ | .mulh _ _ _ | .mulhsu _ _ _ | .mulhu _ _ _ | .div _ _ _ | .divu _ _ _
  | .rem _ _ _ | .remu _ _ _ | .fmwWX _ _ | .fmwXW _ _ | .faddS _ _ _ | .fsubS _ _ _ | .fmulS _ _ _
  | .fdivS _ _ _ | .fsqrtS _ _ | .fsgnjS _ _ _ | .fsgnjnS _ _ _ | .fsgnjxS _ _ _ | .fminS _ _ _ | .fmaxS _ _ _
  | .feqS _ _ _ | .fltS _ _ _ | .fleS _ _ _ | .fclassS _ _ | .frcsr _ | .frrm _ | .frflags _ | .fscsr _ _
  | .fsrm _ _ | .fsflags _ _ => none

/-- The code of a rounding mode (R32). -/
def modeCode : RoundingMode → BitVec 3
  | .rne => 0b000#3
  | .rtz => 0b001#3
  | .rdn => 0b010#3
  | .rup => 0b011#3
  | .rmm => 0b100#3

/-- The `rm` field selects a mode: it is the mode's code, or it is `111` and `frm` holds the mode's code (R78, R155). -/
def Selects (rm : Rm) (frm : BitVec 3) (mode : RoundingMode) : Prop :=
  rm.bits = modeCode mode ∨ rm.bits = 0b111#3 ∧ frm = modeCode mode

/-- The instruction's rounding mode is reserved: its `rm` field selects no mode (R78, R155). -/
def ReservedMode (i : Instr) (frm : BitVec 3) : Prop :=
  ∃ rm, rmOf i = some rm ∧ ∀ mode, ¬ Selects rm frm mode

/-- The outcome of an instruction with an `rm` field (R78, R155): where the field selects a mode, what `run` says of that
mode; where it selects none, the fault of R202 with the instruction's own word and the state unchanged. -/
def UnderMode (i : Instr) (rm : Rm) (s : State) (run : RoundingMode → Prop) : Prop :=
  (∀ mode, Selects rm s.frm mode → run mode) ∧
    ((∀ mode, ¬ Selects rm s.frm mode) → exec i s = .fault (.illegalInstruction (encode i) s))

/-! ### The arithmetic of the spec over the rationals (and, for the square root, over the reals) -/

section Exact
variable {K : Type} [Field K] [LinearOrder K] [FloorRing K]

/-- `val(v)` of R130, for a finite pattern. -/
def val (v : Word) : ℚ :=
  (if fpSign v then -1 else 1) *
    (if fpExp v = 0 then (fpFrac v : ℚ) * 2 ^ (-149 : ℤ) else (2 ^ 23 + (fpFrac v : ℚ)) * 2 ^ ((fpExp v : ℤ) - 150))

/-- `rint(u)` of R133 for a non-negative `u`, aware of the sign. -/
def rintExact (rm : RoundingMode) (neg : Bool) (u : K) : ℤ :=
  match rm with
  | .rne =>
    if u - ⌊u⌋ < 1 / 2 then ⌊u⌋ else if 1 / 2 < u - ⌊u⌋ then ⌊u⌋ + 1 else if ⌊u⌋ % 2 = 0 then ⌊u⌋ else ⌊u⌋ + 1
  | .rmm => if u - ⌊u⌋ < 1 / 2 then ⌊u⌋ else ⌊u⌋ + 1
  | .rtz => ⌊u⌋
  | .rdn => if neg then ⌈u⌉ else ⌊u⌋
  | .rup => if neg then ⌊u⌋ else ⌈u⌉

/-- The result of an overflow (R133): an infinity or the greatest finite number. -/
def overflowOf (rm : RoundingMode) (neg : Bool) : Word :=
  match rm with
  | .rne | .rmm => if neg then 0xFF800000#32 else 0x7F800000#32
  | .rtz => if neg then 0xFF7FFFFF#32 else 0x7F7FFFFF#32
  | .rdn => if neg then 0xFF800000#32 else 0x7F7FFFFF#32
  | .rup => if neg then 0xFF7FFFFF#32 else 0x7F800000#32

/-- `round(rm, t)` of R133 gives the pattern `r` and the flags `fl`, for a number `t` that is not zero. -/
def Rounded (rm : RoundingMode) (t : K) (r : Word) (fl : Flags) : Prop :=
  let neg : Bool := decide (t < 0)
  let m : K := |t|
  ∃ e : ℤ, (2 : K) ^ e ≤ m ∧ m < 2 ^ (e + 1) ∧
    let ru : K := rintExact rm neg (m / 2 ^ (e - 23)) * 2 ^ (e - 23)
    let q : K := 2 ^ (max e (-126) - 23)
    let v : K := rintExact rm neg (m / q) * q
    if 2 ^ (128 : ℤ) ≤ v then fl = 0x05#5 ∧ r = overflowOf rm neg
    else
      isFinite r = true ∧ fpSign r = neg ∧ |((val r : ℚ) : K)| = v ∧
        fl = (if v ≠ m then 0x01#5 else 0x00#5) ||| (if ru < 2 ^ (-126 : ℤ) ∧ v ≠ m then 0x02#5 else 0x00#5)

end Exact

/-- The NaN operand rule of R134 for two operands: the canonical NaN, NV if one of them is signaling. -/
def nanFlags (signaling : Bool) : Flags := if signaling then 0x10#5 else 0x00#5

/-- `(r, fl)` is the sum of R146, with the zero rule of R135 (a). -/
def SumIs (mode : RoundingMode) (a b : Word) (r : Word) (fl : Flags) : Prop :=
  if isNaN a ∨ isNaN b then r = 0x7FC00000#32 ∧ fl = nanFlags (isSNaN a || isSNaN b)
  else if isInf a ∧ isInf b ∧ fpSign a ≠ fpSign b then r = 0x7FC00000#32 ∧ fl = 0x10#5
  else if isInf a then r = a ∧ fl = 0x00#5
  else if isInf b then r = b ∧ fl = 0x00#5
  else if val a + val b = 0 then
    fl = 0x00#5 ∧
      r = if isZero a ∧ isZero b ∧ fpSign a = fpSign b then a
        else if mode = .rdn then 0x80000000#32 else 0x00000000#32
  else Rounded mode (val a + val b) r fl

/-- A sign bit and 31 zero bits. -/
def signedZero (neg : Bool) : Word := if neg then 0x80000000#32 else 0x00000000#32
/-- The infinity of a sign. -/
def signedInf (neg : Bool) : Word := if neg then 0xFF800000#32 else 0x7F800000#32

/-- `(r, fl)` is the product of R148. -/
def ProductIs (mode : RoundingMode) (a b : Word) (r : Word) (fl : Flags) : Prop :=
  let sg := fpSign a ^^ fpSign b
  if isNaN a ∨ isNaN b then r = 0x7FC00000#32 ∧ fl = nanFlags (isSNaN a || isSNaN b)
  else if (isInf a ∧ isZero b) ∨ (isZero a ∧ isInf b) then r = 0x7FC00000#32 ∧ fl = 0x10#5
  else if isInf a ∨ isInf b then r = signedInf sg ∧ fl = 0x00#5
  else if isZero a ∨ isZero b then r = signedZero sg ∧ fl = 0x00#5
  else Rounded mode (val a * val b) r fl

/-- `(r, fl)` is the quotient of R149. -/
def QuotientIs (mode : RoundingMode) (a b : Word) (r : Word) (fl : Flags) : Prop :=
  let sg := fpSign a ^^ fpSign b
  if isNaN a ∨ isNaN b then r = 0x7FC00000#32 ∧ fl = nanFlags (isSNaN a || isSNaN b)
  else if isInf a ∧ isInf b then r = 0x7FC00000#32 ∧ fl = 0x10#5
  else if isZero a ∧ isZero b then r = 0x7FC00000#32 ∧ fl = 0x10#5
  else if isInf a then r = signedInf sg ∧ fl = 0x00#5
  else if isInf b then r = signedZero sg ∧ fl = 0x00#5
  else if isZero b then r = signedInf sg ∧ fl = 0x08#5
  else if isZero a then r = signedZero sg ∧ fl = 0x00#5
  else Rounded mode (val a / val b) r fl

/-- `(r, fl)` is the square root of R150: the positive real square root, rounded once. -/
def SqrtIs (mode : RoundingMode) (a : Word) (r : Word) (fl : Flags) : Prop :=
  if isNaN a then r = 0x7FC00000#32 ∧ fl = nanFlags (isSNaN a)
  else if isZero a then r = a ∧ fl = 0x00#5
  else if fpSign a then r = 0x7FC00000#32 ∧ fl = 0x10#5
  else if isInf a then r = a ∧ fl = 0x00#5
  else Rounded mode (Real.sqrt ((val a : ℚ) : ℝ)) r fl

/-- `(r, fl)` is the fused multiply-add of R151, with the product negated if `negp` and the addend's sign flipped if
`negc` (R152 to R154). -/
def FmaIs (mode : RoundingMode) (negp negc : Bool) (a b c0 : Word) (r : Word) (fl : Flags) : Prop :=
  let c := if negc then c0 ^^^ 0x80000000#32 else c0
  let sp := fpSign a ^^ fpSign b ^^ negp
  let invalidProduct : Prop := (isInf a ∧ isZero b) ∨ (isZero a ∧ isInf b)
  let p : ℚ := (if negp then -1 else 1) * val a * val b
  if isNaN a ∨ isNaN b ∨ isNaN c then
    r = 0x7FC00000#32 ∧
      ((isSNaN a ∨ isSNaN b ∨ isSNaN c ∨ invalidProduct) → fl = 0x10#5) ∧
      (¬ (isSNaN a ∨ isSNaN b ∨ isSNaN c ∨ invalidProduct) → fl = 0x00#5)
  else if (isInf a ∧ isZero b) ∨ (isZero a ∧ isInf b) then r = 0x7FC00000#32 ∧ fl = 0x10#5
  else if (isInf a ∨ isInf b) ∧ isInf c ∧ sp ≠ fpSign c then r = 0x7FC00000#32 ∧ fl = 0x10#5
  else if isInf a ∨ isInf b then r = signedInf sp ∧ fl = 0x00#5
  else if isInf c then r = c ∧ fl = 0x00#5
  else if p + val c = 0 then
    fl = 0x00#5 ∧
      r = if p = 0 ∧ isZero c ∧ sp = fpSign c then c
        else if mode = .rdn then 0x80000000#32 else 0x00000000#32
  else Rounded mode (p + val c) r fl

/-- `(r, fl)` is the integer `k` as binary32 (R142, R143). -/
def FloatOfIntIs (mode : RoundingMode) (k : ℤ) (r : Word) (fl : Flags) : Prop :=
  if k = 0 then r = 0x00000000#32 ∧ fl = 0x00#5 else Rounded mode (k : ℚ) r fl

/-- `(r, fl)` is the pattern `a` as an integer in the range `lo` to `hi` (R144, R145). -/
def IntOfFloatIs (lo hi : ℤ) (mode : RoundingMode) (a : Word) (r : Word) (fl : Flags) : Prop :=
  let n : ℤ := if fpSign a then - rintExact mode true |val a| else rintExact mode false |val a|
  if isNaN a then r = BitVec.ofInt 32 hi ∧ fl = 0x10#5
  else if isInf a then r = BitVec.ofInt 32 (if fpSign a then lo else hi) ∧ fl = 0x10#5
  else if hi < n then r = BitVec.ofInt 32 hi ∧ fl = 0x10#5
  else if n < lo then r = BitVec.ofInt 32 lo ∧ fl = 0x10#5
  else r = BitVec.ofInt 32 n ∧ fl = if (n : ℚ) ≠ val a then 0x01#5 else 0x00#5

/-- `key(v)` of R163. -/
def orderKey (v : Word) : ℤ :=
  if v.getLsbD 31 then -1 - ((v.toNat % 2 ^ 31 : ℕ) : ℤ) else ((v.toNat % 2 ^ 31 : ℕ) : ℤ)

/-- `key'(v)` of R165 to R167: both zeros are 0. -/
def compareKey (v : Word) : ℤ := if v.toNat % 2 ^ 31 = 0 then 0 else orderKey v

/-- `(r, fl)` is the minimum (or maximum) of R163 (R164). -/
def MinMaxIs (isMax : Bool) (a b : Word) (r : Word) (fl : Flags) : Prop :=
  fl = nanFlags (isSNaN a || isSNaN b) ∧
    r = if isNaN a ∧ isNaN b then 0x7FC00000#32
      else if isNaN a then b
      else if isNaN b then a
      else if orderKey a < orderKey b then (if isMax then b else a)
      else if orderKey b < orderKey a then (if isMax then a else b)
      else a

/-- The value `fclass.s` writes (R168), by the exponent and fraction of each class of R130. -/
def classMask (v : Word) : Word :=
  let neg : Bool := v.getLsbD 31
  let e := v.toNat / 2 ^ 23 % 2 ^ 8
  let f := v.toNat % 2 ^ 23
  if e = 255 then
    if f = 0 then (if neg then 0x001#32 else 0x080#32) else if f < 2 ^ 22 then 0x100#32 else 0x200#32
  else if e = 0 then
    if f = 0 then (if neg then 0x008#32 else 0x010#32) else (if neg then 0x004#32 else 0x020#32)
  else if neg then 0x002#32 else 0x040#32

/-! ### Moving a program -/

/-- The state with its program text, and `pc` and `RESET_PC`, `k` addresses higher (R41: code is
position-independent). -/
def State.relocated (s : State) (k : Nat) : State :=
  { s with
    pc := s.pc + BitVec.ofNat 32 k
    params := { s.params with
      programBase := s.params.programBase + k, resetPc := s.params.resetPc + BitVec.ofNat 32 k }
    text := s.text.map fun c => (c.1 + k, c.2) }

end Sys2Proof.Machine
end

