-- ==== Sys2Proof/Certificates/Slice0/Obligations.lean ====
section
/-! DEFINITION. The statements for the provers, from the numbered rules of spec/. -/

section
open Sys2Proof Sys2Proof.Machine

/-! ### Decoding and encoding (spec/30_encoding.md) -/

/-- The decoder reads every well-formed instruction back from the word, and from the bytes, the encoder writes: every
operand at every value (R61, R62, R65, R76 to R78). -/
def Obligations.DecodeOfEncode : Prop :=
  ∀ (p : Params) (i : Instr), i.wellFormed p →
    decodeWord p (encode i) = .ok i ∧ decodeBytes p (encodeBytes i) = .ok i

/-- A word has at most one meaning: what decodes encodes to the same word, and only admitted rows decode (R65). -/
def Obligations.EncodeOfDecode : Prop :=
  ∀ (p : Params) (w : Word) (i : Instr), decodeWord p w = .ok i → encode i = w ∧ i.wellFormed p

/-- Decoding is total with two verdicts: the instruction of an admitted row that the word fits, or "unlisted" where no
admitted row fits (R65). -/
def Obligations.DecodeHasTwoVerdicts : Prop :=
  ∀ (p : Params) (w : Word),
    (∃ i, i.mnemonic.admitted p = true ∧ w &&& i.mnemonic.pattern.mask = i.mnemonic.pattern.bits ∧
        decodeWord p w = .ok i) ∨
      ((∀ m : Mnemonic, m.admitted p = true → w &&& m.pattern.mask ≠ m.pattern.bits) ∧
        decodeWord p w = .error (.unlisted w))

/-- For every pair of rows there is a bit that both masks fix and on which the match values differ (R74). -/
def Obligations.RowsDoNotOverlap : Prop :=
  ∀ m n : Mnemonic, m ≠ n → ∃ k : Fin 32,
    m.pattern.mask.getLsbD k = true ∧ n.pattern.mask.getLsbD k = true ∧
      m.pattern.bits.getLsbD k ≠ n.pattern.bits.getLsbD k

/-- Which rows the parameters admit: the 28 other Tier S rows always, `fmw.w.x` unless the policy removes it, the 19
Tier G rows with `ADMIT_GK_ROWS`; and the word of an instruction whose row is not admitted is unlisted (R6, R65, R140). -/
def Obligations.AdmittedRows : Prop :=
  (∀ (p : Params) (m : Mnemonic), m.admitted p = true ↔
    m ∈ [.add, .sub, .sll, .slt, .sltu, .xor, .srl, .sra, .or, .and, .mul, .mulh, .mulhsu, .mulhu, .div, .divu, .rem,
        .remu, .faddS, .fsubS, .fmulS, .fdivS, .fsqrtS, .fsgnjS, .fsgnjnS, .fsgnjxS, .fminS, .fmaxS] ∨
      m = .fmwWX ∧ p.fmwPolicy ≠ .refuse ∨
      m ∈ [.fmwXW, .fcvtSW, .fcvtSWu, .fmwWS, .fmwWuS, .fmaddS, .fmsubS, .fnmsubS, .fnmaddS, .feqS, .fltS, .fleS,
          .fclassS, .frcsr, .frrm, .frflags, .fscsr, .fsrm, .fsflags] ∧ p.admitGkRows = true) ∧
    ∀ (p : Params) (i : Instr), ¬ i.wellFormed p → decodeWord p (encode i) = .error (.unlisted (encode i))

/-- On the rows `fmw.w.x` and `fsqrt.s` the constant `rs2` is part of the pattern: the masks cover bits 24:20, and a word
with the same funct7, funct3 and opcode but another `rs2` is unlisted (R67). -/
def Obligations.ConstantRs2IsPartOfThePattern : Prop :=
  (∀ m ∈ [Mnemonic.fmwWX, Mnemonic.fsqrtS],
      m.pattern.mask.extractLsb' 20 5 = 0b11111#5 ∧ m.pattern.bits.extractLsb' 20 5 = 0b00000#5) ∧
    ∀ (p : Params) (w : Word), w.extractLsb' 25 7 = 0b0101100#7 →
      (w.extractLsb' 12 3 = 0b010#3 ∨ w.extractLsb' 12 3 = 0b000#3) → w.extractLsb' 0 7 = 0b1010011#7 →
      w.extractLsb' 20 5 ≠ 0b00000#5 → decodeWord p w = .error (.unlisted w)

/-- Executing a word that fits no admitted row is the fault `IllegalInstruction`, with nothing changed; and the words
R69 names are such words. -/
def Obligations.UnlistedWordsFault : Prop :=
  (∀ s : State, s.params.legal → s.pc.toNat ≠ textEnd s.params → Fetchable s →
      (∀ m : Mnemonic, m.admitted s.params = true → s.fetchWord &&& m.pattern.mask ≠ m.pattern.bits) →
      step s = .fault (.illegalInstruction s.fetchWord s)) ∧
    ∀ (p : Params) (w : Word),
      let opcode := w.extractLsb' 0 7
      let funct3 := w.extractLsb' 12 3
      let rs2 := w.extractLsb' 20 5
      let funct7 := w.extractLsb' 25 7
      let Unlisted : Prop := decodeWord p w = .error (.unlisted w)
      ((opcode ≠ 0b0110011#7 ∧ opcode ≠ 0b1010011#7 ∧
          (p.admitGkRows = true → opcode ∉ [0b1000011#7, 0b1000111#7, 0b1001011#7, 0b1001111#7, 0b1110011#7])) →
        Unlisted) ∧
      (opcode = 0b0110011#7 → funct7 ∉ [0b0000000#7, 0b0100000#7, 0b0000001#7] → Unlisted) ∧
      (opcode = 0b0110011#7 → funct7 = 0b0100000#7 → funct3 ∉ [0b000#3, 0b101#3] → Unlisted) ∧
      (opcode = 0b1010011#7 → funct7 ∈ [0b0000000#7, 0b0000100#7, 0b0001000#7, 0b0001100#7] → funct3 ≠ 0b000#3 →
        Unlisted) ∧
      (opcode = 0b1010011#7 → funct7 = 0b0101100#7 →
        ¬ (rs2 = 0b00000#5 ∧ funct3 ∈ [0b000#3, 0b010#3]) → Unlisted) ∧
      (opcode = 0b1010011#7 → funct7 = 0b0010000#7 → funct3 ∉ [0b000#3, 0b001#3, 0b010#3] → Unlisted) ∧
      (opcode = 0b1010011#7 → funct7 = 0b0010100#7 → funct3 ∉ [0b000#3, 0b001#3] → Unlisted) ∧
      (opcode = 0b1010011#7 →
        funct7 ∉ [0b0000000#7, 0b0000100#7, 0b0001000#7, 0b0001100#7, 0b0101100#7, 0b0010000#7, 0b0010100#7] →
        (p.admitGkRows = true → funct7 ∉ [0b1010000#7, 0b1100000#7, 0b1101000#7, 0b1110000#7]) → Unlisted) ∧
      (w = 0x00000000#32 ∨ w = 0xFFFFFFFF#32 → Unlisted)

/-- Words the spec writes out decode to the instructions it gives beside them: one or two of each family. -/
def Obligations.SanityWordsDecode : Prop :=
  let p := Params.default.admitAll
  decodeWord p 0x002081B3#32 = .ok (.add 3 1 2) ∧ decodeWord p 0x4020D1B3#32 = .ok (.sra 3 1 2) ∧
    decodeWord p 0x0220A1B3#32 = .ok (.mulhsu 3 1 2) ∧ decodeWord p 0x5800A1D3#32 = .ok (.fmwWX 3 1) ∧
    decodeWord p 0xC00091D3#32 = .ok (.fmwWS 3 1 .rtz) ∧ decodeWord p 0x182081D3#32 = .ok (.fdivS 3 1 2) ∧
    decodeWord p 0x580081D3#32 = .ok (.fsqrtS 3 1) ∧ decodeWord p 0x2020F1CB#32 = .ok (.fnmsubS 3 1 2 4 .dyn) ∧
    decodeWord p 0x2020A1D3#32 = .ok (.fsgnjxS 3 1 2) ∧ decodeWord p 0xA02091D3#32 = .ok (.fltS 3 1 2) ∧
    decodeWord p 0x003091F3#32 = .ok (.fscsr 3 1) ∧ decodeWord p 0xF0000053#32 = .error (.unlisted 0xF0000053#32)

/-! ### The step (spec/00_scope.md, spec/20_memory.md, spec/60_exceptions.md) -/

/-- Where the four bytes at `pc` decode to an instruction, the step is that instruction's execution, and a next state
has `pc` at the following instruction (R10, R26, R44). -/
def Obligations.StepRunsTheDecodedInstruction : Prop :=
  ∀ (s : State) (i : Instr), s.params.legal → s.pc.toNat ≠ textEnd s.params → Fetchable s →
    decodeBytes s.params [s.readByte s.pc.toNat, s.readByte (s.pc.toNat + 1), s.readByte (s.pc.toNat + 2),
      s.readByte (s.pc.toNat + 3)] = .ok i →
    step s = exec i s ∧ ∀ t, step s = .next t → t.pc = s.pc + 4#32

/-- The checks of a step in their order: the end of the run, the fetch, the decoding (R201, R205, R245). That illegal
parameters are refused before them is the model's own (notes/assumptions/6.md), as is the form of the end of a run
(notes/assumptions/5.md). -/
def Obligations.StepChecksInOrder : Prop :=
  ∀ s : State,
    (¬ s.params.legal → step s = .refused .illegalParameters) ∧
    (s.params.legal → s.pc.toNat = textEnd s.params → step s = .refused .runFinal) ∧
    (s.params.legal → s.pc.toNat ≠ textEnd s.params → ¬ Fetchable s → step s = .fault (.fetchFault s.pc s)) ∧
    (s.params.legal → s.pc.toNat ≠ textEnd s.params → Fetchable s →
      (∀ w, decodeWord s.params s.fetchWord = .error (.unlisted w) →
        step s = .fault (.illegalInstruction s.fetchWord s)) ∧
      ∀ i, decodeWord s.params s.fetchWord = .ok i → step s = exec i s)

/-- The word at an address has the byte at that address in bits 7:0, the next in bits 15:8, and so on; a fetch reads
the word at `pc` (R42). -/
def Obligations.FetchIsLittleEndian : Prop :=
  ∀ (s : State) (a : Nat),
    (s.readWord a).extractLsb' 0 8 = s.readByte a ∧ (s.readWord a).extractLsb' 8 8 = s.readByte (a + 1) ∧
      (s.readWord a).extractLsb' 16 8 = s.readByte (a + 2) ∧ (s.readWord a).extractLsb' 24 8 = s.readByte (a + 3) ∧
      s.fetchWord = s.readWord s.pc.toNat

/-! ### RV32I (spec/40_rv32i_regreg.md) -/

/-- `add` and `sub` wrap modulo `2^32` (R100, R101). -/
def Obligations.AddAndSub : Prop :=
  RowDecodes .add 0x00000033#32 0xFE00707F#32 (fromRdRs1Rs2 .add) ∧
  RowDecodes .sub 0x40000033#32 0xFE00707F#32 (fromRdRs1Rs2 .sub) ∧
  ∀ (rd rs1 rs2 : XReg) (s : State),
    CompletesX (.add rd rs1 rs2) s rd (BitVec.ofNat 32 ((s.readX rs1).toNat + (s.readX rs2).toNat)) 0x00#5 ∧
    CompletesX (.sub rd rs1 rs2) s rd
      (BitVec.ofInt 32 (((s.readX rs1).toNat : ℤ) - ((s.readX rs2).toNat : ℤ))) 0x00#5

/-- The three shifts, by the low five bits of the second source (R102, R106, R107). -/
def Obligations.Shifts : Prop :=
  RowDecodes .sll 0x00001033#32 0xFE00707F#32 (fromRdRs1Rs2 .sll) ∧
  RowDecodes .srl 0x00005033#32 0xFE00707F#32 (fromRdRs1Rs2 .srl) ∧
  RowDecodes .sra 0x40005033#32 0xFE00707F#32 (fromRdRs1Rs2 .sra) ∧
  ∀ (rd rs1 rs2 : XReg) (s : State),
    let a := s.readX rs1
    let sh := (s.readX rs2).toNat % 32
    CompletesX (.sll rd rs1 rs2) s rd (BitVec.ofNat 32 (a.toNat * 2 ^ sh)) 0x00#5 ∧
    CompletesX (.srl rd rs1 rs2) s rd (BitVec.ofNat 32 (a.toNat / 2 ^ sh)) 0x00#5 ∧
    CompletesX (.sra rd rs1 rs2) s rd (BitVec.ofInt 32 (a.toInt / 2 ^ sh)) 0x00#5

/-- `slt` compares signed, `sltu` unsigned; the result is 1 or 0 (R103, R104). -/
def Obligations.SetLessThan : Prop :=
  RowDecodes .slt 0x00002033#32 0xFE00707F#32 (fromRdRs1Rs2 .slt) ∧
  RowDecodes .sltu 0x00003033#32 0xFE00707F#32 (fromRdRs1Rs2 .sltu) ∧
  ∀ (rd rs1 rs2 : XReg) (s : State),
    CompletesX (.slt rd rs1 rs2) s rd
      (if (s.readX rs1).toInt < (s.readX rs2).toInt then 0x00000001#32 else 0x00000000#32) 0x00#5 ∧
    CompletesX (.sltu rd rs1 rs2) s rd
      (if (s.readX rs1).toNat < (s.readX rs2).toNat then 0x00000001#32 else 0x00000000#32) 0x00#5

/-- `xor`, `or` and `and` act on each bit position by itself (R105, R108, R109). -/
def Obligations.BitwiseOperations : Prop :=
  RowDecodes .xor 0x00004033#32 0xFE00707F#32 (fromRdRs1Rs2 .xor) ∧
  RowDecodes .or 0x00006033#32 0xFE00707F#32 (fromRdRs1Rs2 .or) ∧
  RowDecodes .and 0x00007033#32 0xFE00707F#32 (fromRdRs1Rs2 .and) ∧
  ∀ (rd rs1 rs2 : XReg) (s : State),
    (∃ r, CompletesX (.xor rd rs1 rs2) s rd r 0x00#5 ∧
      ∀ k, r.getLsbD k = ((s.readX rs1).getLsbD k ^^ (s.readX rs2).getLsbD k)) ∧
    (∃ r, CompletesX (.or rd rs1 rs2) s rd r 0x00#5 ∧
      ∀ k, r.getLsbD k = ((s.readX rs1).getLsbD k || (s.readX rs2).getLsbD k)) ∧
    (∃ r, CompletesX (.and rd rs1 rs2) s rd r 0x00#5 ∧
      ∀ k, r.getLsbD k = ((s.readX rs1).getLsbD k && (s.readX rs2).getLsbD k))

/-! ### RV32M (spec/41_rv32m_muldiv.md) -/

/-- The low and the three high words of the product (R120 to R123). -/
def Obligations.Multiply : Prop :=
  RowDecodes .mul 0x02000033#32 0xFE00707F#32 (fromRdRs1Rs2 .mul) ∧
  RowDecodes .mulh 0x02001033#32 0xFE00707F#32 (fromRdRs1Rs2 .mulh) ∧
  RowDecodes .mulhsu 0x02002033#32 0xFE00707F#32 (fromRdRs1Rs2 .mulhsu) ∧
  RowDecodes .mulhu 0x02003033#32 0xFE00707F#32 (fromRdRs1Rs2 .mulhu) ∧
  ∀ (rd rs1 rs2 : XReg) (s : State),
    let a := s.readX rs1
    let b := s.readX rs2
    CompletesX (.mul rd rs1 rs2) s rd (BitVec.ofNat 32 (a.toNat * b.toNat)) 0x00#5 ∧
    CompletesX (.mul rd rs1 rs2) s rd (BitVec.ofInt 32 (a.toInt * b.toInt)) 0x00#5 ∧
    CompletesX (.mulh rd rs1 rs2) s rd (BitVec.ofInt 32 (a.toInt * b.toInt / 2 ^ 32)) 0x00#5 ∧
    CompletesX (.mulhsu rd rs1 rs2) s rd (BitVec.ofInt 32 (a.toInt * (b.toNat : ℤ) / 2 ^ 32)) 0x00#5 ∧
    CompletesX (.mulhu rd rs1 rs2) s rd (BitVec.ofInt 32 ((a.toNat : ℤ) * (b.toNat : ℤ) / 2 ^ 32)) 0x00#5

/-- Signed and unsigned division, with division by zero and signed overflow (R124, R125). -/
def Obligations.Divide : Prop :=
  RowDecodes .div 0x02004033#32 0xFE00707F#32 (fromRdRs1Rs2 .div) ∧
  RowDecodes .divu 0x02005033#32 0xFE00707F#32 (fromRdRs1Rs2 .divu) ∧
  ∀ (rd rs1 rs2 : XReg) (s : State),
    let a := s.readX rs1
    let b := s.readX rs2
    CompletesX (.div rd rs1 rs2) s rd
      (if b = 0x00000000#32 then 0xFFFFFFFF#32
        else if a = 0x80000000#32 ∧ b = 0xFFFFFFFF#32 then 0x80000000#32
        else BitVec.ofInt 32 (Int.tdiv a.toInt b.toInt)) 0x00#5 ∧
    CompletesX (.divu rd rs1 rs2) s rd
      (if b = 0x00000000#32 then 0xFFFFFFFF#32 else BitVec.ofNat 32 (a.toNat / b.toNat)) 0x00#5

/-- Signed and unsigned remainder; outside division by zero the signed remainder is smaller than the divisor and completes
the truncated quotient (R126, R127). -/
def Obligations.Remainder : Prop :=
  RowDecodes .rem 0x02006033#32 0xFE00707F#32 (fromRdRs1Rs2 .rem) ∧
  RowDecodes .remu 0x02007033#32 0xFE00707F#32 (fromRdRs1Rs2 .remu) ∧
  ∀ (rd rs1 rs2 : XReg) (s : State),
    let a := s.readX rs1
    let b := s.readX rs2
    (∃ r, CompletesX (.rem rd rs1 rs2) s rd r 0x00#5 ∧
      (r = if b = 0x00000000#32 then a
        else if a = 0x80000000#32 ∧ b = 0xFFFFFFFF#32 then 0x00000000#32
        else BitVec.ofInt 32 (Int.tmod a.toInt b.toInt)) ∧
      (b ≠ 0x00000000#32 → a.toInt = Int.tdiv a.toInt b.toInt * b.toInt + r.toInt ∧ |r.toInt| < |b.toInt|)) ∧
    CompletesX (.remu rd rs1 rs2) s rd
      (if b = 0x00000000#32 then a
        else BitVec.ofInt 32 ((a.toNat : ℤ) - (b.toNat : ℤ) * ((a.toNat / b.toNat : ℕ) : ℤ))) 0x00#5

/-- The law of R128: quotient times divisor plus remainder is the dividend modulo `2^32`, signed and unsigned, division by
zero and overflow included. -/
def Obligations.DivisionLaw : Prop :=
  ∀ (rq rr rs1 rs2 : XReg) (s : State), rq ≠ 0#5 → rr ≠ 0#5 →
    (∃ t u, exec (.div rq rs1 rs2) s = .next t ∧ exec (.rem rr rs1 rs2) s = .next u ∧
      t.readX rq * s.readX rs2 + u.readX rr = s.readX rs1) ∧
    (∃ t u, exec (.divu rq rs1 rs2) s = .next t ∧ exec (.remu rr rs1 rs2) s = .next u ∧
      t.readX rq * s.readX rs2 + u.readX rr = s.readX rs1)

/-- The high and the low word together are the 64-bit product: `mulhu` and `mul` of the unsigned product, `mulh` and
`mul` of the signed one (R120, R121, R123). -/
def Obligations.ProductHalves : Prop :=
  ∀ (rh rl rs1 rs2 : XReg) (s : State), rh ≠ 0#5 → rl ≠ 0#5 →
    ∃ l h hs, exec (.mul rl rs1 rs2) s = .next l ∧ exec (.mulhu rh rs1 rs2) s = .next h ∧
      exec (.mulh rh rs1 rs2) s = .next hs ∧
      h.readX rh ++ l.readX rl = (s.readX rs1).setWidth 64 * (s.readX rs2).setWidth 64 ∧
      hs.readX rh ++ l.readX rl = (s.readX rs1).signExtend 64 * (s.readX rs2).signExtend 64

/-! ### RV32F moves and conversions (spec/42_rv32f_move_convert_arith.md) -/

/-- `fmw.w.x` copies the 32 bits of an integer register, whatever they are, under the encoding of the source; the
encoding of general knowledge is unlisted, as is another `rs2`, and with the policy `refuse` so is the row (R140). -/
def Obligations.MoveFromInteger : Prop :=
  RowDecodes .fmwWX 0x58002053#32 0xFFF0707F#32 (fromRdRs1 .fmwWX) ∧
  (∀ (rd : FReg) (rs1 : XReg) (s : State), CompletesF (.fmwWX rd rs1) s rd (s.readX rs1) 0x00#5) ∧
  ∀ (p : Params) (w : Word),
    (w &&& 0xFFF0707F#32 = 0xF0000053#32 → decodeWord p w = .error (.unlisted w)) ∧
    (w &&& 0xFE00707F#32 = 0x58002053#32 → w &&& 0x01F00000#32 ≠ 0x00000000#32 →
      decodeWord p w = .error (.unlisted w)) ∧
    (p.fmwPolicy = .refuse → w &&& 0xFFF0707F#32 = 0x58002053#32 → decodeWord p w = .error (.unlisted w))

/-- `fmw.x.w` copies the 32 bits of a floating-point register, and after `fmw.w.x` gives the integer back (R141). -/
def Obligations.MoveToInteger : Prop :=
  RowDecodes .fmwXW 0xE0000053#32 0xFFF0707F#32 (fromRdRs1 .fmwXW) ∧
  (∀ (rd : XReg) (rs1 : FReg) (s : State), CompletesX (.fmwXW rd rs1) s rd (s.readF rs1) 0x00#5) ∧
  ∀ (rd rs1 : XReg) (f : FReg) (s t u : State), rd ≠ 0#5 → exec (.fmwWX f rs1) s = .next t →
    exec (.fmwXW rd f) t = .next u → u.readX rd = s.readX rs1

/-- `fcvt.s.w` and `fcvt.s.wu` round the integer once, in the mode the instruction selects, and can raise only NX; a
reserved mode faults (R142, R143). -/
def Obligations.IntegerToFloat : Prop :=
  RowDecodes .fcvtSW 0xD0000053#32 0xFFF0007F#32 (fromRdRs1Rm .fcvtSW) ∧
  RowDecodes .fcvtSWu 0xD0100053#32 0xFFF0007F#32 (fromRdRs1Rm .fcvtSWu) ∧
  ∀ (rd : FReg) (rs1 : XReg) (rm : Rm) (s : State),
    UnderMode (.fcvtSW rd rs1 rm) rm s (fun mode =>
      ∃ r fl, FloatOfIntIs mode (s.readX rs1).toInt r fl ∧ (fl = 0x00#5 ∨ fl = 0x01#5) ∧
        CompletesF (.fcvtSW rd rs1 rm) s rd r fl) ∧
    UnderMode (.fcvtSWu rd rs1 rm) rm s (fun mode =>
      ∃ r fl, FloatOfIntIs mode ((s.readX rs1).toNat : ℤ) r fl ∧ (fl = 0x00#5 ∨ fl = 0x01#5) ∧
        fpSign r = false ∧ CompletesF (.fcvtSWu rd rs1 rm) s rd r fl)

/-- `fmw.w.s` and `fmw.wu.s` round to an integer in the mode the instruction selects and clamp it to the range, with NV
outside it and NX where the value changed; a reserved mode faults (R144, R145). -/
def Obligations.FloatToInteger : Prop :=
  RowDecodes .fmwWS 0xC0000053#32 0xFFF0007F#32 (fromRdRs1Rm .fmwWS) ∧
  RowDecodes .fmwWuS 0xC0100053#32 0xFFF0007F#32 (fromRdRs1Rm .fmwWuS) ∧
  ∀ (rd : XReg) (rs1 : FReg) (rm : Rm) (s : State),
    UnderMode (.fmwWS rd rs1 rm) rm s (fun mode =>
      ∃ r fl, IntOfFloatIs (-2 ^ 31) (2 ^ 31 - 1) mode (s.readF rs1) r fl ∧
        CompletesX (.fmwWS rd rs1 rm) s rd r fl) ∧
    UnderMode (.fmwWuS rd rs1 rm) rm s (fun mode =>
      ∃ r fl, IntOfFloatIs 0 (2 ^ 32 - 1) mode (s.readF rs1) r fl ∧ CompletesX (.fmwWuS rd rs1 rm) s rd r fl)

/-! ### RV32F arithmetic. Every result rests on decision D4 of the spec (R136; notes/assumptions/10.md). -/

/-- `fadd.s` is the exact sum rounded once to nearest; it never raises DZ or UF, and it is commutative bit for bit;
another funct3 is unlisted (R146). -/
def Obligations.FloatAdd : Prop :=
  RowDecodes .faddS 0x00000053#32 0xFE00707F#32 (fromRdRs1Rs2 .faddS) ∧
  (∀ (p : Params) (w : Word), w &&& 0xFE00007F#32 = 0x00000053#32 → w &&& 0x00007000#32 ≠ 0x00000000#32 →
    decodeWord p w = .error (.unlisted w)) ∧
  ∀ (rd rs1 rs2 : FReg) (s : State), ∃ r fl,
    SumIs .rne (s.readF rs1) (s.readF rs2) r fl ∧ fl &&& 0x0A#5 = 0x00#5 ∧
      CompletesF (.faddS rd rs1 rs2) s rd r fl ∧ CompletesF (.faddS rd rs2 rs1) s rd r fl

/-- `fsub.s` is the sum with the sign bit of the second source flipped; it never raises DZ or UF. The flip leaves a NaN a
NaN of the same kind, and makes no NaN of a pattern that is none, so the NaN rule is that of the sum (R147). -/
def Obligations.FloatSub : Prop :=
  RowDecodes .fsubS 0x08000053#32 0xFE00707F#32 (fromRdRs1Rs2 .fsubS) ∧
  (∀ b : Word, isNaN (b ^^^ 0x80000000#32) = isNaN b ∧ isSNaN (b ^^^ 0x80000000#32) = isSNaN b ∧
    isQNaN (b ^^^ 0x80000000#32) = isQNaN b) ∧
  ∀ (rd rs1 rs2 : FReg) (s : State), ∃ r fl,
    SumIs .rne (s.readF rs1) (s.readF rs2 ^^^ 0x80000000#32) r fl ∧ fl &&& 0x0A#5 = 0x00#5 ∧
      CompletesF (.fsubS rd rs1 rs2) s rd r fl

/-- `fmul.s` is the exact product rounded once to nearest; it never raises DZ, and it is commutative bit for bit
(R148). -/
def Obligations.FloatMul : Prop :=
  RowDecodes .fmulS 0x10000053#32 0xFE00707F#32 (fromRdRs1Rs2 .fmulS) ∧
  ∀ (rd rs1 rs2 : FReg) (s : State), ∃ r fl,
    ProductIs .rne (s.readF rs1) (s.readF rs2) r fl ∧ fl &&& 0x08#5 = 0x00#5 ∧
      CompletesF (.fmulS rd rs1 rs2) s rd r fl ∧ CompletesF (.fmulS rd rs2 rs1) s rd r fl

/-- `fdiv.s` is the exact quotient rounded once to nearest; a finite non-zero number divided by zero is an infinity with
DZ, and nothing traps (R149). -/
def Obligations.FloatDiv : Prop :=
  RowDecodes .fdivS 0x18000053#32 0xFE00707F#32 (fromRdRs1Rs2 .fdivS) ∧
  ∀ (rd rs1 rs2 : FReg) (s : State), ∃ r fl,
    QuotientIs .rne (s.readF rs1) (s.readF rs2) r fl ∧ CompletesF (.fdivS rd rs1 rs2) s rd r fl

/-- `fsqrt.s` is the real square root rounded once to nearest; it raises NV or NX only, and a root of a positive number is
never below `2^-75` nor above `2^64`; another `rs2`, and another funct3 that is not that of `fmw.w.x`, is unlisted
(R150). -/
def Obligations.FloatSqrt : Prop :=
  RowDecodes .fsqrtS 0x58000053#32 0xFFF0707F#32 (fromRdRs1 .fsqrtS) ∧
  (∀ (p : Params) (w : Word), w &&& 0xFE00007F#32 = 0x58000053#32 →
    (w &&& 0x01F00000#32 ≠ 0x00000000#32 ∨
      w &&& 0x00007000#32 ≠ 0x00000000#32 ∧ w &&& 0x00007000#32 ≠ 0x00002000#32) →
    decodeWord p w = .error (.unlisted w)) ∧
  ∀ (rd rs1 : FReg) (s : State), ∃ r fl,
    SqrtIs .rne (s.readF rs1) r fl ∧ fl &&& 0x0E#5 = 0x00#5 ∧ CompletesF (.fsqrtS rd rs1) s rd r fl ∧
      (isFinite (s.readF rs1) = true → 0 < val (s.readF rs1) →
        isFinite r = true ∧ (2 : ℚ) ^ (-75 : ℤ) ≤ val r ∧ val r ≤ 2 ^ 64)

/-- The four fused multiply-adds: product and sum exact, one rounding in the mode the instruction selects, never DZ; a
reserved mode faults (R151 to R154). -/
def Obligations.FusedMultiplyAdd : Prop :=
  RowDecodes .fmaddS 0x00000043#32 0x0600007F#32 (fromR4 .fmaddS) ∧
  RowDecodes .fmsubS 0x00000047#32 0x0600007F#32 (fromR4 .fmsubS) ∧
  RowDecodes .fnmsubS 0x0000004B#32 0x0600007F#32 (fromR4 .fnmsubS) ∧
  RowDecodes .fnmaddS 0x0000004F#32 0x0600007F#32 (fromR4 .fnmaddS) ∧
  ∀ (rd rs1 rs2 rs3 : FReg) (rm : Rm) (s : State),
    let Fused (i : Instr) (negp negc : Bool) : Prop :=
      UnderMode i rm s fun mode => ∃ r fl,
        FmaIs mode negp negc (s.readF rs1) (s.readF rs2) (s.readF rs3) r fl ∧ fl &&& 0x08#5 = 0x00#5 ∧
          CompletesF i s rd r fl
    Fused (.fmaddS rd rs1 rs2 rs3 rm) false false ∧ Fused (.fmsubS rd rs1 rs2 rs3 rm) false true ∧
      Fused (.fnmsubS rd rs1 rs2 rs3 rm) true false ∧ Fused (.fnmaddS rd rs1 rs2 rs3 rm) true true

/-! ### Sign injection, minimum, maximum, comparison, classify (spec/43_rv32f_sign_minmax_compare_csr.md) -/

/-- The sign injections take bits 30:0 of the first source and a sign, and raise no flag for any operands (R160 to
R162). -/
def Obligations.SignInjection : Prop :=
  RowDecodes .fsgnjS 0x20000053#32 0xFE00707F#32 (fromRdRs1Rs2 .fsgnjS) ∧
  RowDecodes .fsgnjnS 0x20001053#32 0xFE00707F#32 (fromRdRs1Rs2 .fsgnjnS) ∧
  RowDecodes .fsgnjxS 0x20002053#32 0xFE00707F#32 (fromRdRs1Rs2 .fsgnjxS) ∧
  ∀ (rd rs1 rs2 : FReg) (s : State),
    let a := s.readF rs1
    let b := s.readF rs2
    CompletesF (.fsgnjS rd rs1 rs2) s rd ((b &&& 0x80000000#32) ||| (a &&& 0x7FFFFFFF#32)) 0x00#5 ∧
    CompletesF (.fsgnjnS rd rs1 rs2) s rd ((~~~ b &&& 0x80000000#32) ||| (a &&& 0x7FFFFFFF#32)) 0x00#5 ∧
    CompletesF (.fsgnjxS rd rs1 rs2) s rd (a ^^^ (b &&& 0x80000000#32)) 0x00#5

/-- `fmin.s` and `fmax.s` by the order in which `-0` is below `+0`; a NaN loses to a number; NV for a signaling NaN;
commutative bit for bit (R163, R164). -/
def Obligations.MinimumAndMaximum : Prop :=
  RowDecodes .fminS 0x28000053#32 0xFE00707F#32 (fromRdRs1Rs2 .fminS) ∧
  RowDecodes .fmaxS 0x28001053#32 0xFE00707F#32 (fromRdRs1Rs2 .fmaxS) ∧
  (∀ a b : Word, orderKey a = orderKey b → a = b) ∧
  ∀ (rd rs1 rs2 : FReg) (s : State),
    (∃ r fl, MinMaxIs false (s.readF rs1) (s.readF rs2) r fl ∧
      CompletesF (.fminS rd rs1 rs2) s rd r fl ∧ CompletesF (.fminS rd rs2 rs1) s rd r fl) ∧
    (∃ r fl, MinMaxIs true (s.readF rs1) (s.readF rs2) r fl ∧
      CompletesF (.fmaxS rd rs1 rs2) s rd r fl ∧ CompletesF (.fmaxS rd rs2 rs1) s rd r fl)

/-- `feq.s` is quiet, `flt.s` and `fle.s` are signaling; a comparison with a NaN is false; the two zeros are equal (R165
to R167). -/
def Obligations.FloatCompare : Prop :=
  RowDecodes .feqS 0xA0002053#32 0xFE00707F#32 (fromRdRs1Rs2 .feqS) ∧
  RowDecodes .fltS 0xA0001053#32 0xFE00707F#32 (fromRdRs1Rs2 .fltS) ∧
  RowDecodes .fleS 0xA0000053#32 0xFE00707F#32 (fromRdRs1Rs2 .fleS) ∧
  ∀ (rd : XReg) (rs1 rs2 : FReg) (s : State),
    let a := s.readF rs1
    let b := s.readF rs2
    CompletesX (.feqS rd rs1 rs2) s rd
      (if isNaN a = false ∧ isNaN b = false ∧ compareKey a = compareKey b then 0x00000001#32 else 0x00000000#32)
      (nanFlags (isSNaN a || isSNaN b)) ∧
    CompletesX (.fltS rd rs1 rs2) s rd
      (if isNaN a = false ∧ isNaN b = false ∧ compareKey a < compareKey b then 0x00000001#32 else 0x00000000#32)
      (nanFlags (isNaN a || isNaN b)) ∧
    CompletesX (.fleS rd rs1 rs2) s rd
      (if isNaN a = false ∧ isNaN b = false ∧ compareKey a ≤ compareKey b then 0x00000001#32 else 0x00000000#32)
      (nanFlags (isNaN a || isNaN b))

/-- On finite operands the comparisons compare the values, and `fmin.s` and `fmax.s` give the lesser and the greater
value, with no flag (R130, R163 to R167). -/
def Obligations.CompareByValue : Prop :=
  ∀ (rx : XReg) (rd rs1 rs2 : FReg) (s : State),
    isFinite (s.readF rs1) = true → isFinite (s.readF rs2) = true →
      let u := val (s.readF rs1)
      let v := val (s.readF rs2)
      CompletesX (.feqS rx rs1 rs2) s rx (if u = v then 0x00000001#32 else 0x00000000#32) 0x00#5 ∧
      CompletesX (.fltS rx rs1 rs2) s rx (if u < v then 0x00000001#32 else 0x00000000#32) 0x00#5 ∧
      CompletesX (.fleS rx rs1 rs2) s rx (if u ≤ v then 0x00000001#32 else 0x00000000#32) 0x00#5 ∧
      (∃ r, CompletesF (.fminS rd rs1 rs2) s rd r 0x00#5 ∧ isFinite r = true ∧ val r = min u v) ∧
      (∃ r, CompletesF (.fmaxS rd rs1 rs2) s rd r 0x00#5 ∧ isFinite r = true ∧ val r = max u v)

/-- `fclass.s` writes the one bit of the class of its operand and raises no flag (R168). -/
def Obligations.Classify : Prop :=
  RowDecodes .fclassS 0xE0001053#32 0xFFF0707F#32 (fromRdRs1 .fclassS) ∧
  ∀ (rd : XReg) (rs1 : FReg) (s : State), CompletesX (.fclassS rd rs1) s rd (classMask (s.readF rs1)) 0x00#5

/-! ### Control-register access (spec/43_rv32f_sign_minmax_compare_csr.md, spec/10_state.md) -/

/-- `frcsr`, `frrm` and `frflags` read, zero-extended and right-justified, and change nothing in `fcsr` (R169 to
R171). -/
def Obligations.ControlRegisterReads : Prop :=
  RowDecodes .frcsr 0x00302073#32 0xFFFFF07F#32 (fromRd .frcsr) ∧
  RowDecodes .frrm 0x00202073#32 0xFFFFF07F#32 (fromRd .frrm) ∧
  RowDecodes .frflags 0x00102073#32 0xFFFFF07F#32 (fromRd .frflags) ∧
  ∀ (rd : XReg) (s : State),
    CompletesX (.frcsr rd) s rd (BitVec.ofNat 32 s.fcsr.toNat) 0x00#5 ∧
    CompletesX (.frrm rd) s rd (BitVec.ofNat 32 (s.fcsr.toNat / 32)) 0x00#5 ∧
    CompletesX (.frflags rd) s rd (BitVec.ofNat 32 (s.fcsr.toNat % 32)) 0x00#5

/-- `fscsr`, `fsrm` and `fsflags` write the low bits of the source register, leave the other field alone and give the old
value; any mode may be written, the reserved ones included (R172 to R174). -/
def Obligations.ControlRegisterSwaps : Prop :=
  RowDecodes .fscsr 0x00301073#32 0xFFF0707F#32 (fromRdRs1 .fscsr) ∧
  RowDecodes .fsrm 0x00201073#32 0xFFF0707F#32 (fromRdRs1 .fsrm) ∧
  RowDecodes .fsflags 0x00101073#32 0xFFF0707F#32 (fromRdRs1 .fsflags) ∧
  ∀ (rd rs1 : XReg) (s : State),
    let c := s.fcsr.toNat
    let v := (s.readX rs1).toNat
    SwapsFcsr (.fscsr rd rs1) s rd (BitVec.ofNat 32 c) (BitVec.ofNat 8 v) ∧
    SwapsFcsr (.fsrm rd rs1) s rd (BitVec.ofNat 32 (c / 32)) (BitVec.ofNat 8 (v % 8 * 32 + c % 32)) ∧
    SwapsFcsr (.fsflags rd rs1) s rd (BitVec.ofNat 32 (c % 32)) (BitVec.ofNat 8 (c / 32 * 32 + v % 32))

/-- What a swap wrote, the read of the same register gives back: eight, three and five bits, and zeros above (R30,
R33). -/
def Obligations.ControlRegisterWriteThenRead : Prop :=
  ∀ (rd rs1 rr : XReg) (s t u : State), rr ≠ 0#5 →
    (exec (.fscsr rd rs1) s = .next t → exec (.frcsr rr) t = .next u →
      u.readX rr = s.readX rs1 &&& 0x000000FF#32) ∧
    (exec (.fsrm rd rs1) s = .next t → exec (.frrm rr) t = .next u → u.readX rr = s.readX rs1 &&& 0x00000007#32) ∧
    (exec (.fsflags rd rs1) s = .next t → exec (.frflags rr) t = .next u →
      u.readX rr = s.readX rs1 &&& 0x0000001F#32)

/-! ### Rules of the whole machine -/

/-- An instruction that writes a NaN to a floating-point register writes the canonical one, but for the four bit movers
(R131). -/
def Obligations.ArithmeticNaNIsCanonical : Prop :=
  ∀ (i : Instr) (rd : FReg) (s t : State), (writesOf i).dest = .f rd →
    i.mnemonic ∉ [.fmwWX, .fsgnjS, .fsgnjnS, .fsgnjxS] → exec i s = .next t →
    isNaN (t.readF rd) = true → t.readF rd = 0x7FC00000#32

/-- The flags one instruction can raise: none, NV, DZ, OF with NX, NX, or UF with NX; DZ by `fdiv.s` only (R132). -/
def Obligations.RaisedFlags : Prop :=
  ∀ (i : Instr) (s t : State), (writesOf i).fcsr = false → s.fflags = 0x00#5 → exec i s = .next t →
    t.fflags ∈ [0x00#5, 0x10#5, 0x08#5, 0x05#5, 0x01#5, 0x03#5] ∧ (t.fflags = 0x08#5 → i.mnemonic = .fdivS)

/-- The rounding-mode check: the eight rows with an `rm` field leave bits 14:12 free; such an instruction completes where
the field selects a mode and is `IllegalInstruction` with its own word where it selects none; every other instruction
completes in every state (R78, R155, R202). -/
def Obligations.ReservedRoundingModesFault : Prop :=
  (∀ i : Instr, (rmOf i).isSome = true ↔ i.mnemonic.pattern.mask &&& 0x00007000#32 = 0x00000000#32) ∧
  (∀ b : BitVec 3, (Rm.ofBits b).bits = b) ∧
  ∀ (i : Instr) (s : State),
    (ReservedMode i s.frm → exec i s = .fault (.illegalInstruction (encode i) s)) ∧
    (¬ ReservedMode i s.frm → ∃ t, exec i s = .next t)

/-- What each instruction leaves unchanged: the registers it does not write, `fcsr` unless the table of R24 lists it, the
flags already set unless it writes `fcsr`, all of memory and every parameter; and `pc` moves by 4 (R24, R26, R31). -/
def Obligations.FrameOfEveryInstruction : Prop :=
  ∀ (i : Instr) (s t : State), exec i s = .next t →
    (∀ q, (writesOf i).dest ≠ .x q → t.readX q = s.readX q) ∧
    (∀ q, (writesOf i).dest ≠ .f q → t.readF q = s.readF q) ∧
    ((writesOf i).flags = false → t.fcsr = s.fcsr) ∧
    ((writesOf i).fcsr = false → t.frm = s.frm ∧ s.fflags &&& t.fflags = s.fflags) ∧
    t.pc = s.pc + 4#32 ∧ t.params = s.params ∧ ∀ a, t.readByte a = s.readByte a

/-- An instruction's result and the flags it raises depend only on the registers the table of R24 says it reads: two
states that agree on those give the same. -/
def Obligations.ReadsOnlyItsSources : Prop :=
  ∀ (i : Instr) (s s' t : State), AgreeOn (readsOf i) s s' → exec i s = .next t →
    ∃ t', exec i s' = .next t' ∧ t.readDest (writesOf i).dest = t'.readDest (writesOf i).dest ∧
      ((writesOf i).fcsr = true → t.fcsr = t'.fcsr) ∧
      ((writesOf i).fcsr = false → ∃ fl, t.fflags = s.fflags ||| fl ∧ t'.fflags = s'.fflags ||| fl)

/-- No Tier S instruction reads `frm`, nor does one with a static rounding mode: with another `frm` it does the same
(R32). -/
def Obligations.TierSIgnoresFrm : Prop :=
  ∀ (i : Instr) (s t : State) (m : BitVec 3),
    (i.mnemonic.tier = .S ∨ ∃ rm, rmOf i = some rm ∧ rm ≠ .dyn) → exec i s = .next t →
      exec i (s.writeFrm m) = .next (t.writeFrm m)

/-- With destination `x[0]` every register keeps its value, `x[0]` reads zero, `pc` still advances and the flags are those
the same operation raises with any other destination (R21, R70). -/
def Obligations.ZeroDestination : Prop :=
  (∀ (i : Instr) (s t : State), (writesOf i).dest = .x 0#5 → exec i s = .next t →
    t.readX 0#5 = 0#32 ∧ (∀ q, t.readX q = s.readX q) ∧ (∀ q, t.readF q = s.readF q) ∧ t.pc = s.pc + 4#32) ∧
  ∀ (rd : XReg) (rs1 rs2 : FReg) (rm : Rm) (s t u : State),
    (exec (.feqS 0#5 rs1 rs2) s = .next t → exec (.feqS rd rs1 rs2) s = .next u → t.fcsr = u.fcsr) ∧
    (exec (.fltS 0#5 rs1 rs2) s = .next t → exec (.fltS rd rs1 rs2) s = .next u → t.fcsr = u.fcsr) ∧
    (exec (.fleS 0#5 rs1 rs2) s = .next t → exec (.fleS rd rs1 rs2) s = .next u → t.fcsr = u.fcsr) ∧
    (exec (.fmwWS 0#5 rs1 rm) s = .next t → exec (.fmwWS rd rs1 rm) s = .next u → t.fcsr = u.fcsr) ∧
    (exec (.fmwWuS 0#5 rs1 rm) s = .next t → exec (.fmwWuS rd rs1 rm) s = .next u → t.fcsr = u.fcsr)

/-- No instruction reads `pc` as an operand: at another address it does the same (R25). -/
def Obligations.PcIsNotRead : Prop :=
  ∀ (i : Instr) (s t : State) (a : Word), exec i s = .next t →
    exec i { s with pc := a } = .next { t with pc := a + 4#32 }

/-- Code is position-independent: a run of the same text placed `d` bytes higher does the same, `d` bytes higher (R41). -/
def Obligations.RelocatedRunsAgree : Prop :=
  ∀ (n d : Nat) (s t : State), s.legal → (s.relocated d).legal → Sys2Proof.core.run n s = .next t →
    Sys2Proof.core.run n (s.relocated d) = .next (t.relocated d) ∧ (t.final ↔ (t.relocated d).final)

/-- A flag is cleared only by `fscsr` or `fsflags`, and `frm` changes only by `fscsr` or `fsrm`; so with Tier G not
admitted a run never clears a flag and never changes `frm` (R30, R31). -/
def Obligations.OnlyExplicitWritesClearFlags : Prop :=
  ∀ s t : State, step s = .next t →
    (s.fflags &&& t.fflags ≠ s.fflags → ∃ rd rs1,
      decodeWord s.params s.fetchWord = .ok (.fscsr rd rs1) ∨ decodeWord s.params s.fetchWord = .ok (.fsflags rd rs1)) ∧
    (t.frm ≠ s.frm → ∃ rd rs1,
      decodeWord s.params s.fetchWord = .ok (.fscsr rd rs1) ∨ decodeWord s.params s.fetchWord = .ok (.fsrm rd rs1)) ∧
    (s.params.admitGkRows = false → t.frm = s.frm ∧ s.fflags &&& t.fflags = s.fflags)

/-- Every step to a next state moves `pc` to the next word and changes neither the text nor a parameter (R26, R37,
R52). -/
def Obligations.EveryStepAdvances : Prop :=
  ∀ s t : State, step s = .next t →
    t.pc = BitVec.ofNat 32 (s.pc.toNat + 4) ∧ t.params = s.params ∧ t.text = s.text

/-- A fault of a step is one of the two of R200, carries its value and the unchanged state, and is raised exactly on its
condition (R200 to R202, R207). -/
def Obligations.FaultsChangeNothing : Prop :=
  ∀ (s : State) (f : Fault), step s = .fault f →
    (f = .fetchFault s.pc s ∧ ¬ Fetchable s) ∨
    (f = .illegalInstruction s.fetchWord s ∧ Fetchable s ∧
      ((∃ w, decodeWord s.params s.fetchWord = .error (.unlisted w)) ∨
        ∃ i, decodeWord s.params s.fetchWord = .ok i ∧ ReservedMode i s.frm))

/-- Every step keeps a legal state legal: the parameters obey their constraints, `pc` is a multiple of 4, the text is in
canonical form inside its bounds (R27, R36, R41). -/
def Obligations.StepKeepsLegal : Prop :=
  ∀ s t : State, s.legal → step s = .next t → t.legal

/-! ### Reset, launch and the run (spec/10_state.md, spec/70_reset_and_hazards.md) -/

/-- The reset state is a legal launch state with the defaults the spec gives: `pc` = `RESET_PC` = `PROGRAM_BASE`, Tier G
not admitted, `FMW_W_X_POLICY` = `source`, `x[0]` = 0 (R6, R21, R36, R140, R240). -/
def Obligations.ResetIsALegalLaunchState : Prop :=
  State.reset.legal ∧ State.reset.pc = State.reset.params.resetPc ∧
    State.reset.params.resetPc.toNat = State.reset.params.programBase ∧ State.reset.params.admitGkRows = false ∧
    State.reset.params.fmwPolicy = .source ∧ State.reset.readX 0#5 = 0#32

/-- The values the MODEL chose for reset, which the spec leaves open: every register and `fcsr` zero
(notes/assumptions/4.md), the text empty at `0x1000` (notes/assumptions/3.md). -/
def Obligations.ResetChoices : Prop :=
  (∀ r, State.reset.readX r = 0#32) ∧ (∀ r, State.reset.readF r = 0#32) ∧ State.reset.fcsr = 0#8 ∧
    State.reset.params.programBase = 0x1000 ∧ State.reset.params.programLen = 0 ∧ State.reset.text = []

/-- A launch state has `pc` = `RESET_PC`, `x[0]` = 0, and in every other register and in `fcsr` whatever the loader
supplies (R36, R240, R241). -/
def Obligations.LaunchState : Prop :=
  ∀ (p : Params) (text : Memory) (x : Vector Word 31) (f : Vector Word 32) (c : BitVec 8),
    let s := State.launch p text x f c
    s.pc = p.resetPc ∧ s.params = p ∧ s.text = text ∧ s.fcsr = c ∧ s.readX 0#5 = 0#32 ∧
      (∀ k : Fin 31, s.readX (BitVec.ofNat 5 (k + 1)) = x[k]) ∧ ∀ k : Fin 32, s.readF (BitVec.ofNat 5 k) = f[k]

/-- After `n` steps `pc` has moved `n` words and the text and the parameters are those of the start (R26, R242). -/
def Obligations.RunMovesOneWordAStep : Prop :=
  ∀ (n : Nat) (s t : State), Sys2Proof.core.run n s = .next t →
    t.pc = s.pc + BitVec.ofNat 32 (4 * n) ∧ t.params = s.params ∧ t.text = s.text

/-- Every run ends: from a legal state, after at most `PROGRAM_LEN / 4` steps it is final or the next step is a fault
(R245). That the end is the refusal `runFinal` is the model's (notes/assumptions/5.md). -/
def Obligations.EveryRunEnds : Prop :=
  ∀ s : State, s.legal → ∃ (n : Nat) (t : State), n ≤ s.params.programLen / 4 ∧ Sys2Proof.core.run n s = .next t ∧
    (t.final ∧ step t = .refused .runFinal ∨ ∃ f, step t = .fault f)

/-- A run from `PROGRAM_BASE` that becomes final executed each word of the text once and ends with `pc` at the end of the
text (R245). -/
def Obligations.FinalRunExecutesEveryWord : Prop :=
  ∀ (n : Nat) (s t : State), s.legal → s.pc.toNat = s.params.programBase → Sys2Proof.core.run n s = .next t → t.final →
    4 * n = s.params.programLen ∧ t.pc = BitVec.ofNat 32 (s.params.programBase + 4 * n)

/-- The loader of the MODEL (notes/assumptions/8.md): an instruction placed where the next step fetches is the
instruction that step runs, whatever it is, with every register as it was; and the table's word decodes to it. -/
def Obligations.PlacedInstructionRuns : Prop :=
  ∀ (s : State) (i : Instr), s.text.wf →
    let u := s.withFetchWord 32 (encode i).toNat
    step u = exec i u ∧ u.x = s.x ∧ u.f = s.f ∧ u.fcsr = s.fcsr ∧ (s.pc.toNat % 4 = 0 → u.pc = s.pc) ∧
      decodeTableWord 32 (encode i).toNat = some i

end
end

