-- ==== Sys2Proof/Laws/Decode.lean ====
section
/-! SUPPORT. The formats as numbers (the formula of R62), the fields of an assembled word, and what masking an
assembled word gives: the small lemmas of the decoder and the encoder. -/

namespace Sys2Proof

/-! ### An assembled word as a number -/

/-- The number of a concatenation. -/
theorem toNat_append_eq {n k : Nat} (x : BitVec n) (y : BitVec k) :
    (x ++ y).toNat = x.toNat * 2 ^ k + y.toNat := by
  rw [BitVec.toNat_append, ← Nat.shiftLeft_add_eq_or_of_lt y.isLt, Nat.shiftLeft_eq]

/-- The formula of R62. -/
theorem assembleR_toNat (a : BitVec 7) (b c : BitVec 5) (d : BitVec 3) (e : BitVec 5) (f : BitVec 7) :
    (assembleR a b c d e f).toNat =
      a.toNat * 2 ^ 25 + b.toNat * 2 ^ 20 + c.toNat * 2 ^ 15 + d.toNat * 2 ^ 12 + e.toNat * 2 ^ 7 + f.toNat := by
  simp only [assembleR, toNat_append_eq]
  omega

theorem assembleR4_toNat (r a b : BitVec 5) (d : BitVec 3) (e : BitVec 5) (f : BitVec 7) :
    (assembleR4 r a b d e f).toNat =
      r.toNat * 2 ^ 27 + a.toNat * 2 ^ 20 + b.toNat * 2 ^ 15 + d.toNat * 2 ^ 12 + e.toNat * 2 ^ 7 + f.toNat := by
  simp only [assembleR4, toNat_append_eq]
  simp only [BitVec.toNat_ofNat]
  omega

theorem assembleCsr_toNat (a : BitVec 12) (c : BitVec 5) (d : BitVec 3) (e : BitVec 5) (f : BitVec 7) :
    (assembleCsr a c d e f).toNat =
      a.toNat * 2 ^ 20 + c.toNat * 2 ^ 15 + d.toNat * 2 ^ 12 + e.toNat * 2 ^ 7 + f.toNat := by
  simp only [assembleCsr, toNat_append_eq]
  omega

/-! ### The fields of a word as numbers -/

theorem rdField_toNat (w : Word) : (rdField w).toNat = w.toNat / 2 ^ 7 % 32 := by
  simp [rdField, BitVec.extractLsb'_toNat, Nat.shiftRight_eq_div_pow]

theorem rs1Field_toNat (w : Word) : (rs1Field w).toNat = w.toNat / 2 ^ 15 % 32 := by
  simp [rs1Field, BitVec.extractLsb'_toNat, Nat.shiftRight_eq_div_pow]

theorem rs2Field_toNat (w : Word) : (rs2Field w).toNat = w.toNat / 2 ^ 20 % 32 := by
  simp [rs2Field, BitVec.extractLsb'_toNat, Nat.shiftRight_eq_div_pow]

theorem rs3Field_toNat (w : Word) : (rs3Field w).toNat = w.toNat / 2 ^ 27 % 32 := by
  simp [rs3Field, BitVec.extractLsb'_toNat, Nat.shiftRight_eq_div_pow]

theorem rmField_toNat (w : Word) : (rmField w).toNat = w.toNat / 2 ^ 12 % 8 := by
  simp [rmField, BitVec.extractLsb'_toNat, Nat.shiftRight_eq_div_pow]

/-! ### The fields of an assembled word -/

section fields
variable (a : BitVec 7) (b c r : BitVec 5) (d : BitVec 3) (e : BitVec 5) (f : BitVec 7) (k : BitVec 12)

@[simp] theorem rdField_assembleR : rdField (assembleR a b c d e f) = e := by
  apply BitVec.eq_of_toNat_eq; rw [rdField_toNat, assembleR_toNat]; omega
@[simp] theorem rs1Field_assembleR : rs1Field (assembleR a b c d e f) = c := by
  apply BitVec.eq_of_toNat_eq; rw [rs1Field_toNat, assembleR_toNat]; omega
@[simp] theorem rs2Field_assembleR : rs2Field (assembleR a b c d e f) = b := by
  apply BitVec.eq_of_toNat_eq; rw [rs2Field_toNat, assembleR_toNat]; omega
@[simp] theorem rmField_assembleR : rmField (assembleR a b c d e f) = d := by
  apply BitVec.eq_of_toNat_eq; rw [rmField_toNat, assembleR_toNat]; omega

@[simp] theorem rdField_assembleR4 : rdField (assembleR4 r b c d e f) = e := by
  apply BitVec.eq_of_toNat_eq; rw [rdField_toNat, assembleR4_toNat]; omega
@[simp] theorem rs1Field_assembleR4 : rs1Field (assembleR4 r b c d e f) = c := by
  apply BitVec.eq_of_toNat_eq; rw [rs1Field_toNat, assembleR4_toNat]; omega
@[simp] theorem rs2Field_assembleR4 : rs2Field (assembleR4 r b c d e f) = b := by
  apply BitVec.eq_of_toNat_eq; rw [rs2Field_toNat, assembleR4_toNat]; omega
@[simp] theorem rs3Field_assembleR4 : rs3Field (assembleR4 r b c d e f) = r := by
  apply BitVec.eq_of_toNat_eq; rw [rs3Field_toNat, assembleR4_toNat]; omega
@[simp] theorem rmField_assembleR4 : rmField (assembleR4 r b c d e f) = d := by
  apply BitVec.eq_of_toNat_eq; rw [rmField_toNat, assembleR4_toNat]; omega

@[simp] theorem rdField_assembleCsr : rdField (assembleCsr k c d e f) = e := by
  apply BitVec.eq_of_toNat_eq; rw [rdField_toNat, assembleCsr_toNat]; omega
@[simp] theorem rs1Field_assembleCsr : rs1Field (assembleCsr k c d e f) = c := by
  apply BitVec.eq_of_toNat_eq; rw [rs1Field_toNat, assembleCsr_toNat]; omega

end fields

/-! ### Masking an assembled word field by field -/

theorem assembleR_and (a a' : BitVec 7) (b b' c c' : BitVec 5) (d d' : BitVec 3) (e e' : BitVec 5)
    (f f' : BitVec 7) :
    assembleR a b c d e f &&& assembleR a' b' c' d' e' f' =
      assembleR (a &&& a') (b &&& b') (c &&& c') (d &&& d') (e &&& e') (f &&& f') := by
  unfold assembleR
  apply BitVec.eq_of_getLsbD_eq
  intro i _
  simp only [BitVec.getLsbD_and, BitVec.getLsbD_append]
  repeat' split
  all_goals rfl

theorem assembleR4_and (r r' a a' b b' : BitVec 5) (d d' : BitVec 3) (e e' : BitVec 5) (f f' : BitVec 7) :
    assembleR4 r a b d e f &&& assembleR4 r' a' b' d' e' f' =
      assembleR4 (r &&& r') (a &&& a') (b &&& b') (d &&& d') (e &&& e') (f &&& f') := by
  unfold assembleR4
  apply BitVec.eq_of_getLsbD_eq
  intro i _
  simp only [BitVec.getLsbD_and, BitVec.getLsbD_append]
  repeat' split
  all_goals simp

theorem assembleCsr_and (a a' : BitVec 12) (c c' : BitVec 5) (d d' : BitVec 3) (e e' : BitVec 5)
    (f f' : BitVec 7) :
    assembleCsr a c d e f &&& assembleCsr a' c' d' e' f' =
      assembleCsr (a &&& a') (c &&& c') (d &&& d') (e &&& e') (f &&& f') := by
  unfold assembleCsr
  apply BitVec.eq_of_getLsbD_eq
  intro i _
  simp only [BitVec.getLsbD_and, BitVec.getLsbD_append]
  repeat' split
  all_goals rfl

/-! ### The rounding-mode field's codes -/

@[simp] theorem Rm.ofBits_bits (rm : Rm) : Rm.ofBits rm.bits = rm := by cases rm <;> rfl

theorem Rm.bits_ofBits (b : BitVec 3) : (Rm.ofBits b).bits = b := by
  revert b; decide

/-! ### The table -/

theorem mem_all (m : Mnemonic) : m ∈ Mnemonic.all := by cases m <;> decide

/-- What the decoder accepts is an admitted row that the word fits. -/
theorem decodeWord_ok {p : Params} {w : Word} {i : Instr} (h : decodeWord p w = .ok i) :
    ∃ m : Mnemonic, m.admitted p = true ∧ m.fits w = true ∧ i = m.build w := by
  unfold decodeWord at h
  split at h
  · rename_i m hm
    have := List.find?_some hm
    simp only [Bool.and_eq_true] at this
    exact ⟨m, this.1, this.2, by simpa using h.symm⟩
  · simp at h

/-- What the decoder refuses fits no admitted row. -/
theorem decodeWord_error {p : Params} {w : Word} {r : Reject} (h : decodeWord p w = .error r) :
    r = .unlisted w ∧ ∀ m : Mnemonic, m.admitted p = true → m.fits w = false := by
  unfold decodeWord at h
  split at h
  · simp at h
  · rename_i hn
    refine ⟨by simpa using h.symm, fun m hm => ?_⟩
    have := List.find?_eq_none.mp hn m (mem_all m)
    simpa [hm] using this

/-- The instruction built for a row belongs to that row. -/
@[simp] theorem mnemonic_build (m : Mnemonic) (w : Word) : (m.build w).mnemonic = m := by cases m <;> rfl

end Sys2Proof
end

