-- ==== Sys2Proof/Laws/Memory.lean ====
section
/-! SUPPORT. The program text: a write is read back, leaves every other address alone and keeps the canonical form;
two texts in canonical form that read alike are the same list. -/

namespace Sys2Proof.Machine

theorem Memory.read_nil (a : Nat) : Memory.read [] a = Memory.unlisted := rfl

theorem Memory.read_cons (c : Host.Cell) (m : Memory) (a : Nat) :
    Memory.read (c :: m) a = if a = c.1 then c.2 else Memory.read m a := rfl

/-- An address below every listed one is unlisted. -/
theorem Memory.read_of_lt {m : Memory} {a : Nat} (h : ∀ c ∈ m, a < c.1) : m.read a = Memory.unlisted := by
  induction m with
  | nil => rfl
  | cons c m ih =>
    have hc := h c (by simp)
    rw [Memory.read_cons, if_neg (by omega), ih fun d hd => h d (by simp [hd])]

/-- What a write can list: what was listed, and the written pair. -/
theorem Memory.mem_write {m : Memory} {a : Nat} {b : Byte} {c : Host.Cell} (h : c ∈ m.write a b) :
    c ∈ m ∨ c = (a, b) ∧ b ≠ Memory.unlisted := by
  induction m with
  | nil =>
    unfold Memory.write at h
    split at h
    · simp at h
    · rename_i hb; simp at h; exact .inr ⟨h, hb⟩
  | cons d m ih =>
    unfold Memory.write at h
    by_cases hb : b = Memory.unlisted
    · split at h
      · exact .inl h
      · split at h
        · exact .inl (by simp [h])
        · rcases List.mem_cons.mp h with h | h
          · exact .inl (by simp [h])
          · rcases ih h with h | h
            · exact .inl (by simp [h])
            · exact .inr h
    · split at h
      · simp only [List.mem_cons] at h
        rcases h with h | h
        · exact .inr ⟨h, hb⟩
        · exact .inl (by simpa using h)
      · split at h
        · simp only [List.mem_cons] at h
          rcases h with h | h
          · exact .inr ⟨h, hb⟩
          · exact .inl (by simp [h])
        · rcases List.mem_cons.mp h with h | h
          · exact .inl (by simp [h])
          · rcases ih h with h | h
            · exact .inl (by simp [h])
            · exact .inr h

/-- Every write keeps the canonical form. -/
theorem Memory.wf_write {m : Memory} (a : Nat) (b : Byte) (h : m.wf) : (m.write a b).wf := by
  refine ⟨?_, fun c hc => ?_⟩
  · induction m with
    | nil => unfold Memory.write; split <;> simp
    | cons d m ih =>
      obtain ⟨hp, hz⟩ := h
      obtain ⟨hd, hm⟩ := List.pairwise_cons.mp hp
      have ih' := ih ⟨hm, fun c hc => hz c (by simp [hc])⟩
      unfold Memory.write
      split
      · rename_i hlt
        split
        · exact hp
        · refine List.pairwise_cons.mpr ⟨fun c hc => ?_, hp⟩
          rcases List.mem_cons.mp hc with rfl | hc
          · exact hlt
          · exact Nat.lt_trans hlt (hd c hc)
      · split
        · rename_i heq
          split
          · exact hm
          · exact List.pairwise_cons.mpr ⟨fun c hc => heq ▸ hd c hc, hm⟩
        · refine List.pairwise_cons.mpr ⟨fun c hc => ?_, ih'⟩
          rcases Memory.mem_write hc with hc | ⟨rfl, _⟩
          · exact hd c hc
          · simp only; omega
  · rcases Memory.mem_write hc with hc | ⟨rfl, hb⟩
    · exact h.2 c hc
    · exact hb

/-- A read after a write: the written address gives the byte, every other address is as before. -/
theorem Memory.read_write {m : Memory} (h : m.wf) (a : Nat) (b : Byte) (q : Nat) :
    (m.write a b).read q = if q = a then b else m.read q := by
  induction m with
  | nil =>
    unfold Memory.write
    split
    · rename_i hb; subst hb; simp [Memory.read_nil]
    · simp [Memory.read_cons, Memory.read_nil]
  | cons d m ih =>
    obtain ⟨hp, hz⟩ := h
    obtain ⟨hd, hm⟩ := List.pairwise_cons.mp hp
    have ih' := ih ⟨hm, fun c hc => hz c (by simp [hc])⟩
    have below : ∀ x, x < d.1 → Memory.read (d :: m) x = Memory.unlisted := fun x hx =>
      Memory.read_of_lt fun c hc => by
        rcases List.mem_cons.mp hc with rfl | hc
        · exact hx
        · exact Nat.lt_trans hx (hd c hc)
    unfold Memory.write
    split
    · rename_i hlt
      split
      · rename_i hb
        by_cases hq : q = a
        · subst hq; rw [if_pos rfl, hb, below q hlt]
        · rw [if_neg hq]
      · rw [Memory.read_cons]
    · split
      · rename_i _ heq
        have tail : Memory.read m a = Memory.unlisted := Memory.read_of_lt fun c hc => heq ▸ hd c hc
        split
        · rename_i hb
          by_cases hq : q = a
          · subst hq; rw [if_pos rfl, hb, tail]
          · rw [if_neg hq, Memory.read_cons, if_neg (heq ▸ hq)]
        · rw [Memory.read_cons, Memory.read_cons, ← heq]
          by_cases hq : q = a <;> simp [hq]
      · rename_i h1 h2
        rw [Memory.read_cons, ih', Memory.read_cons]
        by_cases hq : q = a
        · subst hq; simp [h2]
        · simp [hq]

/-- Placing a word keeps the canonical form. -/
theorem Memory.wf_writeWord {m : Memory} (a : Nat) (w : Word) (h : m.wf) : (m.writeWord a w).wf :=
  Memory.wf_write _ _ (Memory.wf_write _ _ (Memory.wf_write _ _ (Memory.wf_write _ _ h)))

/-- A read after a word was placed: its four bytes, and every other address as before. -/
theorem Memory.read_writeWord {m : Memory} (h : m.wf) (a : Nat) (w : Word) (q : Nat) :
    (m.writeWord a w).read q =
      if q = a + 3 then byteOfWord w 3 else if q = a + 2 then byteOfWord w 2
      else if q = a + 1 then byteOfWord w 1 else if q = a then byteOfWord w 0 else m.read q := by
  have h0 := Memory.wf_write a (byteOfWord w 0) h
  have h1 := Memory.wf_write (a + 1) (byteOfWord w 1) h0
  have h2 := Memory.wf_write (a + 2) (byteOfWord w 2) h1
  rw [Memory.writeWord, Memory.read_write h2, Memory.read_write h1, Memory.read_write h0, Memory.read_write h]

/-- The bytes of a word, put together again, are the word (R42). -/
theorem wordOfBytes_byteOfWord (w : Word) :
    wordOfBytes (byteOfWord w 0) (byteOfWord w 1) (byteOfWord w 2) (byteOfWord w 3) = w := by
  unfold wordOfBytes byteOfWord
  apply BitVec.eq_of_getLsbD_eq
  intro i hi
  simp only [BitVec.getLsbD_append, BitVec.getLsbD_extractLsb']
  by_cases h0 : i < 8
  · simp [h0]
  · by_cases h1 : i - 8 < 8
    · simp only [h0, h1, if_true, if_false, decide_true, Bool.true_and]
      congr 1; omega
    · by_cases h2 : i - 8 - 8 < 8
      · simp only [h0, h1, h2, if_true, if_false, decide_true, Bool.true_and]
        congr 1; omega
      · have h3 : i - 8 - 8 - 8 < 8 := by omega
        simp only [h0, h1, h2, h3, if_false, decide_true, Bool.true_and]
        congr 1; omega

/-- In canonical form, equal memories are equal data: reading alike everywhere makes the lists the same. -/
theorem Memory.ext_of_wf {m n : Memory} (hm : m.wf) (hn : n.wf) (h : ∀ a, m.read a = n.read a) : m = n := by
  induction m generalizing n with
  | nil =>
    cases n with
    | nil => rfl
    | cons c n =>
      have := h c.1
      rw [Memory.read_nil, Memory.read_cons, if_pos rfl] at this
      exact absurd this.symm (hn.2 c (by simp))
  | cons c m ih =>
    cases n with
    | nil =>
      have := h c.1
      rw [Memory.read_nil, Memory.read_cons, if_pos rfl] at this
      exact absurd this (hm.2 c (by simp))
    | cons d n =>
      obtain ⟨hc, hm'⟩ := List.pairwise_cons.mp hm.1
      obtain ⟨hd, hn'⟩ := List.pairwise_cons.mp hn.1
      have below : ∀ {k : Host.Cell} {l : Memory} {x : Nat}, (∀ e ∈ l, k.1 < e.1) → x < k.1 →
          Memory.read (k :: l) x = Memory.unlisted := fun hk hx =>
        Memory.read_of_lt fun e he => by
          rcases List.mem_cons.mp he with rfl | he
          · exact hx
          · exact Nat.lt_trans hx (hk e he)
      have hk : c.1 = d.1 := by
        rcases Nat.lt_trichotomy c.1 d.1 with hlt | heq | hgt
        · have := h c.1
          rw [below hd hlt, Memory.read_cons, if_pos rfl] at this
          exact absurd this (hm.2 c (by simp))
        · exact heq
        · have := h d.1
          rw [below hc hgt, Memory.read_cons, if_pos rfl] at this
          exact absurd this.symm (hn.2 d (by simp))
      have hv : c.2 = d.2 := by
        have := h c.1
        rwa [Memory.read_cons, if_pos rfl, Memory.read_cons, if_pos hk] at this
      have hcd : c = d := Prod.ext hk hv
      subst hcd
      congr 1
      refine ih ⟨hm', fun e he => hm.2 e (by simp [he])⟩ ⟨hn', fun e he => hn.2 e (by simp [he])⟩ fun a => ?_
      by_cases ha : a = c.1
      · subst ha
        rw [Memory.read_of_lt hc, Memory.read_of_lt hd]
      · have := h a
        rwa [Memory.read_cons, if_neg ha, Memory.read_cons, if_neg ha] at this

end Sys2Proof.Machine
end

