-- ==== Sys2Proof/Laws/State.lean ====
section
/-! SUPPORT. What each state update leaves: one lemma per field, and per accessor, for every update, so that no later
proof unfolds a record update. -/

namespace Sys2Proof.Machine

/-! ### `writeX` -/

@[simp] theorem State.writeX_f (s : State) (r : XReg) (v : Word) : (s.writeX r v).f = s.f := by unfold State.writeX; split <;> rfl
@[simp] theorem State.writeX_fcsr (s : State) (r : XReg) (v : Word) : (s.writeX r v).fcsr = s.fcsr := by unfold State.writeX; split <;> rfl
@[simp] theorem State.writeX_pc (s : State) (r : XReg) (v : Word) : (s.writeX r v).pc = s.pc := by unfold State.writeX; split <;> rfl
@[simp] theorem State.writeX_params (s : State) (r : XReg) (v : Word) : (s.writeX r v).params = s.params := by unfold State.writeX; split <;> rfl
@[simp] theorem State.writeX_text (s : State) (r : XReg) (v : Word) : (s.writeX r v).text = s.text := by unfold State.writeX; split <;> rfl
@[simp] theorem State.readF_writeX (s : State) (r : XReg) (v : Word) (q : FReg) : (s.writeX r v).readF q = s.readF q :=
    by unfold State.writeX; split <;> rfl
@[simp] theorem State.frm_writeX (s : State) (r : XReg) (v : Word) : (s.writeX r v).frm = s.frm :=
    by unfold State.writeX; split <;> rfl
@[simp] theorem State.fflags_writeX (s : State) (r : XReg) (v : Word) : (s.writeX r v).fflags = s.fflags :=
    by unfold State.writeX; split <;> rfl
@[simp] theorem State.readByte_writeX (s : State) (r : XReg) (v : Word) (a : Nat) : (s.writeX r v).readByte a = s.readByte a :=
    by unfold State.writeX; split <;> rfl

/-! ### `writeF` -/

@[simp] theorem State.writeF_x (s : State) (r : FReg) (v : Word) : (s.writeF r v).x = s.x := rfl
theorem State.writeF_f (s : State) (r : FReg) (v : Word) : (s.writeF r v).f = s.f.set r.toNat v (by have := r.isLt; omega) := rfl
@[simp] theorem State.writeF_fcsr (s : State) (r : FReg) (v : Word) : (s.writeF r v).fcsr = s.fcsr := rfl
@[simp] theorem State.writeF_pc (s : State) (r : FReg) (v : Word) : (s.writeF r v).pc = s.pc := rfl
@[simp] theorem State.writeF_params (s : State) (r : FReg) (v : Word) : (s.writeF r v).params = s.params := rfl
@[simp] theorem State.writeF_text (s : State) (r : FReg) (v : Word) : (s.writeF r v).text = s.text := rfl
@[simp] theorem State.readX_writeF (s : State) (r : FReg) (v : Word) (q : XReg) : (s.writeF r v).readX q = s.readX q :=
    rfl
@[simp] theorem State.frm_writeF (s : State) (r : FReg) (v : Word) : (s.writeF r v).frm = s.frm := rfl
@[simp] theorem State.fflags_writeF (s : State) (r : FReg) (v : Word) : (s.writeF r v).fflags = s.fflags := rfl
@[simp] theorem State.readByte_writeF (s : State) (r : FReg) (v : Word) (a : Nat) : (s.writeF r v).readByte a = s.readByte a :=
    rfl

/-! ### `writeFcsr` -/

@[simp] theorem State.writeFcsr_x (s : State) (v : BitVec 8) : (s.writeFcsr v).x = s.x := rfl
@[simp] theorem State.writeFcsr_f (s : State) (v : BitVec 8) : (s.writeFcsr v).f = s.f := rfl
@[simp] theorem State.writeFcsr_fcsr (s : State) (v : BitVec 8) : (s.writeFcsr v).fcsr = v := rfl
@[simp] theorem State.writeFcsr_pc (s : State) (v : BitVec 8) : (s.writeFcsr v).pc = s.pc := rfl
@[simp] theorem State.writeFcsr_params (s : State) (v : BitVec 8) : (s.writeFcsr v).params = s.params := rfl
@[simp] theorem State.writeFcsr_text (s : State) (v : BitVec 8) : (s.writeFcsr v).text = s.text := rfl
@[simp] theorem State.readX_writeFcsr (s : State) (v : BitVec 8) (q : XReg) : (s.writeFcsr v).readX q = s.readX q :=
    rfl
@[simp] theorem State.readF_writeFcsr (s : State) (v : BitVec 8) (q : FReg) : (s.writeFcsr v).readF q = s.readF q :=
    rfl
@[simp] theorem State.readByte_writeFcsr (s : State) (v : BitVec 8) (a : Nat) : (s.writeFcsr v).readByte a = s.readByte a :=
    rfl

/-! ### `writeFrm` -/

@[simp] theorem State.writeFrm_x (s : State) (v : BitVec 3) : (s.writeFrm v).x = s.x := rfl
@[simp] theorem State.writeFrm_f (s : State) (v : BitVec 3) : (s.writeFrm v).f = s.f := rfl
theorem State.writeFrm_fcsr (s : State) (v : BitVec 3) : (s.writeFrm v).fcsr = v ++ s.fflags := rfl
@[simp] theorem State.writeFrm_pc (s : State) (v : BitVec 3) : (s.writeFrm v).pc = s.pc := rfl
@[simp] theorem State.writeFrm_params (s : State) (v : BitVec 3) : (s.writeFrm v).params = s.params := rfl
@[simp] theorem State.writeFrm_text (s : State) (v : BitVec 3) : (s.writeFrm v).text = s.text := rfl
@[simp] theorem State.readX_writeFrm (s : State) (v : BitVec 3) (q : XReg) : (s.writeFrm v).readX q = s.readX q :=
    rfl
@[simp] theorem State.readF_writeFrm (s : State) (v : BitVec 3) (q : FReg) : (s.writeFrm v).readF q = s.readF q :=
    rfl
@[simp] theorem State.readByte_writeFrm (s : State) (v : BitVec 3) (a : Nat) : (s.writeFrm v).readByte a = s.readByte a :=
    rfl

/-! ### `writeFflags` -/

@[simp] theorem State.writeFflags_x (s : State) (v : Flags) : (s.writeFflags v).x = s.x := rfl
@[simp] theorem State.writeFflags_f (s : State) (v : Flags) : (s.writeFflags v).f = s.f := rfl
theorem State.writeFflags_fcsr (s : State) (v : Flags) : (s.writeFflags v).fcsr = s.frm ++ v := rfl
@[simp] theorem State.writeFflags_pc (s : State) (v : Flags) : (s.writeFflags v).pc = s.pc := rfl
@[simp] theorem State.writeFflags_params (s : State) (v : Flags) : (s.writeFflags v).params = s.params := rfl
@[simp] theorem State.writeFflags_text (s : State) (v : Flags) : (s.writeFflags v).text = s.text := rfl
@[simp] theorem State.readX_writeFflags (s : State) (v : Flags) (q : XReg) : (s.writeFflags v).readX q = s.readX q :=
    rfl
@[simp] theorem State.readF_writeFflags (s : State) (v : Flags) (q : FReg) : (s.writeFflags v).readF q = s.readF q :=
    rfl
@[simp] theorem State.readByte_writeFflags (s : State) (v : Flags) (a : Nat) : (s.writeFflags v).readByte a = s.readByte a :=
    rfl

/-! ### `accrue` -/

@[simp] theorem State.accrue_x (s : State) (m : Flags) : (s.accrue m).x = s.x := rfl
@[simp] theorem State.accrue_f (s : State) (m : Flags) : (s.accrue m).f = s.f := rfl
theorem State.accrue_fcsr (s : State) (m : Flags) : (s.accrue m).fcsr = s.frm ++ (s.fflags ||| m) := rfl
@[simp] theorem State.accrue_pc (s : State) (m : Flags) : (s.accrue m).pc = s.pc := rfl
@[simp] theorem State.accrue_params (s : State) (m : Flags) : (s.accrue m).params = s.params := rfl
@[simp] theorem State.accrue_text (s : State) (m : Flags) : (s.accrue m).text = s.text := rfl
@[simp] theorem State.readX_accrue (s : State) (m : Flags) (q : XReg) : (s.accrue m).readX q = s.readX q := rfl
@[simp] theorem State.readF_accrue (s : State) (m : Flags) (q : FReg) : (s.accrue m).readF q = s.readF q := rfl
@[simp] theorem State.readByte_accrue (s : State) (m : Flags) (a : Nat) : (s.accrue m).readByte a = s.readByte a :=
    rfl

/-! ### `advance` -/

@[simp] theorem State.advance_x (s : State) : (s.advance).x = s.x := rfl
@[simp] theorem State.advance_f (s : State) : (s.advance).f = s.f := rfl
@[simp] theorem State.advance_fcsr (s : State) : (s.advance).fcsr = s.fcsr := rfl
@[simp] theorem State.advance_pc (s : State) : (s.advance).pc = BitVec.ofNat 32 (s.pc.toNat + 4) := rfl
@[simp] theorem State.advance_params (s : State) : (s.advance).params = s.params := rfl
@[simp] theorem State.advance_text (s : State) : (s.advance).text = s.text := rfl
@[simp] theorem State.readX_advance (s : State) (q : XReg) : (s.advance).readX q = s.readX q := rfl
@[simp] theorem State.readF_advance (s : State) (q : FReg) : (s.advance).readF q = s.readF q := rfl
@[simp] theorem State.frm_advance (s : State) : (s.advance).frm = s.frm := rfl
@[simp] theorem State.fflags_advance (s : State) : (s.advance).fflags = s.fflags := rfl
@[simp] theorem State.readByte_advance (s : State) (a : Nat) : (s.advance).readByte a = s.readByte a := rfl

/-! ### Reading back what was written -/

/-- `x[0]` reads as zero whatever was written (R21). -/
@[simp] theorem State.readX_zero (s : State) : s.readX 0#5 = 0#32 := rfl

/-- A write to `x[0]` is discarded (R21). -/
@[simp] theorem State.writeX_zero (s : State) (v : Word) : s.writeX 0#5 v = s := rfl

/-- A read of the integer file after a write: `x[0]` is hardwired, the written register holds the value, every other
register is as before (R21). -/
theorem State.readX_writeX (s : State) (r q : XReg) (v : Word) :
    (s.writeX r v).readX q = if q = 0#5 then 0#32 else if q = r then v else s.readX q := by
  by_cases hq : q = 0#5
  · rw [if_pos hq, hq, State.readX_zero]
  · rw [if_neg hq]
    by_cases hr : r = 0#5
    · rw [hr, State.writeX_zero, if_neg hq]
    · have hq0 : q.toNat ≠ 0 := fun h => hq (BitVec.eq_of_toNat_eq h)
      have hr0 : r.toNat ≠ 0 := fun h => hr (BitVec.eq_of_toNat_eq h)
      unfold State.readX State.writeX
      rw [if_neg hq]
      simp only [if_neg hr, if_neg hq]
      by_cases h : q = r
      · subst h; simp
      · have hne : r.toNat - 1 ≠ q.toNat - 1 := fun e => h (BitVec.eq_of_toNat_eq (by omega))
        simp [h, hne]

/-- A read of the floating-point file after a write: none of the 32 is hardwired (R28). -/
theorem State.readF_writeF (s : State) (r q : FReg) (v : Word) :
    (s.writeF r v).readF q = if q = r then v else s.readF q := by
  unfold State.readF State.writeF
  by_cases h : q = r
  · subst h; simp
  · have hne : r.toNat ≠ q.toNat := fun e => h (BitVec.eq_of_toNat_eq e.symm)
    simp [h, hne]

/-- `fcsr[7:0]` is its two fields. -/
theorem State.fcsr_eq (s : State) : s.fcsr = s.frm ++ s.fflags := by
  unfold State.frm State.fflags
  generalize s.fcsr = c
  revert c; decide

theorem frm_append (a : BitVec 3) (b : BitVec 5) : (a ++ b).extractLsb' 5 3 = a :=
  BitVec.extractLsb'_append_eq_left

theorem fflags_append (a : BitVec 3) (b : BitVec 5) : (a ++ b).extractLsb' 0 5 = b :=
  BitVec.extractLsb'_append_eq_right

@[simp] theorem State.frm_writeFrm (s : State) (v : BitVec 3) : (s.writeFrm v).frm = v := frm_append _ _
@[simp] theorem State.fflags_writeFrm (s : State) (v : BitVec 3) : (s.writeFrm v).fflags = s.fflags :=
  fflags_append _ _
@[simp] theorem State.frm_writeFflags (s : State) (v : Flags) : (s.writeFflags v).frm = s.frm := frm_append _ _
@[simp] theorem State.fflags_writeFflags (s : State) (v : Flags) : (s.writeFflags v).fflags = v :=
  fflags_append _ _
@[simp] theorem State.frm_accrue (s : State) (m : Flags) : (s.accrue m).frm = s.frm := frm_append _ _
@[simp] theorem State.fflags_accrue (s : State) (m : Flags) : (s.accrue m).fflags = s.fflags ||| m :=
  fflags_append _ _
theorem State.frm_writeFcsr (s : State) (v : BitVec 8) : (s.writeFcsr v).frm = v.extractLsb' 5 3 := rfl
theorem State.fflags_writeFcsr (s : State) (v : BitVec 8) : (s.writeFcsr v).fflags = v.extractLsb' 0 5 := rfl

/-- Raising no flag changes nothing. -/
@[simp] theorem State.accrue_noFlags (s : State) : s.accrue noFlags = s := by
  have h : (s.accrue noFlags).fcsr = s.fcsr := by
    rw [State.accrue_fcsr, noFlags, show s.fflags ||| 0x00#5 = s.fflags from BitVec.or_zero, ← State.fcsr_eq]
  cases s; simp_all [State.accrue, State.writeFflags]

/-- The advance adds 4 modulo `2^32` (R26). -/
theorem State.advance_pc_eq (s : State) : s.advance.pc = s.pc + 4#32 := by
  apply BitVec.eq_of_toNat_eq
  simp [BitVec.toNat_add]

end Sys2Proof.Machine
end

