-- ==== Sys2Proof/Laws/Machine.lean ====
section
/-! SUPPORT. One lemma per shared operation of the machine, each saying once everything the operation can do: the
operand frames, the rounding-mode check, the fetch, the step and the loader. A proof cites these and does not unfold
what they are about. -/

namespace Sys2Proof.Machine

/-! ### The frames (Machine/Operands.lean) -/

theorem State.accrue_keepsRest {s t : State} {fl : Flags} (hc : t.fcsr = s.fcsr) (hpc : t.pc = s.pc)
    (hp : t.params = s.params) (ht : t.text = s.text) : KeepsRest s fl (t.accrue fl).advance := by
  have h1 : t.fflags = s.fflags := by rw [State.fflags, State.fflags, hc]
  have h2 : t.frm = s.frm := by rw [State.frm, State.frm, hc]
  refine ⟨?_, ?_, ?_, ?_, fun a => ?_⟩
  · rw [State.fflags_advance, State.fflags_accrue, h1]
  · rw [State.frm_advance, State.frm_accrue, h2]
  · rw [State.advance_pc_eq, State.accrue_pc, hpc]
  · rw [State.advance_params, State.accrue_params, hp]
  · rw [State.readByte_advance, State.readByte_accrue, State.readByte, State.readByte, ht]

theorem finishX_spec (rd : XReg) (r : FpResult) (s : State) :
    ∃ t, finishX rd r s = .next t ∧ WritesX s rd r.bits r.flags t :=
  ⟨_, rfl, fun q => by rw [State.readX_advance, State.readX_accrue, State.readX_writeX],
    fun q => by rw [State.readF_advance, State.readF_accrue, State.readF_writeX],
    State.accrue_keepsRest (by simp) (by simp) (by simp) (by simp)⟩

theorem finishF_spec (rd : FReg) (r : FpResult) (s : State) :
    ∃ t, finishF rd r s = .next t ∧ WritesF s rd r.bits r.flags t :=
  ⟨_, rfl, fun q => by rw [State.readX_advance, State.readX_accrue, State.readX_writeF],
    fun q => by rw [State.readF_advance, State.readF_accrue, State.readF_writeF],
    State.accrue_keepsRest (by simp) (by simp) (by simp) (by simp)⟩

theorem execBitsX_eq_finishX (rd : XReg) (v : Word) (s : State) : execBitsX rd v s = finishX rd ⟨v, noFlags⟩ s := by
  rw [execBitsX, finishX, State.accrue_noFlags]

theorem execBitsF_eq_finishF (rd : FReg) (v : Word) (s : State) : execBitsF rd v s = finishF rd ⟨v, noFlags⟩ s := by
  rw [execBitsF, finishF, State.accrue_noFlags]

theorem execBitsX_spec (rd : XReg) (v : Word) (s : State) :
    ∃ t, execBitsX rd v s = .next t ∧ WritesX s rd v 0x00#5 t := by
  rw [execBitsX_eq_finishX]; exact finishX_spec rd ⟨v, noFlags⟩ s

theorem execBitsF_spec (rd : FReg) (v : Word) (s : State) :
    ∃ t, execBitsF rd v s = .next t ∧ WritesF s rd v 0x00#5 t := by
  rw [execBitsF_eq_finishF]; exact finishF_spec rd ⟨v, noFlags⟩ s

theorem execIntOp_spec (op : Word → Word → Word) (rd rs1 rs2 : XReg) (s : State) :
    ∃ t, execIntOp op rd rs1 rs2 s = .next t ∧ WritesX s rd (op (s.readX rs1) (s.readX rs2)) 0x00#5 t :=
  execBitsX_spec rd _ s

theorem execFpOp_spec (op : Word → Word → FpResult) (rd rs1 rs2 : FReg) (s : State) :
    ∃ t, execFpOp op rd rs1 rs2 s = .next t ∧
      WritesF s rd (op (s.readF rs1) (s.readF rs2)).bits (op (s.readF rs1) (s.readF rs2)).flags t :=
  finishF_spec rd _ s

theorem execFpCompare_spec (op : Word → Word → FpResult) (rd : XReg) (rs1 rs2 : FReg) (s : State) :
    ∃ t, execFpCompare op rd rs1 rs2 s = .next t ∧
      WritesX s rd (op (s.readF rs1) (s.readF rs2)).bits (op (s.readF rs1) (s.readF rs2)).flags t :=
  finishX_spec rd _ s

/-! ### The rounding mode (R78, R155) -/

theorem modeOfBits_eq_some_iff (b : BitVec 3) (mode : RoundingMode) :
    modeOfBits b = some mode ↔ b = modeCode mode := by
  revert b; cases mode <;> decide

/-- `resolve` finds exactly the mode that the field selects. -/
theorem resolve_eq_some_iff (rm : Rm) (frm : BitVec 3) (mode : RoundingMode) :
    resolve rm frm = some mode ↔ Selects rm frm mode := by
  cases rm
  case dyn =>
    rw [resolve, modeOfBits_eq_some_iff, Selects]
    cases mode <;> simp [Rm.bits, modeCode]
  all_goals cases mode <;> simp [resolve, Selects, Rm.bits, modeCode]

/-- `resolve` finds no mode exactly where the field selects none. -/
theorem resolve_eq_none_iff (rm : Rm) (frm : BitVec 3) :
    resolve rm frm = none ↔ ∀ mode, ¬ Selects rm frm mode := by
  simp only [← resolve_eq_some_iff]
  cases resolve rm frm <;> simp

theorem withMode_of_selects {rm : Rm} {s : State} {mode : RoundingMode} (h : Selects rm s.frm mode) (i : Instr)
    (run : RoundingMode → Host.Outcome State Fault Refusal) : withMode i rm s run = run mode := by
  rw [withMode, (resolve_eq_some_iff _ _ _).2 h]

theorem withMode_of_reserved {rm : Rm} {s : State} (h : ∀ mode, ¬ Selects rm s.frm mode) (i : Instr)
    (run : RoundingMode → Host.Outcome State Fault Refusal) :
    withMode i rm s run = .fault (.illegalInstruction (encode i) s) := by
  rw [withMode, (resolve_eq_none_iff _ _).2 h]; rfl

/-! ### The fetch and the step (R43, R205, R245) -/

theorem State.atEnd_iff (s : State) : s.atEnd = true ↔ s.pc.toNat = textEnd s.params := by
  rw [State.atEnd, beq_iff_eq]; rfl

theorem State.fetchAdmitted_iff (s : State) : s.fetchAdmitted = true ↔ Fetchable s := by
  simp only [State.fetchAdmitted, Bool.and_eq_true, beq_iff_eq, Nat.ble_eq, and_assoc]

/-- Everything a step can do. -/
theorem step_cases (s : State) :
    (¬ s.params.legal ∧ step s = .refused .illegalParameters) ∨
    (s.final ∧ step s = .refused .runFinal) ∨
    (s.params.legal ∧ ¬ s.final ∧ ¬ Fetchable s ∧ step s = .fault (.fetchFault s.pc s)) ∨
    (s.params.legal ∧ ¬ s.final ∧ Fetchable s ∧ (∃ r, decodeWord s.params s.fetchWord = .error r) ∧
      step s = .fault (.illegalInstruction s.fetchWord s)) ∨
    (∃ i, Runs s i ∧ step s = exec i s) := by
  unfold step
  by_cases hp : s.params.legal
  · rw [if_neg (not_not.2 hp)]
    by_cases he : s.pc.toNat = textEnd s.params
    · rw [if_pos (s.atEnd_iff.2 he)]
      exact .inr (.inl ⟨⟨hp, he⟩, rfl⟩)
    · rw [if_neg (fun h => he (s.atEnd_iff.1 h))]
      by_cases hf : Fetchable s
      · rw [if_pos (s.fetchAdmitted_iff.2 hf)]
        cases hd : decodeWord s.params s.fetchWord with
        | ok i => exact .inr (.inr (.inr (.inr ⟨i, ⟨hp, he, hf, hd⟩, rfl⟩)))
        | error r => exact .inr (.inr (.inr (.inl ⟨hp, fun h => he h.2, hf, ⟨r, rfl⟩, rfl⟩)))
      · rw [if_neg (fun h => hf (s.fetchAdmitted_iff.1 h))]
        exact .inr (.inr (.inl ⟨hp, fun h => he h.2, hf, rfl⟩))
  · rw [if_pos hp]
    exact .inl ⟨hp, rfl⟩

/-! ### The loader (R243) -/

/-- The word placed is the word the next step fetches. -/
theorem State.fetchWord_writeWord {s : State} (h : s.text.wf) (w : Word) :
    ({ s with text := s.text.writeWord s.pc.toNat w } : State).fetchWord = w := by
  have hr := Memory.read_writeWord h s.pc.toNat w
  simp only [State.fetchWord, State.readWord, State.readByte, hr]
  simp [wordOfBytes_byteOfWord]

theorem State.alignedPc_mod (s : State) : s.alignedPc.toNat % 4 = 0 := by
  rw [State.alignedPc, BitVec.toNat_and]
  rw [show (4 : ℕ) = 2 ^ 2 by rfl, ← Nat.and_two_pow_sub_one_eq_mod, Nat.and_assoc]
  simp

end Sys2Proof.Machine
end

