-- ==== Sys2Proof/Laws/PerInstr.lean ====
section
/-! SUPPORT. The statements made per instruction: `EncodesItsRow`, the encoder against the opcode table. -/

/-- The word the encoder writes fits the row of the instruction's mnemonic, and the row builds the instruction back
from it: no operand and no fixed bit is lost between the fields of R61, R76, R77 and the patterns of R66, R75. -/
def Sys2Proof.Laws.EncodesItsRow.Statement (i : Sys2Proof.Instr) : Prop :=
  i.mnemonic.fits (Sys2Proof.encode i) = true ∧ i.mnemonic.build (Sys2Proof.encode i) = i

namespace Sys2Proof

/-! ### A word of each format fits a row that fixes the same fields -/

theorem and_ones3 (x : BitVec 3) : x &&& 7#3 = x := BitVec.and_allOnes
theorem and_ones5 (x : BitVec 5) : x &&& 31#5 = x := BitVec.and_allOnes
theorem and_ones7 (x : BitVec 7) : x &&& 127#7 = x := BitVec.and_allOnes
theorem and_ones12 (x : BitVec 12) : x &&& 4095#12 = x := BitVec.and_allOnes

theorem fits_R {m : Mnemonic} {a : BitVec 7} {d : BitVec 3} {f : BitVec 7}
    (h : m.pattern = ⟨assembleR a 0 0 d 0 f, assembleR 127 0 0 7 0 127⟩) (b c e : BitVec 5) :
    m.fits (assembleR a b c d e f) = true := by
  rw [Mnemonic.fits, h, assembleR_and]
  simp [and_ones7, and_ones3]

theorem fits_R_rs2 {m : Mnemonic} {a : BitVec 7} {b : BitVec 5} {d : BitVec 3} {f : BitVec 7}
    (h : m.pattern = ⟨assembleR a b 0 d 0 f, assembleR 127 31 0 7 0 127⟩) (c e : BitVec 5) :
    m.fits (assembleR a b c d e f) = true := by
  rw [Mnemonic.fits, h, assembleR_and]
  simp [and_ones7, and_ones5, and_ones3]

theorem fits_R_rm {m : Mnemonic} {a : BitVec 7} {b : BitVec 5} {f : BitVec 7}
    (h : m.pattern = ⟨assembleR a b 0 0 0 f, assembleR 127 31 0 0 0 127⟩) (c : BitVec 5) (d : BitVec 3)
    (e : BitVec 5) : m.fits (assembleR a b c d e f) = true := by
  rw [Mnemonic.fits, h, assembleR_and]
  simp [and_ones7, and_ones5]

theorem and_three_append (r : BitVec 5) : ((r ++ 0#2 : BitVec 7) &&& 3#7) = 0#7 := by
  revert r; decide

theorem fits_R4 {m : Mnemonic} {f : BitVec 7}
    (h : m.pattern = ⟨assembleR 0 0 0 0 0 f, assembleR 3 0 0 0 0 127⟩) (r b c : BitVec 5) (d : BitVec 3)
    (e : BitVec 5) : m.fits (assembleR4 r b c d e f) = true := by
  rw [Mnemonic.fits, h, show assembleR4 r b c d e f = assembleR (r ++ 0#2) b c d e f from rfl, assembleR_and]
  simp [and_ones7, and_three_append]

theorem fits_Csr {m : Mnemonic} {a : BitVec 12} {d : BitVec 3} {f : BitVec 7}
    (h : m.pattern = ⟨assembleCsr a 0 d 0 f, assembleCsr 4095 0 7 0 127⟩) (c e : BitVec 5) :
    m.fits (assembleCsr a c d e f) = true := by
  rw [Mnemonic.fits, h, assembleCsr_and]
  simp [and_ones7, and_ones3, and_ones12]

theorem fits_Csr_read {m : Mnemonic} {a : BitVec 12} {c : BitVec 5} {d : BitVec 3} {f : BitVec 7}
    (h : m.pattern = ⟨assembleCsr a c d 0 f, assembleCsr 4095 31 7 0 127⟩) (e : BitVec 5) :
    m.fits (assembleCsr a c d e f) = true := by
  rw [Mnemonic.fits, h, assembleCsr_and]
  simp [and_ones7, and_ones5, and_ones3, and_ones12]

/-! ### One lemma per instruction -/

theorem Laws.EncodesItsRow.add (rd rs1 rs2 : XReg) :
    Laws.EncodesItsRow.Statement (.add rd rs1 rs2) := by
  refine ⟨fits_R rfl _ _ _, ?_⟩
  change Instr.add (rdField (assembleR _ _ _ _ _ _)) (rs1Field (assembleR _ _ _ _ _ _))
    (rs2Field (assembleR _ _ _ _ _ _)) = _
  simp only [rdField_assembleR, rs1Field_assembleR, rs2Field_assembleR]

theorem Laws.EncodesItsRow.sub (rd rs1 rs2 : XReg) :
    Laws.EncodesItsRow.Statement (.sub rd rs1 rs2) := by
  refine ⟨fits_R rfl _ _ _, ?_⟩
  change Instr.sub (rdField (assembleR _ _ _ _ _ _)) (rs1Field (assembleR _ _ _ _ _ _))
    (rs2Field (assembleR _ _ _ _ _ _)) = _
  simp only [rdField_assembleR, rs1Field_assembleR, rs2Field_assembleR]

theorem Laws.EncodesItsRow.sll (rd rs1 rs2 : XReg) :
    Laws.EncodesItsRow.Statement (.sll rd rs1 rs2) := by
  refine ⟨fits_R rfl _ _ _, ?_⟩
  change Instr.sll (rdField (assembleR _ _ _ _ _ _)) (rs1Field (assembleR _ _ _ _ _ _))
    (rs2Field (assembleR _ _ _ _ _ _)) = _
  simp only [rdField_assembleR, rs1Field_assembleR, rs2Field_assembleR]

theorem Laws.EncodesItsRow.slt (rd rs1 rs2 : XReg) :
    Laws.EncodesItsRow.Statement (.slt rd rs1 rs2) := by
  refine ⟨fits_R rfl _ _ _, ?_⟩
  change Instr.slt (rdField (assembleR _ _ _ _ _ _)) (rs1Field (assembleR _ _ _ _ _ _))
    (rs2Field (assembleR _ _ _ _ _ _)) = _
  simp only [rdField_assembleR, rs1Field_assembleR, rs2Field_assembleR]

theorem Laws.EncodesItsRow.sltu (rd rs1 rs2 : XReg) :
    Laws.EncodesItsRow.Statement (.sltu rd rs1 rs2) := by
  refine ⟨fits_R rfl _ _ _, ?_⟩
  change Instr.sltu (rdField (assembleR _ _ _ _ _ _)) (rs1Field (assembleR _ _ _ _ _ _))
    (rs2Field (assembleR _ _ _ _ _ _)) = _
  simp only [rdField_assembleR, rs1Field_assembleR, rs2Field_assembleR]

theorem Laws.EncodesItsRow.xor (rd rs1 rs2 : XReg) :
    Laws.EncodesItsRow.Statement (.xor rd rs1 rs2) := by
  refine ⟨fits_R rfl _ _ _, ?_⟩
  change Instr.xor (rdField (assembleR _ _ _ _ _ _)) (rs1Field (assembleR _ _ _ _ _ _))
    (rs2Field (assembleR _ _ _ _ _ _)) = _
  simp only [rdField_assembleR, rs1Field_assembleR, rs2Field_assembleR]

theorem Laws.EncodesItsRow.srl (rd rs1 rs2 : XReg) :
    Laws.EncodesItsRow.Statement (.srl rd rs1 rs2) := by
  refine ⟨fits_R rfl _ _ _, ?_⟩
  change Instr.srl (rdField (assembleR _ _ _ _ _ _)) (rs1Field (assembleR _ _ _ _ _ _))
    (rs2Field (assembleR _ _ _ _ _ _)) = _
  simp only [rdField_assembleR, rs1Field_assembleR, rs2Field_assembleR]

theorem Laws.EncodesItsRow.sra (rd rs1 rs2 : XReg) :
    Laws.EncodesItsRow.Statement (.sra rd rs1 rs2) := by
  refine ⟨fits_R rfl _ _ _, ?_⟩
  change Instr.sra (rdField (assembleR _ _ _ _ _ _)) (rs1Field (assembleR _ _ _ _ _ _))
    (rs2Field (assembleR _ _ _ _ _ _)) = _
  simp only [rdField_assembleR, rs1Field_assembleR, rs2Field_assembleR]

theorem Laws.EncodesItsRow.or (rd rs1 rs2 : XReg) :
    Laws.EncodesItsRow.Statement (.or rd rs1 rs2) := by
  refine ⟨fits_R rfl _ _ _, ?_⟩
  change Instr.or (rdField (assembleR _ _ _ _ _ _)) (rs1Field (assembleR _ _ _ _ _ _))
    (rs2Field (assembleR _ _ _ _ _ _)) = _
  simp only [rdField_assembleR, rs1Field_assembleR, rs2Field_assembleR]

theorem Laws.EncodesItsRow.and (rd rs1 rs2 : XReg) :
    Laws.EncodesItsRow.Statement (.and rd rs1 rs2) := by
  refine ⟨fits_R rfl _ _ _, ?_⟩
  change Instr.and (rdField (assembleR _ _ _ _ _ _)) (rs1Field (assembleR _ _ _ _ _ _))
    (rs2Field (assembleR _ _ _ _ _ _)) = _
  simp only [rdField_assembleR, rs1Field_assembleR, rs2Field_assembleR]

theorem Laws.EncodesItsRow.mul (rd rs1 rs2 : XReg) :
    Laws.EncodesItsRow.Statement (.mul rd rs1 rs2) := by
  refine ⟨fits_R rfl _ _ _, ?_⟩
  change Instr.mul (rdField (assembleR _ _ _ _ _ _)) (rs1Field (assembleR _ _ _ _ _ _))
    (rs2Field (assembleR _ _ _ _ _ _)) = _
  simp only [rdField_assembleR, rs1Field_assembleR, rs2Field_assembleR]

theorem Laws.EncodesItsRow.mulh (rd rs1 rs2 : XReg) :
    Laws.EncodesItsRow.Statement (.mulh rd rs1 rs2) := by
  refine ⟨fits_R rfl _ _ _, ?_⟩
  change Instr.mulh (rdField (assembleR _ _ _ _ _ _)) (rs1Field (assembleR _ _ _ _ _ _))
    (rs2Field (assembleR _ _ _ _ _ _)) = _
  simp only [rdField_assembleR, rs1Field_assembleR, rs2Field_assembleR]

theorem Laws.EncodesItsRow.mulhsu (rd rs1 rs2 : XReg) :
    Laws.EncodesItsRow.Statement (.mulhsu rd rs1 rs2) := by
  refine ⟨fits_R rfl _ _ _, ?_⟩
  change Instr.mulhsu (rdField (assembleR _ _ _ _ _ _)) (rs1Field (assembleR _ _ _ _ _ _))
    (rs2Field (assembleR _ _ _ _ _ _)) = _
  simp only [rdField_assembleR, rs1Field_assembleR, rs2Field_assembleR]

theorem Laws.EncodesItsRow.mulhu (rd rs1 rs2 : XReg) :
    Laws.EncodesItsRow.Statement (.mulhu rd rs1 rs2) := by
  refine ⟨fits_R rfl _ _ _, ?_⟩
  change Instr.mulhu (rdField (assembleR _ _ _ _ _ _)) (rs1Field (assembleR _ _ _ _ _ _))
    (rs2Field (assembleR _ _ _ _ _ _)) = _
  simp only [rdField_assembleR, rs1Field_assembleR, rs2Field_assembleR]

theorem Laws.EncodesItsRow.div (rd rs1 rs2 : XReg) :
    Laws.EncodesItsRow.Statement (.div rd rs1 rs2) := by
  refine ⟨fits_R rfl _ _ _, ?_⟩
  change Instr.div (rdField (assembleR _ _ _ _ _ _)) (rs1Field (assembleR _ _ _ _ _ _))
    (rs2Field (assembleR _ _ _ _ _ _)) = _
  simp only [rdField_assembleR, rs1Field_assembleR, rs2Field_assembleR]

theorem Laws.EncodesItsRow.divu (rd rs1 rs2 : XReg) :
    Laws.EncodesItsRow.Statement (.divu rd rs1 rs2) := by
  refine ⟨fits_R rfl _ _ _, ?_⟩
  change Instr.divu (rdField (assembleR _ _ _ _ _ _)) (rs1Field (assembleR _ _ _ _ _ _))
    (rs2Field (assembleR _ _ _ _ _ _)) = _
  simp only [rdField_assembleR, rs1Field_assembleR, rs2Field_assembleR]

theorem Laws.EncodesItsRow.rem (rd rs1 rs2 : XReg) :
    Laws.EncodesItsRow.Statement (.rem rd rs1 rs2) := by
  refine ⟨fits_R rfl _ _ _, ?_⟩
  change Instr.rem (rdField (assembleR _ _ _ _ _ _)) (rs1Field (assembleR _ _ _ _ _ _))
    (rs2Field (assembleR _ _ _ _ _ _)) = _
  simp only [rdField_assembleR, rs1Field_assembleR, rs2Field_assembleR]

theorem Laws.EncodesItsRow.remu (rd rs1 rs2 : XReg) :
    Laws.EncodesItsRow.Statement (.remu rd rs1 rs2) := by
  refine ⟨fits_R rfl _ _ _, ?_⟩
  change Instr.remu (rdField (assembleR _ _ _ _ _ _)) (rs1Field (assembleR _ _ _ _ _ _))
    (rs2Field (assembleR _ _ _ _ _ _)) = _
  simp only [rdField_assembleR, rs1Field_assembleR, rs2Field_assembleR]

theorem Laws.EncodesItsRow.fmwWX (rd : FReg) (rs1 : XReg) :
    Laws.EncodesItsRow.Statement (.fmwWX rd rs1) := by
  refine ⟨fits_R_rs2 rfl _ _, ?_⟩
  change Instr.fmwWX (rdField (assembleR _ _ _ _ _ _)) (rs1Field (assembleR _ _ _ _ _ _)) = _
  simp only [rdField_assembleR, rs1Field_assembleR]

theorem Laws.EncodesItsRow.fmwXW (rd : XReg) (rs1 : FReg) :
    Laws.EncodesItsRow.Statement (.fmwXW rd rs1) := by
  refine ⟨fits_R_rs2 rfl _ _, ?_⟩
  change Instr.fmwXW (rdField (assembleR _ _ _ _ _ _)) (rs1Field (assembleR _ _ _ _ _ _)) = _
  simp only [rdField_assembleR, rs1Field_assembleR]

theorem Laws.EncodesItsRow.fcvtSW (rd : FReg) (rs1 : XReg) (rm : Rm) :
    Laws.EncodesItsRow.Statement (.fcvtSW rd rs1 rm) := by
  refine ⟨fits_R_rm rfl _ _ _, ?_⟩
  change Instr.fcvtSW (rdField (assembleR _ _ _ _ _ _)) (rs1Field (assembleR _ _ _ _ _ _))
    (.ofBits (rmField (assembleR _ _ _ _ _ _))) = _
  simp only [rdField_assembleR, rs1Field_assembleR, rmField_assembleR, Rm.ofBits_bits]

theorem Laws.EncodesItsRow.fcvtSWu (rd : FReg) (rs1 : XReg) (rm : Rm) :
    Laws.EncodesItsRow.Statement (.fcvtSWu rd rs1 rm) := by
  refine ⟨fits_R_rm rfl _ _ _, ?_⟩
  change Instr.fcvtSWu (rdField (assembleR _ _ _ _ _ _)) (rs1Field (assembleR _ _ _ _ _ _))
    (.ofBits (rmField (assembleR _ _ _ _ _ _))) = _
  simp only [rdField_assembleR, rs1Field_assembleR, rmField_assembleR, Rm.ofBits_bits]

theorem Laws.EncodesItsRow.fmwWS (rd : XReg) (rs1 : FReg) (rm : Rm) :
    Laws.EncodesItsRow.Statement (.fmwWS rd rs1 rm) := by
  refine ⟨fits_R_rm rfl _ _ _, ?_⟩
  change Instr.fmwWS (rdField (assembleR _ _ _ _ _ _)) (rs1Field (assembleR _ _ _ _ _ _))
    (.ofBits (rmField (assembleR _ _ _ _ _ _))) = _
  simp only [rdField_assembleR, rs1Field_assembleR, rmField_assembleR, Rm.ofBits_bits]

theorem Laws.EncodesItsRow.fmwWuS (rd : XReg) (rs1 : FReg) (rm : Rm) :
    Laws.EncodesItsRow.Statement (.fmwWuS rd rs1 rm) := by
  refine ⟨fits_R_rm rfl _ _ _, ?_⟩
  change Instr.fmwWuS (rdField (assembleR _ _ _ _ _ _)) (rs1Field (assembleR _ _ _ _ _ _))
    (.ofBits (rmField (assembleR _ _ _ _ _ _))) = _
  simp only [rdField_assembleR, rs1Field_assembleR, rmField_assembleR, Rm.ofBits_bits]

theorem Laws.EncodesItsRow.faddS (rd rs1 rs2 : FReg) :
    Laws.EncodesItsRow.Statement (.faddS rd rs1 rs2) := by
  refine ⟨fits_R rfl _ _ _, ?_⟩
  change Instr.faddS (rdField (assembleR _ _ _ _ _ _)) (rs1Field (assembleR _ _ _ _ _ _))
    (rs2Field (assembleR _ _ _ _ _ _)) = _
  simp only [rdField_assembleR, rs1Field_assembleR, rs2Field_assembleR]

theorem Laws.EncodesItsRow.fsubS (rd rs1 rs2 : FReg) :
    Laws.EncodesItsRow.Statement (.fsubS rd rs1 rs2) := by
  refine ⟨fits_R rfl _ _ _, ?_⟩
  change Instr.fsubS (rdField (assembleR _ _ _ _ _ _)) (rs1Field (assembleR _ _ _ _ _ _))
    (rs2Field (assembleR _ _ _ _ _ _)) = _
  simp only [rdField_assembleR, rs1Field_assembleR, rs2Field_assembleR]

theorem Laws.EncodesItsRow.fmulS (rd rs1 rs2 : FReg) :
    Laws.EncodesItsRow.Statement (.fmulS rd rs1 rs2) := by
  refine ⟨fits_R rfl _ _ _, ?_⟩
  change Instr.fmulS (rdField (assembleR _ _ _ _ _ _)) (rs1Field (assembleR _ _ _ _ _ _))
    (rs2Field (assembleR _ _ _ _ _ _)) = _
  simp only [rdField_assembleR, rs1Field_assembleR, rs2Field_assembleR]

theorem Laws.EncodesItsRow.fdivS (rd rs1 rs2 : FReg) :
    Laws.EncodesItsRow.Statement (.fdivS rd rs1 rs2) := by
  refine ⟨fits_R rfl _ _ _, ?_⟩
  change Instr.fdivS (rdField (assembleR _ _ _ _ _ _)) (rs1Field (assembleR _ _ _ _ _ _))
    (rs2Field (assembleR _ _ _ _ _ _)) = _
  simp only [rdField_assembleR, rs1Field_assembleR, rs2Field_assembleR]

theorem Laws.EncodesItsRow.fsqrtS (rd rs1 : FReg) :
    Laws.EncodesItsRow.Statement (.fsqrtS rd rs1) := by
  refine ⟨fits_R_rs2 rfl _ _, ?_⟩
  change Instr.fsqrtS (rdField (assembleR _ _ _ _ _ _)) (rs1Field (assembleR _ _ _ _ _ _)) = _
  simp only [rdField_assembleR, rs1Field_assembleR]

theorem Laws.EncodesItsRow.fmaddS (rd rs1 rs2 rs3 : FReg) (rm : Rm) :
    Laws.EncodesItsRow.Statement (.fmaddS rd rs1 rs2 rs3 rm) := by
  refine ⟨fits_R4 rfl _ _ _ _ _, ?_⟩
  change Instr.fmaddS (rdField (assembleR4 _ _ _ _ _ _)) (rs1Field (assembleR4 _ _ _ _ _ _)) (rs2Field (assembleR4 _ _ _ _ _ _))
    (rs3Field (assembleR4 _ _ _ _ _ _)) (.ofBits (rmField (assembleR4 _ _ _ _ _ _))) = _
  simp only [rdField_assembleR4, rs1Field_assembleR4, rs2Field_assembleR4, rs3Field_assembleR4, rmField_assembleR4, Rm.ofBits_bits]

theorem Laws.EncodesItsRow.fmsubS (rd rs1 rs2 rs3 : FReg) (rm : Rm) :
    Laws.EncodesItsRow.Statement (.fmsubS rd rs1 rs2 rs3 rm) := by
  refine ⟨fits_R4 rfl _ _ _ _ _, ?_⟩
  change Instr.fmsubS (rdField (assembleR4 _ _ _ _ _ _)) (rs1Field (assembleR4 _ _ _ _ _ _)) (rs2Field (assembleR4 _ _ _ _ _ _))
    (rs3Field (assembleR4 _ _ _ _ _ _)) (.ofBits (rmField (assembleR4 _ _ _ _ _ _))) = _
  simp only [rdField_assembleR4, rs1Field_assembleR4, rs2Field_assembleR4, rs3Field_assembleR4, rmField_assembleR4, Rm.ofBits_bits]

theorem Laws.EncodesItsRow.fnmsubS (rd rs1 rs2 rs3 : FReg) (rm : Rm) :
    Laws.EncodesItsRow.Statement (.fnmsubS rd rs1 rs2 rs3 rm) := by
  refine ⟨fits_R4 rfl _ _ _ _ _, ?_⟩
  change Instr.fnmsubS (rdField (assembleR4 _ _ _ _ _ _)) (rs1Field (assembleR4 _ _ _ _ _ _)) (rs2Field (assembleR4 _ _ _ _ _ _))
    (rs3Field (assembleR4 _ _ _ _ _ _)) (.ofBits (rmField (assembleR4 _ _ _ _ _ _))) = _
  simp only [rdField_assembleR4, rs1Field_assembleR4, rs2Field_assembleR4, rs3Field_assembleR4, rmField_assembleR4, Rm.ofBits_bits]

theorem Laws.EncodesItsRow.fnmaddS (rd rs1 rs2 rs3 : FReg) (rm : Rm) :
    Laws.EncodesItsRow.Statement (.fnmaddS rd rs1 rs2 rs3 rm) := by
  refine ⟨fits_R4 rfl _ _ _ _ _, ?_⟩
  change Instr.fnmaddS (rdField (assembleR4 _ _ _ _ _ _)) (rs1Field (assembleR4 _ _ _ _ _ _)) (rs2Field (assembleR4 _ _ _ _ _ _))
    (rs3Field (assembleR4 _ _ _ _ _ _)) (.ofBits (rmField (assembleR4 _ _ _ _ _ _))) = _
  simp only [rdField_assembleR4, rs1Field_assembleR4, rs2Field_assembleR4, rs3Field_assembleR4, rmField_assembleR4, Rm.ofBits_bits]

theorem Laws.EncodesItsRow.fsgnjS (rd rs1 rs2 : FReg) :
    Laws.EncodesItsRow.Statement (.fsgnjS rd rs1 rs2) := by
  refine ⟨fits_R rfl _ _ _, ?_⟩
  change Instr.fsgnjS (rdField (assembleR _ _ _ _ _ _)) (rs1Field (assembleR _ _ _ _ _ _))
    (rs2Field (assembleR _ _ _ _ _ _)) = _
  simp only [rdField_assembleR, rs1Field_assembleR, rs2Field_assembleR]

theorem Laws.EncodesItsRow.fsgnjnS (rd rs1 rs2 : FReg) :
    Laws.EncodesItsRow.Statement (.fsgnjnS rd rs1 rs2) := by
  refine ⟨fits_R rfl _ _ _, ?_⟩
  change Instr.fsgnjnS (rdField (assembleR _ _ _ _ _ _)) (rs1Field (assembleR _ _ _ _ _ _))
    (rs2Field (assembleR _ _ _ _ _ _)) = _
  simp only [rdField_assembleR, rs1Field_assembleR, rs2Field_assembleR]

theorem Laws.EncodesItsRow.fsgnjxS (rd rs1 rs2 : FReg) :
    Laws.EncodesItsRow.Statement (.fsgnjxS rd rs1 rs2) := by
  refine ⟨fits_R rfl _ _ _, ?_⟩
  change Instr.fsgnjxS (rdField (assembleR _ _ _ _ _ _)) (rs1Field (assembleR _ _ _ _ _ _))
    (rs2Field (assembleR _ _ _ _ _ _)) = _
  simp only [rdField_assembleR, rs1Field_assembleR, rs2Field_assembleR]

theorem Laws.EncodesItsRow.fminS (rd rs1 rs2 : FReg) :
    Laws.EncodesItsRow.Statement (.fminS rd rs1 rs2) := by
  refine ⟨fits_R rfl _ _ _, ?_⟩
  change Instr.fminS (rdField (assembleR _ _ _ _ _ _)) (rs1Field (assembleR _ _ _ _ _ _))
    (rs2Field (assembleR _ _ _ _ _ _)) = _
  simp only [rdField_assembleR, rs1Field_assembleR, rs2Field_assembleR]

theorem Laws.EncodesItsRow.fmaxS (rd rs1 rs2 : FReg) :
    Laws.EncodesItsRow.Statement (.fmaxS rd rs1 rs2) := by
  refine ⟨fits_R rfl _ _ _, ?_⟩
  change Instr.fmaxS (rdField (assembleR _ _ _ _ _ _)) (rs1Field (assembleR _ _ _ _ _ _))
    (rs2Field (assembleR _ _ _ _ _ _)) = _
  simp only [rdField_assembleR, rs1Field_assembleR, rs2Field_assembleR]

theorem Laws.EncodesItsRow.feqS (rd : XReg) (rs1 rs2 : FReg) :
    Laws.EncodesItsRow.Statement (.feqS rd rs1 rs2) := by
  refine ⟨fits_R rfl _ _ _, ?_⟩
  change Instr.feqS (rdField (assembleR _ _ _ _ _ _)) (rs1Field (assembleR _ _ _ _ _ _))
    (rs2Field (assembleR _ _ _ _ _ _)) = _
  simp only [rdField_assembleR, rs1Field_assembleR, rs2Field_assembleR]

theorem Laws.EncodesItsRow.fltS (rd : XReg) (rs1 rs2 : FReg) :
    Laws.EncodesItsRow.Statement (.fltS rd rs1 rs2) := by
  refine ⟨fits_R rfl _ _ _, ?_⟩
  change Instr.fltS (rdField (assembleR _ _ _ _ _ _)) (rs1Field (assembleR _ _ _ _ _ _))
    (rs2Field (assembleR _ _ _ _ _ _)) = _
  simp only [rdField_assembleR, rs1Field_assembleR, rs2Field_assembleR]

theorem Laws.EncodesItsRow.fleS (rd : XReg) (rs1 rs2 : FReg) :
    Laws.EncodesItsRow.Statement (.fleS rd rs1 rs2) := by
  refine ⟨fits_R rfl _ _ _, ?_⟩
  change Instr.fleS (rdField (assembleR _ _ _ _ _ _)) (rs1Field (assembleR _ _ _ _ _ _))
    (rs2Field (assembleR _ _ _ _ _ _)) = _
  simp only [rdField_assembleR, rs1Field_assembleR, rs2Field_assembleR]

theorem Laws.EncodesItsRow.fclassS (rd : XReg) (rs1 : FReg) :
    Laws.EncodesItsRow.Statement (.fclassS rd rs1) := by
  refine ⟨fits_R_rs2 rfl _ _, ?_⟩
  change Instr.fclassS (rdField (assembleR _ _ _ _ _ _)) (rs1Field (assembleR _ _ _ _ _ _)) = _
  simp only [rdField_assembleR, rs1Field_assembleR]

theorem Laws.EncodesItsRow.frcsr (rd : XReg) :
    Laws.EncodesItsRow.Statement (.frcsr rd) := by
  refine ⟨fits_Csr_read rfl _, ?_⟩
  change Instr.frcsr (rdField (assembleCsr _ _ _ _ _)) = _
  simp only [rdField_assembleCsr]

theorem Laws.EncodesItsRow.frrm (rd : XReg) :
    Laws.EncodesItsRow.Statement (.frrm rd) := by
  refine ⟨fits_Csr_read rfl _, ?_⟩
  change Instr.frrm (rdField (assembleCsr _ _ _ _ _)) = _
  simp only [rdField_assembleCsr]

theorem Laws.EncodesItsRow.frflags (rd : XReg) :
    Laws.EncodesItsRow.Statement (.frflags rd) := by
  refine ⟨fits_Csr_read rfl _, ?_⟩
  change Instr.frflags (rdField (assembleCsr _ _ _ _ _)) = _
  simp only [rdField_assembleCsr]

theorem Laws.EncodesItsRow.fscsr (rd rs1 : XReg) :
    Laws.EncodesItsRow.Statement (.fscsr rd rs1) := by
  refine ⟨fits_Csr rfl _ _, ?_⟩
  change Instr.fscsr (rdField (assembleCsr _ _ _ _ _)) (rs1Field (assembleCsr _ _ _ _ _)) = _
  simp only [rdField_assembleCsr, rs1Field_assembleCsr]

theorem Laws.EncodesItsRow.fsrm (rd rs1 : XReg) :
    Laws.EncodesItsRow.Statement (.fsrm rd rs1) := by
  refine ⟨fits_Csr rfl _ _, ?_⟩
  change Instr.fsrm (rdField (assembleCsr _ _ _ _ _)) (rs1Field (assembleCsr _ _ _ _ _)) = _
  simp only [rdField_assembleCsr, rs1Field_assembleCsr]

theorem Laws.EncodesItsRow.fsflags (rd rs1 : XReg) :
    Laws.EncodesItsRow.Statement (.fsflags rd rs1) := by
  refine ⟨fits_Csr rfl _ _, ?_⟩
  change Instr.fsflags (rdField (assembleCsr _ _ _ _ _)) (rs1Field (assembleCsr _ _ _ _ _)) = _
  simp only [rdField_assembleCsr, rs1Field_assembleCsr]

end Sys2Proof
end

