-- ==== Sys2Proof/Laws/Rounding.lean ====
section
/-! SUPPORT. The integer rounding of Machine/Rounding.lean is the rounding of spec/42_rv32f_move_convert_arith.md R133
over the rationals: `roundMag_rounded` says once everything `roundMag` can do. -/

namespace Sys2Proof.Machine

/-! ### Magnitudes as rational numbers -/

/-- The number a magnitude stands for. -/
def Mag.toRat (m : Mag) : ℚ := (m.num : ℚ) / m.den

theorem two_zpow_toNat (k : ℤ) : (2 : ℚ) ^ k.toNat / 2 ^ (-k).toNat = 2 ^ k := by
  rcases le_total 0 k with h | h
  · obtain ⟨n, rfl⟩ := Int.eq_ofNat_of_zero_le h
    simp
  · obtain ⟨n, hn⟩ := Int.eq_ofNat_of_zero_le (Int.neg_nonneg_of_nonpos h)
    obtain rfl : k = -(n : ℤ) := by omega
    simp

theorem Mag.mulPow2_toRat (m : Mag) (k : ℤ) : (m.mulPow2 k).toRat = m.toRat * 2 ^ k := by
  rw [← two_zpow_toNat k]
  simp only [Mag.mulPow2, Mag.toRat]
  push_cast
  rw [mul_div_mul_comm]

theorem Mag.mulPow2_den_pos {m : Mag} (h : 0 < m.den) (k : ℤ) : 0 < (m.mulPow2 k).den := by
  simp only [Mag.mulPow2]; positivity

theorem Mag.scaled_toRat (n : ℕ) (k : ℤ) : (Mag.scaled n k).toRat = n * 2 ^ k := by
  rw [Mag.scaled, Mag.mulPow2_toRat]; simp [Mag.toRat]

theorem Mag.scaled_den_pos (n : ℕ) (k : ℤ) : 0 < (Mag.scaled n k).den :=
  Mag.mulPow2_den_pos (m := ⟨n, 1⟩) Nat.one_pos k

theorem Mag.lt_iff {a b : Mag} (ha : 0 < a.den) (hb : 0 < b.den) : a.lt b = true ↔ a.toRat < b.toRat := by
  have ha' : (0 : ℚ) < a.den := by exact_mod_cast ha
  have hb' : (0 : ℚ) < b.den := by exact_mod_cast hb
  rw [Mag.toRat, Mag.toRat, div_lt_div_iff₀ ha' hb', Mag.lt, Nat.blt_eq]
  exact_mod_cast Iff.rfl

theorem Mag.eqv_iff {a b : Mag} (ha : 0 < a.den) (hb : 0 < b.den) : a.eqv b = true ↔ a.toRat = b.toRat := by
  have ha' : (a.den : ℚ) ≠ 0 := by exact_mod_cast ha.ne'
  have hb' : (b.den : ℚ) ≠ 0 := by exact_mod_cast hb.ne'
  rw [Mag.toRat, Mag.toRat, div_eq_div_iff ha' hb', Mag.eqv, beq_iff_eq]
  exact_mod_cast Iff.rfl

theorem Mag.toRat_pos {m : Mag} (hn : 0 < m.num) (hd : 0 < m.den) : 0 < m.toRat := by
  unfold Mag.toRat; positivity

/-! ### The exponent -/

/-- `floorLog2` is the `e` of R133. -/
theorem Mag.floorLog2_spec {m : Mag} (hn : 0 < m.num) (hd : 0 < m.den) :
    (2 : ℚ) ^ m.floorLog2 ≤ m.toRat ∧ m.toRat < 2 ^ (m.floorLog2 + 1) := by
  have hd' : (0 : ℚ) < m.den := by exact_mod_cast hd
  have n1 : (2 : ℚ) ^ (m.num.log2 : ℤ) ≤ m.num := by
    rw [zpow_natCast]; exact_mod_cast Nat.log2_self_le hn.ne'
  have n2 : (m.num : ℚ) < 2 ^ ((m.num.log2 : ℤ) + 1) := by
    have : m.num < 2 ^ (m.num.log2 + 1) := Nat.lt_log2_self
    exact_mod_cast this
  have d1 : (2 : ℚ) ^ (m.den.log2 : ℤ) ≤ m.den := by
    rw [zpow_natCast]; exact_mod_cast Nat.log2_self_le hd.ne'
  have d2 : (m.den : ℚ) < 2 ^ ((m.den.log2 : ℤ) + 1) := by
    have : m.den < 2 ^ (m.den.log2 + 1) := Nat.lt_log2_self
    exact_mod_cast this
  have two : (2 : ℚ) ≠ 0 := by norm_num
  -- num / den lies strictly between 2^(k-1) and 2^(k+1)
  have lo : (2 : ℚ) ^ ((m.num.log2 : ℤ) - m.den.log2 - 1) ≤ m.toRat := by
    rw [Mag.toRat, le_div_iff₀ hd']
    calc (2 : ℚ) ^ ((m.num.log2 : ℤ) - m.den.log2 - 1) * m.den
        ≤ 2 ^ ((m.num.log2 : ℤ) - m.den.log2 - 1) * 2 ^ ((m.den.log2 : ℤ) + 1) := by gcongr
      _ = 2 ^ (m.num.log2 : ℤ) := by rw [← zpow_add₀ two]; congr 1; ring
      _ ≤ m.num := n1
  have hi : m.toRat < (2 : ℚ) ^ ((m.num.log2 : ℤ) - m.den.log2 + 1) := by
    rw [Mag.toRat, div_lt_iff₀ hd']
    calc (m.num : ℚ) < 2 ^ ((m.num.log2 : ℤ) + 1) := n2
      _ = 2 ^ ((m.num.log2 : ℤ) - m.den.log2 + 1) * 2 ^ (m.den.log2 : ℤ) := by
          rw [← zpow_add₀ two]; congr 1; ring
      _ ≤ 2 ^ ((m.num.log2 : ℤ) - m.den.log2 + 1) * m.den := by gcongr
  simp only [Mag.floorLog2]
  split
  · next h =>
    rw [Mag.lt_iff hd (Mag.scaled_den_pos _ _), Mag.scaled_toRat] at h
    refine ⟨lo, ?_⟩
    rw [sub_add_cancel]
    simpa using h
  · next h =>
    rw [Bool.not_eq_true, ← Bool.not_eq_true, Mag.lt_iff hd (Mag.scaled_den_pos _ _), Mag.scaled_toRat] at h
    refine ⟨?_, hi⟩
    simpa using h

/-! ### The integer rounding -/

theorem Mag.floor_toRat (u : Mag) : ⌊u.toRat⌋ = ((u.num / u.den : ℕ) : ℤ) := by
  rw [Mag.toRat, Rat.floor_natCast_div_natCast]; rfl

theorem Mag.fract_toRat {u : Mag} (hd : 0 < u.den) :
    u.toRat - ((u.num / u.den : ℕ) : ℚ) = ((u.num % u.den : ℕ) : ℚ) / u.den := by
  have hd' : (u.den : ℚ) ≠ 0 := by exact_mod_cast hd.ne'
  have h : (u.num : ℚ) = u.den * (u.num / u.den : ℕ) + (u.num % u.den : ℕ) := by
    exact_mod_cast (Nat.div_add_mod u.num u.den).symm
  rw [Mag.toRat, eq_div_iff hd', sub_mul, div_mul_cancel₀ _ hd']
  linarith

theorem Mag.ceil_toRat {u : Mag} (hd : 0 < u.den) :
    ⌈u.toRat⌉ = ((if u.num % u.den = 0 then u.num / u.den else u.num / u.den + 1 : ℕ) : ℤ) := by
  have hd' : (0 : ℚ) < u.den := by exact_mod_cast hd
  have hf := Mag.fract_toRat hd
  have hlt : ((u.num % u.den : ℕ) : ℚ) < u.den := by exact_mod_cast Nat.mod_lt _ hd
  rw [Int.ceil_eq_iff]
  generalize u.num / u.den = q at *
  split
  · next h =>
    rw [h] at hf
    simp only [Nat.cast_zero, zero_div, sub_eq_zero] at hf
    rw [hf]
    push_cast
    constructor <;> linarith
  · next h =>
    have h0 : (0 : ℚ) < ((u.num % u.den : ℕ) : ℚ) / u.den := by
      have : 0 < u.num % u.den := Nat.pos_of_ne_zero h
      positivity
    have h1 : ((u.num % u.den : ℕ) : ℚ) / u.den < 1 := (div_lt_one hd').2 hlt
    push_cast at *
    constructor <;> linarith

/-- The integer rounding is `rint` of R133. -/
theorem rint_eq (rm : RoundingMode) (neg : Bool) {u : Mag} (hd : 0 < u.den) :
    rintExact rm neg u.toRat = ((rint rm neg u : ℕ) : ℤ) := by
  have hd' : (0 : ℚ) < u.den := by exact_mod_cast hd
  have hf := Mag.fract_toRat hd
  have lt_half : u.toRat - (((u.num / u.den : ℕ) : ℤ) : ℚ) < 1 / 2 ↔ 2 * (u.num % u.den) < u.den := by
    rw [Int.cast_natCast, hf, div_lt_div_iff₀ hd' two_pos]
    constructor
    · intro h
      have : ((u.num % u.den : ℕ) : ℚ) * 2 < u.den := by linarith
      have : (u.num % u.den) * 2 < u.den := by exact_mod_cast this
      omega
    · intro h
      have : ((2 * (u.num % u.den) : ℕ) : ℚ) < u.den := by exact_mod_cast h
      push_cast at *
      linarith
  have half_lt : 1 / 2 < u.toRat - (((u.num / u.den : ℕ) : ℤ) : ℚ) ↔ u.den < 2 * (u.num % u.den) := by
    rw [Int.cast_natCast, hf, div_lt_div_iff₀ two_pos hd']
    constructor
    · intro h
      have : (u.den : ℚ) < ((u.num % u.den : ℕ) : ℚ) * 2 := by linarith
      have : u.den < (u.num % u.den) * 2 := by exact_mod_cast this
      omega
    · intro h
      have : (u.den : ℚ) < ((2 * (u.num % u.den) : ℕ) : ℚ) := by exact_mod_cast h
      push_cast at *
      linarith
  cases rm <;> simp only [rintExact, rint, Mag.floor_toRat, Mag.ceil_toRat hd, lt_half, half_lt]
  · have even : (((u.num / u.den : ℕ) : ℤ) % 2 = 0) ↔ u.num / u.den % 2 = 0 := by omega
    simp only [even]
    split_ifs <;> simp
  · split_ifs <;> simp
  · cases neg <;> simp
  · split_ifs <;> simp

/-- The integer rounding lies between the floor and the ceiling. -/
theorem rint_bounds (rm : RoundingMode) (neg : Bool) {u : Mag} (hd : 0 < u.den) :
    u.num / u.den ≤ rint rm neg u ∧
      rint rm neg u ≤ (if u.num % u.den = 0 then u.num / u.den else u.num / u.den + 1) := by
  cases rm <;> simp only [rint] <;> generalize u.num / u.den = q <;> generalize u.num % u.den = r <;>
    generalize u.den = d at * <;> split_ifs <;> omega

/-! ### The patterns -/

theorem fpPattern_sign (neg : Bool) (e f : ℕ) : fpSign (fpPattern neg e f) = neg := by
  have h : (fpPattern neg e f).msb = (fpPattern neg e f).getLsbD 31 := rfl
  rw [fpSign, h]
  simp only [fpPattern, BitVec.getLsbD_append]
  cases neg <;> simp

theorem fpPattern_exp (neg : Bool) {e : ℕ} (he : e < 256) (f : ℕ) : fpExp (fpPattern neg e f) = e := by
  have h : (fpPattern neg e f).extractLsb' 23 8 = BitVec.ofNat 8 e := by
    ext i hi
    simp only [fpPattern, BitVec.getElem_extractLsb', BitVec.getLsbD_append]
    simp [show ¬ (23 + i < 23) by omega, hi]
  rw [fpExp, h, BitVec.toNat_ofNat, Nat.mod_eq_of_lt he]

theorem fpPattern_frac (neg : Bool) (e : ℕ) {f : ℕ} (hf : f < 2 ^ 23) : fpFrac (fpPattern neg e f) = f := by
  have h : (fpPattern neg e f).extractLsb' 0 23 = BitVec.ofNat 23 f := by
    ext i hi
    simp only [fpPattern, BitVec.getElem_extractLsb', BitVec.getLsbD_append]
    simp [hi]
  rw [fpFrac, h, BitVec.toNat_ofNat, Nat.mod_eq_of_lt hf]

theorem abs_val (v : Word) :
    |val v| = if fpExp v = 0 then (fpFrac v : ℚ) * 2 ^ (-149 : ℤ)
      else (2 ^ 23 + (fpFrac v : ℚ)) * 2 ^ ((fpExp v : ℤ) - 150) := by
  rw [val, abs_mul, show |(if fpSign v then (-1 : ℚ) else 1)| = 1 by split <;> simp, one_mul, abs_of_nonneg]
  split <;> positivity

theorem fpPattern_abs_val (neg : Bool) {e f : ℕ} (he : e < 256) (hf : f < 2 ^ 23) :
    |val (fpPattern neg e f)| =
      if e = 0 then (f : ℚ) * 2 ^ (-149 : ℤ) else (2 ^ 23 + (f : ℚ)) * 2 ^ ((e : ℤ) - 150) := by
  rw [abs_val, fpPattern_exp neg he, fpPattern_frac neg e hf]

/-- `finitePattern` is the finite pattern of `n * 2^qe` (R133, the last case split). -/
theorem finitePattern_spec (neg : Bool) {n : ℕ} {qe : ℤ} (hn : n ≤ 2 ^ 24) (hq : -149 ≤ qe)
    (hs : n < 2 ^ 23 → qe = -149) (hv : (n : ℚ) * 2 ^ qe < 2 ^ (128 : ℤ)) :
    isFinite (finitePattern neg n qe) = true ∧ fpSign (finitePattern neg n qe) = neg ∧
      |val (finitePattern neg n qe)| = n * 2 ^ qe := by
  have two : (1 : ℚ) < 2 := by norm_num
  unfold finitePattern
  split
  · next h =>
    refine ⟨by simp [isFinite, fpPattern_exp neg (show 0 < 256 by omega)], fpPattern_sign _ _ _, ?_⟩
    rw [fpPattern_abs_val neg (by omega) h, if_pos rfl, hs h]
  · next h =>
    have big : qe ≤ 104 := by
      by_contra hc
      have h1 : (2 : ℚ) ^ (23 : ℤ) ≤ n := by
        have : 2 ^ 23 ≤ n := by omega
        exact_mod_cast this
      have h2 : (2 : ℚ) ^ (105 : ℤ) ≤ 2 ^ qe := zpow_le_zpow_right₀ two.le (by omega)
      have h3 : (2 : ℚ) ^ (23 : ℤ) * 2 ^ (105 : ℤ) ≤ n * 2 ^ qe := by gcongr
      rw [← zpow_add₀ (by norm_num)] at h3
      exact absurd (lt_of_le_of_lt h3 hv) (by norm_num)
    split
    · next h24 =>
      have big' : qe ≤ 103 := by
        by_contra hc
        obtain rfl : qe = 104 := by omega
        rw [h24] at hv
        norm_num at hv
      have he : (qe + 1 + 150).toNat < 255 := by omega
      refine ⟨?_, fpPattern_sign _ _ _, ?_⟩
      · rw [isFinite, fpPattern_exp neg (by omega)]
        exact bne_iff_ne.2 (by omega)
      · rw [fpPattern_abs_val neg (by omega) (by norm_num), if_neg (by omega), h24,
          show (((qe + 1 + 150).toNat : ℤ) - 150) = qe + 1 by omega, zpow_add₀ (by norm_num)]
        push_cast
        ring
    · next h24 =>
      have he : (qe + 150).toNat < 255 := by omega
      refine ⟨?_, fpPattern_sign _ _ _, ?_⟩
      · rw [isFinite, fpPattern_exp neg (by omega)]
        exact bne_iff_ne.2 (by omega)
      · rw [fpPattern_abs_val neg (by omega) (by omega), if_neg (by omega),
          show (((qe + 150).toNat : ℤ) - 150) = qe by omega]
        have : ((n - 2 ^ 23 : ℕ) : ℚ) = n - 2 ^ 23 := by
          rw [Nat.cast_sub (by omega)]; norm_num
        rw [this]
        ring

/-! ### Rounding -/

/-- The overflow result is that of R133. -/
theorem overflowResult_eq (rm : RoundingMode) (neg : Bool) : overflowResult rm neg = overflowOf rm neg := by
  cases rm <;> cases neg <;> rfl

/-- `roundMag` is `round(rm, t)` of R133, for every non-zero rational `t`. -/
theorem roundMag_rounded (rm : RoundingMode) (neg : Bool) {m : Mag} (hn : 0 < m.num) (hd : 0 < m.den) {t : ℚ}
    (ht : t = (if neg then -1 else 1) * m.toRat) :
    Rounded rm t (roundMag rm neg m).bits (roundMag rm neg m).flags := by
  have hm := Mag.toRat_pos hn hd
  have hneg : decide (t < 0) = neg := by
    cases neg <;> simp [ht] <;> linarith
  have habs : |t| = m.toRat := by
    rw [ht, abs_mul, abs_of_pos hm]; cases neg <;> simp
  obtain ⟨e1, e2⟩ := Mag.floorLog2_spec hn hd
  have two : (2 : ℚ) ≠ 0 := by norm_num
  unfold Rounded
  simp only [hneg, habs]
  refine ⟨m.floorLog2, e1, e2, ?_⟩
  have hu (k : ℤ) : m.toRat / 2 ^ k = (m.mulPow2 (-k)).toRat := by
    rw [Mag.mulPow2_toRat, zpow_neg, div_eq_mul_inv]
  simp only [hu, rint_eq rm neg (Mag.mulPow2_den_pos hd _), Int.cast_natCast]
  simp only [roundMag]
  rw [show (23 - m.floorLog2) = -(m.floorLog2 - 23) by ring]
  generalize he : m.floorLog2 = e at *
  generalize hqe : max e (-126) - 23 = qe
  have hb := rint_bounds rm neg (Mag.mulPow2_den_pos hd (-qe))
  have hfl := Mag.floor_toRat (m.mulPow2 (-qe))
  have hce := Mag.ceil_toRat (Mag.mulPow2_den_pos hd (-qe))
  rw [Mag.mulPow2_toRat] at hfl hce
  generalize hN : rint rm neg (m.mulPow2 (-qe)) = n at *
  generalize hR : rint rm neg (m.mulPow2 (-(e - 23))) = n' at *
  have hd1 (a : ℕ) (k : ℤ) := Mag.scaled_den_pos a k
  have lt1 : ((Mag.scaled n qe).lt (Mag.scaled 1 128) = true) ↔ (n : ℚ) * 2 ^ qe < 2 ^ (128 : ℤ) := by
    rw [Mag.lt_iff (hd1 _ _) (hd1 _ _), Mag.scaled_toRat, Mag.scaled_toRat]; simp
  have lt2 : ((Mag.scaled n' (e - 23)).lt (Mag.scaled 1 (-126)) = true) ↔
      (n' : ℚ) * 2 ^ (e - 23) < 2 ^ (-126 : ℤ) := by
    rw [Mag.lt_iff (hd1 _ _) (hd1 _ _), Mag.scaled_toRat, Mag.scaled_toRat]; simp
  have eq1 : ((Mag.scaled n qe).eqv m = true) ↔ (n : ℚ) * 2 ^ qe = m.toRat := by
    rw [Mag.eqv_iff (hd1 _ _) hd, Mag.scaled_toRat]
  -- the bounds of n
  have n24 : n ≤ 2 ^ 24 := by
    have h1 : m.toRat * 2 ^ (-qe) ≤ ((2 ^ 24 : ℤ) : ℚ) := by
      have : (2 : ℚ) ^ (e + 1) ≤ 2 ^ (qe + 24) := zpow_le_zpow_right₀ (by norm_num) (by omega)
      calc m.toRat * 2 ^ (-qe) ≤ 2 ^ (qe + 24) * 2 ^ (-qe) := by gcongr; linarith
        _ = ((2 ^ 24 : ℤ) : ℚ) := by rw [← zpow_add₀ two]; norm_num
    have := Int.ceil_le.2 h1
    rw [hce] at this
    have h2 := hb.2
    exact_mod_cast (show (n : ℤ) ≤ 2 ^ 24 from le_trans (by exact_mod_cast h2) this)
  have n23 : n < 2 ^ 23 → qe = -149 := by
    intro hlt
    by_contra hne
    have hqe' : qe = e - 23 := by omega
    have h1 : ((2 ^ 23 : ℤ) : ℚ) ≤ m.toRat * 2 ^ (-qe) := by
      calc ((2 ^ 23 : ℤ) : ℚ) = 2 ^ e * 2 ^ (-qe) := by rw [← zpow_add₀ two, hqe']; norm_num
        _ ≤ m.toRat * 2 ^ (-qe) := by gcongr
    have := Int.le_floor.2 h1
    rw [hfl] at this
    have h2 := hb.1
    have : (2 ^ 23 : ℤ) ≤ n := le_trans this (by exact_mod_cast h2)
    have : 2 ^ 23 ≤ n := by exact_mod_cast this
    omega
  by_cases hov : (n : ℚ) * 2 ^ qe < 2 ^ (128 : ℤ)
  · rw [if_neg (not_le.2 hov), if_pos (lt1.2 hov)]
    obtain ⟨f1, f2, f3⟩ := finitePattern_spec neg n24 (by omega) n23 hov
    refine ⟨f1, f2, by simpa using f3, ?_⟩
    have eq2 : (!(Mag.scaled n qe).eqv m) = decide ((n : ℚ) * 2 ^ qe ≠ m.toRat) := by
      rw [Bool.eq_iff_iff]; simp [← eq1]
    have lt3 : ((Mag.scaled n' (e - 23)).lt (Mag.scaled 1 (-126)) && !(Mag.scaled n qe).eqv m) =
        decide ((n' : ℚ) * 2 ^ (e - 23) < 2 ^ (-126 : ℤ) ∧ (n : ℚ) * 2 ^ qe ≠ m.toRat) := by
      rw [Bool.eq_iff_iff, Bool.and_eq_true, lt2, eq2, decide_eq_true_eq, decide_eq_true_eq]
    rw [lt3, eq2]
    simp only [flagIf, flagNX, flagUF, noFlags, decide_eq_true_eq]
  · rw [if_pos (not_lt.1 hov), if_neg (by rwa [lt1])]
    exact ⟨rfl, overflowResult_eq rm neg⟩

/-- `roundRatio` is `round(rm, n / d)` of R133. -/
theorem roundRatio_rounded (rm : RoundingMode) {n : ℤ} (hn : n ≠ 0) {d : ℕ} (hd : 0 < d) {t : ℚ}
    (ht : t = (n : ℚ) / d) : Rounded rm t (roundRatio rm n d).bits (roundRatio rm n d).flags := by
  refine roundMag_rounded rm (decide (n < 0)) (m := ⟨n.natAbs, d⟩) (Int.natAbs_pos.2 hn) hd ?_
  rw [ht, Mag.toRat]
  have : (n : ℚ) = (if decide (n < 0) = true then -1 else 1) * (n.natAbs : ℚ) := by
    rw [Nat.cast_natAbs, Int.cast_abs]
    by_cases h : n < 0
    · have h' : (n : ℚ) < 0 := by exact_mod_cast h
      simp [h, abs_of_neg h']
    · have h' : (0 : ℚ) ≤ n := by exact_mod_cast not_lt.1 h
      simp [h, abs_of_nonneg h']
  rw [this]
  ring

/-! ### Values -/

/-- The value of a finite pattern is its number of units of `2^-149` (R130). -/
theorem val_eq_units (v : Word) : val v = fpUnits v * 2 ^ (-149 : ℤ) := by
  have key : ((if fpExp v = 0 then fpFrac v else (2 ^ 23 + fpFrac v) * 2 ^ (fpExp v - 1) : ℕ) : ℚ) * 2 ^ (-149 : ℤ) =
      if fpExp v = 0 then (fpFrac v : ℚ) * 2 ^ (-149 : ℤ)
      else (2 ^ 23 + (fpFrac v : ℚ)) * 2 ^ ((fpExp v : ℤ) - 150) := by
    split
    · rfl
    · next h =>
      rw [show (fpExp v : ℤ) - 150 = ((fpExp v - 1 : ℕ) : ℤ) + -149 by omega, zpow_add₀ (by norm_num), zpow_natCast]
      push_cast
      ring
  rw [val, fpUnits, ← key]
  split <;> push_cast <;> ring

/-- A finite pattern has value zero exactly when it is a zero. -/
theorem units_eq_zero_iff (v : Word) : fpUnits v = 0 ↔ isZero v = true := by
  have h : (fpUnits v).natAbs = if fpExp v = 0 then fpFrac v else (2 ^ 23 + fpFrac v) * 2 ^ (fpExp v - 1) := by
    unfold fpUnits; simp only []; split <;> omega
  rw [← Int.natAbs_eq_zero, h, isZero]
  split
  · next h0 => simp [h0]
  · next h0 => simp [h0]

end Sys2Proof.Machine
end

