-- ==== Sys2Proof/Laws/SquareRoot.lean ====
section
/-! SUPPORT. The integer square root of spec/42_rv32f_move_convert_arith.md R150 is the real square root, rounded once:
`sqrtFinite_rounded` says once everything `sqrtFinite` can do. -/

namespace Sys2Proof.Machine

theorem isqrtBits_spec (m k acc : ℕ) (h1 : acc * acc ≤ m) (h2 : m < (acc + 2 ^ k) * (acc + 2 ^ k)) :
    isqrtBits m k acc * isqrtBits m k acc ≤ m ∧ m < (isqrtBits m k acc + 1) * (isqrtBits m k acc + 1) := by
  induction k generalizing acc with
  | zero => exact ⟨h1, by simpa [isqrtBits] using h2⟩
  | succ k ih =>
    simp only [isqrtBits]
    have h : acc + 2 ^ (k + 1) = (acc + 2 ^ k) + 2 ^ k := by ring
    split
    · next hc => exact ih _ hc (by rwa [← h])
    · next hc => exact ih _ h1 (by omega)

/-- `isqrt` is the integer square root (R150). -/
theorem isqrt_spec {m : ℕ} (h : m < 2 ^ 48) : isqrt m * isqrt m ≤ m ∧ m < (isqrt m + 1) * (isqrt m + 1) :=
  isqrtBits_spec m 24 0 (Nat.zero_le _) (by simpa using h)

/-- A positive finite pattern is its significand times a power of two (R130). -/
theorem val_eq_sig {v : Word} (hs : fpSign v = false) : val v = fpSig v * 2 ^ fpSigExp v := by
  have h1 : (if fpSign v then (-1 : ℚ) else 1) = 1 := by simp [hs]
  rw [val, h1, one_mul, fpSig, fpSigExp]
  by_cases h : fpExp v = 0
  · simp only [if_pos h]
  · simp only [if_neg h]
    push_cast
    rfl

/-- `sqrtFinite` is the real square root rounded once to nearest (R150), for every positive finite pattern. -/
theorem sqrtFinite_rounded {a : Word} (hs : fpSign a = false) (hz : isZero a = false) (hf : isFinite a = true) :
    Rounded .rne (Real.sqrt ((val a : ℚ) : ℝ)) (sqrtFinite a).bits (sqrtFinite a).flags := by
  have two : (2 : ℝ) ≠ 0 := by norm_num
  have hE : fpExp a < 255 := by
    have h1 : fpExp a < 2 ^ 8 := (a.extractLsb' 23 8).isLt
    have h2 : fpExp a ≠ 255 := by simpa [isFinite] using hf
    omega
  have hF : fpFrac a < 2 ^ 23 := (a.extractLsb' 0 23).isLt
  have sig0 : fpSig a ≠ 0 := by
    unfold fpSig
    split
    · next h => intro hc; simp [isZero, h, hc] at hz
    · omega
  have sig24 : fpSig a < 2 ^ 24 := by unfold fpSig; split <;> omega
  have e1 : -149 ≤ fpSigExp a := by unfold fpSigExp; split <;> omega
  have e2 : fpSigExp a ≤ 104 := by unfold fpSigExp; split <;> omega
  have l24 : (fpSig a).log2 < 24 := (Nat.log2_lt sig0).2 sig24
  -- the integer M and the exponent k
  simp only [sqrtFinite]
  generalize hj : (if (fpSigExp a - ((46 - (fpSig a).log2 : ℕ) : ℤ)) % 2 = 0 then 46 - (fpSig a).log2
    else 46 - (fpSig a).log2 + 1) = j
  have hj1 : 46 ≤ (fpSig a).log2 + j ∧ (fpSig a).log2 + j ≤ 47 := by split at hj <;> omega
  have hpar : 2 * ((fpSigExp a - j) / 2) = fpSigExp a - j := by split at hj <;> omega
  generalize hk : (fpSigExp a - j) / 2 = k at *
  have hM46 : 2 ^ 46 ≤ fpSig a * 2 ^ j := by
    calc 2 ^ 46 ≤ 2 ^ ((fpSig a).log2 + j) := Nat.pow_le_pow_right (by omega) hj1.1
      _ = 2 ^ (fpSig a).log2 * 2 ^ j := pow_add _ _ _
      _ ≤ fpSig a * 2 ^ j := Nat.mul_le_mul_right _ (Nat.log2_self_le sig0)
  have hM48 : fpSig a * 2 ^ j < 2 ^ 48 := by
    calc fpSig a * 2 ^ j < 2 ^ ((fpSig a).log2 + 1) * 2 ^ j :=
          Nat.mul_lt_mul_of_pos_right Nat.lt_log2_self (by positivity)
      _ = 2 ^ ((fpSig a).log2 + 1 + j) := (pow_add _ _ _).symm
      _ ≤ 2 ^ 48 := Nat.pow_le_pow_right (by omega) (by omega)
  have hval : ((val a : ℚ) : ℝ) = (fpSig a * 2 ^ j : ℕ) * (2 ^ k * 2 ^ k) := by
    rw [val_eq_sig hs, ← zpow_add₀ two, show fpSigExp a = (j : ℤ) + (k + k) by omega]
    push_cast
    rw [zpow_add₀ two (j : ℤ), zpow_natCast]
    ring
  have kb : -98 ≤ k ∧ k ≤ 41 := by omega
  generalize fpSig a * 2 ^ j = M at *
  obtain ⟨n1, n2⟩ := isqrt_spec hM48
  generalize isqrt M = n at *
  have n23 : 2 ^ 23 ≤ n := by
    by_contra hc
    have : n + 1 ≤ 2 ^ 23 := by omega
    have := Nat.mul_le_mul this this
    omega
  have n24 : n < 2 ^ 24 := by
    by_contra hc
    have : 2 ^ 24 ≤ n := by omega
    have := Nat.mul_le_mul this this
    omega
  -- the real square root of M
  set r := Real.sqrt (M : ℝ) with hr
  have r0 : 0 ≤ r := Real.sqrt_nonneg _
  have rr : r * r = M := Real.mul_self_sqrt (Nat.cast_nonneg _)
  have rn : (n : ℝ) ≤ r := Real.le_sqrt_of_sq_le (by rw [sq]; exact_mod_cast n1)
  have rn1 : r < n + 1 := by
    rw [hr, Real.sqrt_lt' (by positivity), sq]; exact_mod_cast n2
  have fl : ⌊r⌋ = (n : ℤ) := Int.floor_eq_iff.2 ⟨by exact_mod_cast rn, by exact_mod_cast rn1⟩
  have hsq : Real.sqrt ((val a : ℚ) : ℝ) = r * 2 ^ k := by
    rw [hval, Real.sqrt_mul (Nat.cast_nonneg _), Real.sqrt_mul_self (by positivity)]
  have half : (r - (n : ℝ) < 1 / 2) ↔ ¬ (n < M - n * n) := by
    have : r < n + 1 / 2 ↔ (M : ℝ) < (n + 1 / 2) * (n + 1 / 2) := by
      rw [hr, Real.sqrt_lt' (by positivity), sq]
    rw [sub_lt_iff_lt_add', this]
    constructor
    · intro h hc
      have : n * n + n + 1 ≤ M := by omega
      have : ((n * n + n + 1 : ℕ) : ℝ) ≤ M := by exact_mod_cast this
      push_cast at this
      nlinarith
    · intro h
      have : M ≤ n * n + n := by omega
      have : (M : ℝ) ≤ ((n * n + n : ℕ) : ℝ) := by exact_mod_cast this
      push_cast at this
      nlinarith
  have notie : ¬ (n < M - n * n) ∨ 1 / 2 < r - (n : ℝ) := by
    by_cases h : n < M - n * n
    · right
      have h1 := (not_congr half).2 (not_not.2 h)
      refine lt_of_le_of_ne (not_lt.1 h1) fun hc => ?_
      have h2 : r = n + 1 / 2 := by linarith
      have h3 : n * n + n + 1 ≤ M := by omega
      have h4 : ((n * n + n + 1 : ℕ) : ℝ) ≤ M := by exact_mod_cast h3
      push_cast at h4
      rw [← rr, h2] at h4
      nlinarith
    · exact .inl h
  have hrint (neg : Bool) : rintExact .rne neg r = ((if n < M - n * n then n + 1 else n : ℕ) : ℤ) := by
    simp only [rintExact, fl, Int.cast_natCast]
    by_cases h : n < M - n * n
    · rw [if_neg ((not_congr half).2 (not_not.2 h)), if_pos (notie.resolve_left (not_not.2 h)), if_pos h]
      push_cast; rfl
    · rw [if_pos (half.2 h), if_neg h]
  have pk : (0 : ℝ) < 2 ^ k := by positivity
  have m0 : 0 ≤ r * 2 ^ k := by positivity
  have exact_iff : ((n : ℝ) = r) ↔ M = n * n := by
    constructor
    · intro h
      rw [← h] at rr
      exact_mod_cast rr.symm
    · intro h
      rw [hr, h]; push_cast; rw [Real.sqrt_mul_self (by positivity)]
  generalize hN : (if n < M - n * n then n + 1 else n) = N at *
  have Nb : n ≤ N ∧ N ≤ n + 1 := by split at hN <;> omega
  have hNr : (N : ℝ) = r ↔ M = n * n := by
    by_cases h : n < M - n * n
    · obtain rfl : N = n + 1 := by rw [← hN, if_pos h]
      constructor
      · intro hc; push_cast at hc; linarith
      · intro hc; omega
    · obtain rfl : N = n := by rw [← hN, if_neg h]
      exact exact_iff
  unfold Rounded
  simp only [hsq, abs_of_nonneg m0, not_lt.2 m0, decide_false]
  have hdiv : r * 2 ^ k / 2 ^ k = r := mul_div_cancel_right₀ _ pk.ne'
  refine ⟨k + 23, ?_, ?_, ?_⟩
  · rw [add_comm, zpow_add₀ two]
    gcongr
    calc (2 : ℝ) ^ (23 : ℤ) ≤ n := by exact_mod_cast n23
      _ ≤ r := rn
  · rw [show k + 23 + 1 = 24 + k by ring, zpow_add₀ two]
    gcongr
    calc r < n + 1 := rn1
      _ ≤ 2 ^ (24 : ℤ) := by exact_mod_cast n24
  rw [show k + 23 - 23 = k by ring, show max (k + 23) (-126) - 23 = k by omega, hdiv, hrint, Int.cast_natCast]
  have hle (x : ℤ) (hx : 24 + k ≤ x) : (N : ℝ) * 2 ^ k ≤ 2 ^ x := by
    calc (N : ℝ) * 2 ^ k ≤ 2 ^ (24 : ℤ) * 2 ^ k := by
          gcongr; exact_mod_cast (show N ≤ 2 ^ 24 by omega)
      _ = 2 ^ (24 + k) := (zpow_add₀ two _ _).symm
      _ ≤ 2 ^ x := zpow_le_zpow_right₀ (by norm_num) hx
  have hge : (2 : ℝ) ^ (-126 : ℤ) ≤ N * 2 ^ k := by
    calc (2 : ℝ) ^ (-126 : ℤ) ≤ 2 ^ (23 + k) := zpow_le_zpow_right₀ (by norm_num) (by omega)
      _ = 2 ^ (23 : ℤ) * 2 ^ k := zpow_add₀ two _ _
      _ ≤ N * 2 ^ k := by gcongr; exact_mod_cast (show 2 ^ 23 ≤ N by omega)
  have hlt : (N : ℝ) * 2 ^ k < 2 ^ (128 : ℤ) :=
    lt_of_le_of_lt (hle 66 (by omega)) (zpow_lt_zpow_right₀ (by norm_num) (by norm_num))
  have hltQ : (N : ℚ) * 2 ^ k < 2 ^ (128 : ℤ) := by
    rw [← Rat.cast_lt (K := ℝ)]
    push_cast
    exact_mod_cast hlt
  obtain ⟨f1, f2, f3⟩ := finitePattern_spec false (n := N) (qe := k) (by omega) (by omega) (by omega) hltQ
  rw [if_neg (not_le.2 hlt)]
  refine ⟨f1, f2, ?_, ?_⟩
  · rw [← Rat.cast_abs, f3]; push_cast; rfl
  · rw [if_neg (c := _ ∧ _) (fun h => absurd h.1 (not_lt.2 hge))]
    have hne : ((N : ℝ) * 2 ^ k ≠ r * 2 ^ k) ↔ (M - n * n != 0) = true := by
      rw [ne_eq, mul_left_inj' pk.ne', hNr, bne_iff_ne]; omega
    by_cases h : (M - n * n != 0) = true
    · rw [if_pos (hne.2 h), h]; rfl
    · rw [if_neg (fun hc => h (hne.1 hc))]
      simp only [flagIf, if_neg h]; rfl

end Sys2Proof.Machine
end

