-- ==== Sys2Proof/Tests/Slice0.lean ====
section
/-! SUPPORT. Tests of the model: the ill-formed terms are refused, every row decodes a word written out field by field
from the spec (spec/30_encoding.md R66, R75; the words are those of spec/95_test_vectors.md part 1 and of the examples
of the rules), each instruction does what its rule's example or corner case says, the step's checks, and a witness for
every statement with hypotheses. -/

namespace Sys2Proof.Tests
set_option Elab.async false
open Sys2Proof.Machine

/-! ### Well-formedness (R6, R140) -/

theorem test_wf_tierS : Instr.wellFormed Params.default (.add 1 2 3) := by decide
theorem test_wf_refuses_tierG : ¬ Instr.wellFormed Params.default (.fmaddS 1 2 3 4 .rne) := by decide
theorem test_wf_refuses_tierG_csr : ¬ Instr.wellFormed Params.default (.frcsr 1) := by decide
theorem test_wf_admits_tierG : Instr.wellFormed Params.default.admitAll (.fmaddS 1 2 3 4 .rne) := by decide
theorem test_wf_refuses_fmwWX : ¬ Instr.wellFormed { Params.default with fmwPolicy := .refuse } (.fmwWX 1 2) := by decide
theorem test_wf_admits_fmwWX : Instr.wellFormed Params.default (.fmwWX 1 2) := by decide

/-! ### Decoding: one word of every row, field by field -/

theorem test_decode_add :
    decodeTableWord 32 (0b0000000#7 ++ 0b00010#5 ++ 0b00001#5 ++ 0b000#3 ++ 0b00011#5 ++ 0b0110011#7).toNat = some (.add 3 1 2) := by
  decide +kernel
theorem test_decode_sub :
    decodeTableWord 32 (0b0100000#7 ++ 0b00010#5 ++ 0b00001#5 ++ 0b000#3 ++ 0b00011#5 ++ 0b0110011#7).toNat = some (.sub 3 1 2) := by
  decide +kernel
theorem test_decode_sll :
    decodeTableWord 32 (0b0000000#7 ++ 0b00010#5 ++ 0b00001#5 ++ 0b001#3 ++ 0b00011#5 ++ 0b0110011#7).toNat = some (.sll 3 1 2) := by
  decide +kernel
theorem test_decode_slt :
    decodeTableWord 32 (0b0000000#7 ++ 0b00010#5 ++ 0b00001#5 ++ 0b010#3 ++ 0b00011#5 ++ 0b0110011#7).toNat = some (.slt 3 1 2) := by
  decide +kernel
theorem test_decode_sltu :
    decodeTableWord 32 (0b0000000#7 ++ 0b00010#5 ++ 0b00001#5 ++ 0b011#3 ++ 0b00011#5 ++ 0b0110011#7).toNat = some (.sltu 3 1 2) := by
  decide +kernel
theorem test_decode_xor :
    decodeTableWord 32 (0b0000000#7 ++ 0b00010#5 ++ 0b00001#5 ++ 0b100#3 ++ 0b00011#5 ++ 0b0110011#7).toNat = some (.xor 3 1 2) := by
  decide +kernel
theorem test_decode_srl :
    decodeTableWord 32 (0b0000000#7 ++ 0b00010#5 ++ 0b00001#5 ++ 0b101#3 ++ 0b00011#5 ++ 0b0110011#7).toNat = some (.srl 3 1 2) := by
  decide +kernel
theorem test_decode_sra :
    decodeTableWord 32 (0b0100000#7 ++ 0b00010#5 ++ 0b00001#5 ++ 0b101#3 ++ 0b00011#5 ++ 0b0110011#7).toNat = some (.sra 3 1 2) := by
  decide +kernel
theorem test_decode_or :
    decodeTableWord 32 (0b0000000#7 ++ 0b00010#5 ++ 0b00001#5 ++ 0b110#3 ++ 0b00011#5 ++ 0b0110011#7).toNat = some (.or 3 1 2) := by
  decide +kernel
theorem test_decode_and :
    decodeTableWord 32 (0b0000000#7 ++ 0b00010#5 ++ 0b00001#5 ++ 0b111#3 ++ 0b00011#5 ++ 0b0110011#7).toNat = some (.and 3 1 2) := by
  decide +kernel
theorem test_decode_mul :
    decodeTableWord 32 (0b0000001#7 ++ 0b00010#5 ++ 0b00001#5 ++ 0b000#3 ++ 0b00011#5 ++ 0b0110011#7).toNat = some (.mul 3 1 2) := by
  decide +kernel
theorem test_decode_mulh :
    decodeTableWord 32 (0b0000001#7 ++ 0b00010#5 ++ 0b00001#5 ++ 0b001#3 ++ 0b00011#5 ++ 0b0110011#7).toNat = some (.mulh 3 1 2) := by
  decide +kernel
theorem test_decode_mulhsu :
    decodeTableWord 32 (0b0000001#7 ++ 0b00010#5 ++ 0b00001#5 ++ 0b010#3 ++ 0b00011#5 ++ 0b0110011#7).toNat = some (.mulhsu 3 1 2) := by
  decide +kernel
theorem test_decode_mulhu :
    decodeTableWord 32 (0b0000001#7 ++ 0b00010#5 ++ 0b00001#5 ++ 0b011#3 ++ 0b00011#5 ++ 0b0110011#7).toNat = some (.mulhu 3 1 2) := by
  decide +kernel
theorem test_decode_div :
    decodeTableWord 32 (0b0000001#7 ++ 0b00010#5 ++ 0b00001#5 ++ 0b100#3 ++ 0b00011#5 ++ 0b0110011#7).toNat = some (.div 3 1 2) := by
  decide +kernel
theorem test_decode_divu :
    decodeTableWord 32 (0b0000001#7 ++ 0b00010#5 ++ 0b00001#5 ++ 0b101#3 ++ 0b00011#5 ++ 0b0110011#7).toNat = some (.divu 3 1 2) := by
  decide +kernel
theorem test_decode_rem :
    decodeTableWord 32 (0b0000001#7 ++ 0b00010#5 ++ 0b00001#5 ++ 0b110#3 ++ 0b00011#5 ++ 0b0110011#7).toNat = some (.rem 3 1 2) := by
  decide +kernel
theorem test_decode_remu :
    decodeTableWord 32 (0b0000001#7 ++ 0b00010#5 ++ 0b00001#5 ++ 0b111#3 ++ 0b00011#5 ++ 0b0110011#7).toNat = some (.remu 3 1 2) := by
  decide +kernel
theorem test_decode_fmwWX :
    decodeTableWord 32 (0b0101100#7 ++ 0b00000#5 ++ 0b00001#5 ++ 0b010#3 ++ 0b00011#5 ++ 0b1010011#7).toNat = some (.fmwWX 3 1) := by
  decide +kernel
theorem test_decode_fmwXW :
    decodeTableWord 32 (0b1110000#7 ++ 0b00000#5 ++ 0b00001#5 ++ 0b000#3 ++ 0b00011#5 ++ 0b1010011#7).toNat = some (.fmwXW 3 1) := by
  decide +kernel
theorem test_decode_fcvtSW :
    decodeTableWord 32 (0b1101000#7 ++ 0b00000#5 ++ 0b00001#5 ++ 0b000#3 ++ 0b00011#5 ++ 0b1010011#7).toNat = some (.fcvtSW 3 1 .rne) := by
  decide +kernel
theorem test_decode_fcvtSWu :
    decodeTableWord 32 (0b1101000#7 ++ 0b00001#5 ++ 0b00001#5 ++ 0b111#3 ++ 0b00011#5 ++ 0b1010011#7).toNat = some (.fcvtSWu 3 1 .dyn) := by
  decide +kernel
theorem test_decode_fmwWS :
    decodeTableWord 32 (0b1100000#7 ++ 0b00000#5 ++ 0b00001#5 ++ 0b001#3 ++ 0b00011#5 ++ 0b1010011#7).toNat = some (.fmwWS 3 1 .rtz) := by
  decide +kernel
theorem test_decode_fmwWuS :
    decodeTableWord 32 (0b1100000#7 ++ 0b00001#5 ++ 0b00001#5 ++ 0b001#3 ++ 0b00011#5 ++ 0b1010011#7).toNat = some (.fmwWuS 3 1 .rtz) := by
  decide +kernel
theorem test_decode_faddS :
    decodeTableWord 32 (0b0000000#7 ++ 0b00010#5 ++ 0b00001#5 ++ 0b000#3 ++ 0b00011#5 ++ 0b1010011#7).toNat = some (.faddS 3 1 2) := by
  decide +kernel
theorem test_decode_fsubS :
    decodeTableWord 32 (0b0000100#7 ++ 0b00010#5 ++ 0b00001#5 ++ 0b000#3 ++ 0b00011#5 ++ 0b1010011#7).toNat = some (.fsubS 3 1 2) := by
  decide +kernel
theorem test_decode_fmulS :
    decodeTableWord 32 (0b0001000#7 ++ 0b00010#5 ++ 0b00001#5 ++ 0b000#3 ++ 0b00011#5 ++ 0b1010011#7).toNat = some (.fmulS 3 1 2) := by
  decide +kernel
theorem test_decode_fdivS :
    decodeTableWord 32 (0b0001100#7 ++ 0b00010#5 ++ 0b00001#5 ++ 0b000#3 ++ 0b00011#5 ++ 0b1010011#7).toNat = some (.fdivS 3 1 2) := by
  decide +kernel
theorem test_decode_fsqrtS :
    decodeTableWord 32 (0b0101100#7 ++ 0b00000#5 ++ 0b00001#5 ++ 0b000#3 ++ 0b00011#5 ++ 0b1010011#7).toNat = some (.fsqrtS 3 1) := by
  decide +kernel
theorem test_decode_fmaddS :
    decodeTableWord 32 (0b00100#5 ++ 0b00#2 ++ 0b00010#5 ++ 0b00001#5 ++ 0b111#3 ++ 0b00011#5 ++ 0b1000011#7).toNat = some (.fmaddS 3 1 2 4 .dyn) := by
  decide +kernel
theorem test_decode_fmsubS :
    decodeTableWord 32 (0b00100#5 ++ 0b00#2 ++ 0b00010#5 ++ 0b00001#5 ++ 0b000#3 ++ 0b00011#5 ++ 0b1000111#7).toNat = some (.fmsubS 3 1 2 4 .rne) := by
  decide +kernel
theorem test_decode_fnmsubS :
    decodeTableWord 32 (0b00100#5 ++ 0b00#2 ++ 0b00010#5 ++ 0b00001#5 ++ 0b111#3 ++ 0b00011#5 ++ 0b1001011#7).toNat = some (.fnmsubS 3 1 2 4 .dyn) := by
  decide +kernel
theorem test_decode_fnmaddS :
    decodeTableWord 32 (0b00100#5 ++ 0b00#2 ++ 0b00010#5 ++ 0b00001#5 ++ 0b000#3 ++ 0b00011#5 ++ 0b1001111#7).toNat = some (.fnmaddS 3 1 2 4 .rne) := by
  decide +kernel
theorem test_decode_fsgnjS :
    decodeTableWord 32 (0b0010000#7 ++ 0b00010#5 ++ 0b00001#5 ++ 0b000#3 ++ 0b00011#5 ++ 0b1010011#7).toNat = some (.fsgnjS 3 1 2) := by
  decide +kernel
theorem test_decode_fsgnjnS :
    decodeTableWord 32 (0b0010000#7 ++ 0b00010#5 ++ 0b00001#5 ++ 0b001#3 ++ 0b00011#5 ++ 0b1010011#7).toNat = some (.fsgnjnS 3 1 2) := by
  decide +kernel
theorem test_decode_fsgnjxS :
    decodeTableWord 32 (0b0010000#7 ++ 0b00010#5 ++ 0b00001#5 ++ 0b010#3 ++ 0b00011#5 ++ 0b1010011#7).toNat = some (.fsgnjxS 3 1 2) := by
  decide +kernel
theorem test_decode_fminS :
    decodeTableWord 32 (0b0010100#7 ++ 0b00010#5 ++ 0b00001#5 ++ 0b000#3 ++ 0b00011#5 ++ 0b1010011#7).toNat = some (.fminS 3 1 2) := by
  decide +kernel
theorem test_decode_fmaxS :
    decodeTableWord 32 (0b0010100#7 ++ 0b00010#5 ++ 0b00001#5 ++ 0b001#3 ++ 0b00011#5 ++ 0b1010011#7).toNat = some (.fmaxS 3 1 2) := by
  decide +kernel
theorem test_decode_feqS :
    decodeTableWord 32 (0b1010000#7 ++ 0b00010#5 ++ 0b00001#5 ++ 0b010#3 ++ 0b00011#5 ++ 0b1010011#7).toNat = some (.feqS 3 1 2) := by
  decide +kernel
theorem test_decode_fltS :
    decodeTableWord 32 (0b1010000#7 ++ 0b00010#5 ++ 0b00001#5 ++ 0b001#3 ++ 0b00011#5 ++ 0b1010011#7).toNat = some (.fltS 3 1 2) := by
  decide +kernel
theorem test_decode_fleS :
    decodeTableWord 32 (0b1010000#7 ++ 0b00010#5 ++ 0b00001#5 ++ 0b000#3 ++ 0b00011#5 ++ 0b1010011#7).toNat = some (.fleS 3 1 2) := by
  decide +kernel
theorem test_decode_fclassS :
    decodeTableWord 32 (0b1110000#7 ++ 0b00000#5 ++ 0b00001#5 ++ 0b001#3 ++ 0b00011#5 ++ 0b1010011#7).toNat = some (.fclassS 3 1) := by
  decide +kernel
theorem test_decode_frcsr :
    decodeTableWord 32 (0b000000000011#12 ++ 0b00000#5 ++ 0b010#3 ++ 0b00011#5 ++ 0b1110011#7).toNat = some (.frcsr 3) := by
  decide +kernel
theorem test_decode_frrm :
    decodeTableWord 32 (0b000000000010#12 ++ 0b00000#5 ++ 0b010#3 ++ 0b00011#5 ++ 0b1110011#7).toNat = some (.frrm 3) := by
  decide +kernel
theorem test_decode_frflags :
    decodeTableWord 32 (0b000000000001#12 ++ 0b00000#5 ++ 0b010#3 ++ 0b00011#5 ++ 0b1110011#7).toNat = some (.frflags 3) := by
  decide +kernel
theorem test_decode_fscsr :
    decodeTableWord 32 (0b000000000011#12 ++ 0b00001#5 ++ 0b001#3 ++ 0b00011#5 ++ 0b1110011#7).toNat = some (.fscsr 3 1) := by
  decide +kernel
theorem test_decode_fsrm :
    decodeTableWord 32 (0b000000000010#12 ++ 0b00001#5 ++ 0b001#3 ++ 0b00011#5 ++ 0b1110011#7).toNat = some (.fsrm 3 1) := by
  decide +kernel
theorem test_decode_fsflags :
    decodeTableWord 32 (0b000000000001#12 ++ 0b00001#5 ++ 0b001#3 ++ 0b00011#5 ++ 0b1110011#7).toNat = some (.fsflags 3 1) := by
  decide +kernel

/-- Words the spec calls unlisted (R69, R140, R217; spec/96_test_vectors_integer.md section 2.1). -/
theorem test_decode_unlisted : ∀ w ∈ [0x00000000, 0xFFFFFFFF, 0xF0000053, 0x58102053, 0x58001053, 0x00209053, 0x00000073,
    0x00100073, 0x02200043 + 0x02000000, 0x00302073 + 0x8000, 0x04000033, 0x40001033],
    decodeTableWord 32 w = none := by
  decide +kernel

/-- A Tier G word is unlisted while `ADMIT_GK_ROWS` is false (R6). -/
theorem test_decode_not_admitted : (decodeWord Params.default 0x2020F1C3#32).isOk = false := by decide +kernel

/-! ### One step on a small state -/

/-- A state with both tiers admitted: `fcsr`, `x1`, `x2`, `f1`, `f2`, `f4` as given. -/
def machine (fcsr : BitVec 8) (x1 x2 f1 f2 f4 : Word) : State :=
  (((((State.launch Params.default.admitAll [] (Vector.replicate 31 0#32) (Vector.replicate 32 0#32) fcsr).writeX
    1#5 x1).writeX 2#5 x2).writeF 1#5 f1).writeF 2#5 f2).writeF 4#5 f4

/-- `x3` and `fcsr` after the step that runs the word, and nothing where there is no next state or `pc` did not move by 4. -/
def xAfter (w : Nat) (s : State) : Option (Word × BitVec 8) :=
  match step (s.withFetchWord 32 w) with
  | .next t => if t.pc = s.pc + 4#32 then some (t.readX 3#5, t.fcsr) else none
  | .fault _ => none
  | .refused _ => none

/-- `f3` and `fcsr` after the step that runs the word, and nothing where there is no next state or `pc` did not move by 4. -/
def fAfter (w : Nat) (s : State) : Option (Word × BitVec 8) :=
  match step (s.withFetchWord 32 w) with
  | .next t => if t.pc = s.pc + 4#32 then some (t.readF 3#5, t.fcsr) else none
  | .fault _ => none
  | .refused _ => none

theorem test_add :
    xAfter 0x002081B3 (machine 0x00#8 0x1 0x2 0x0 0x0 0x0) = some (0x3, 0x00) := by
  decide +kernel
theorem test_add_wraps :
    xAfter 0x002081B3 (machine 0xFF#8 0x80000000 0x80000000 0x0 0x0 0x0) = some (0x0, 0xFF) := by
  decide +kernel
theorem test_sub :
    xAfter 0x402081B3 (machine 0x00#8 0x5 0x3 0x0 0x0 0x0) = some (0x2, 0x00) := by
  decide +kernel
theorem test_sub_borrow :
    xAfter 0x402081B3 (machine 0x00#8 0x0 0x1 0x0 0x0 0x0) = some (0xFFFFFFFF, 0x00) := by
  decide +kernel
theorem test_sll :
    xAfter 0x002091B3 (machine 0x00#8 0x12345678 0x8 0x0 0x0 0x0) = some (0x34567800, 0x00) := by
  decide +kernel
theorem test_sll_by_32 :
    xAfter 0x002091B3 (machine 0x00#8 0x1 0x20 0x0 0x0 0x0) = some (0x1, 0x00) := by
  decide +kernel
theorem test_slt :
    xAfter 0x0020A1B3 (machine 0x00#8 0x80000000 0x7FFFFFFF 0x0 0x0 0x0) = some (0x1, 0x00) := by
  decide +kernel
theorem test_slt_equal :
    xAfter 0x0020A1B3 (machine 0x00#8 0x5 0x5 0x0 0x0 0x0) = some (0x0, 0x00) := by
  decide +kernel
theorem test_sltu :
    xAfter 0x0020B1B3 (machine 0x00#8 0x0 0xFFFFFFFF 0x0 0x0 0x0) = some (0x1, 0x00) := by
  decide +kernel
theorem test_sltu_signs :
    xAfter 0x0020B1B3 (machine 0x00#8 0x80000000 0x7FFFFFFF 0x0 0x0 0x0) = some (0x0, 0x00) := by
  decide +kernel
theorem test_xor :
    xAfter 0x0020C1B3 (machine 0x00#8 0xF0F0F0F0 0xFF00FF00 0x0 0x0 0x0) = some (0x0FF00FF0, 0x00) := by
  decide +kernel
theorem test_srl :
    xAfter 0x0020D1B3 (machine 0x00#8 0xFFFFFFFF 0x4 0x0 0x0 0x0) = some (0x0FFFFFFF, 0x00) := by
  decide +kernel
theorem test_srl_high_bits :
    xAfter 0x0020D1B3 (machine 0x00#8 0x80000000 0xFFFFFFE8 0x0 0x0 0x0) = some (0x00800000, 0x00) := by
  decide +kernel
theorem test_sra :
    xAfter 0x4020D1B3 (machine 0x00#8 0x87654321 0x28 0x0 0x0 0x0) = some (0xFF876543, 0x00) := by
  decide +kernel
theorem test_sra_floor :
    xAfter 0x4020D1B3 (machine 0x00#8 0xFFFFFFFF 0x1 0x0 0x0 0x0) = some (0xFFFFFFFF, 0x00) := by
  decide +kernel
theorem test_or :
    xAfter 0x0020E1B3 (machine 0x00#8 0x12340000 0x5678 0x0 0x0 0x0) = some (0x12345678, 0x00) := by
  decide +kernel
theorem test_and :
    xAfter 0x0020F1B3 (machine 0x00#8 0x12345678 0xFFFF 0x0 0x0 0x0) = some (0x5678, 0x00) := by
  decide +kernel
theorem test_mul :
    xAfter 0x022081B3 (machine 0x00#8 0x12345678 0x9ABCDEF0 0x0 0x0 0x0) = some (0x242D2080, 0x00) := by
  decide +kernel
theorem test_mul_minus_one :
    xAfter 0x022081B3 (machine 0x00#8 0xFFFFFFFF 0xFFFFFFFF 0x0 0x0 0x0) = some (0x1, 0x00) := by
  decide +kernel
theorem test_mulh :
    xAfter 0x022091B3 (machine 0x00#8 0x12345678 0x9ABCDEF0 0x0 0x0 0x0) = some (0xF8CC93D6, 0x00) := by
  decide +kernel
theorem test_mulh_min :
    xAfter 0x022091B3 (machine 0x00#8 0x80000000 0x80000000 0x0 0x0 0x0) = some (0x40000000, 0x00) := by
  decide +kernel
theorem test_mulhsu :
    xAfter 0x0220A1B3 (machine 0x00#8 0x12345678 0x9ABCDEF0 0x0 0x0 0x0) = some (0x0B00EA4E, 0x00) := by
  decide +kernel
theorem test_mulhsu_order :
    xAfter 0x0220A1B3 (machine 0x00#8 0xFFFFFFFF 0x1 0x0 0x0 0x0) = some (0xFFFFFFFF, 0x00) := by
  decide +kernel
theorem test_mulhu :
    xAfter 0x0220B1B3 (machine 0x00#8 0x12345678 0x9ABCDEF0 0x0 0x0 0x0) = some (0x0B00EA4E, 0x00) := by
  decide +kernel
theorem test_mulhu_max :
    xAfter 0x0220B1B3 (machine 0x00#8 0xFFFFFFFF 0xFFFFFFFF 0x0 0x0 0x0) = some (0xFFFFFFFE, 0x00) := by
  decide +kernel
theorem test_div :
    xAfter 0x0220C1B3 (machine 0x00#8 0xFFFFFFEC 0x6 0x0 0x0 0x0) = some (0xFFFFFFFD, 0x00) := by
  decide +kernel
theorem test_div_overflow :
    xAfter 0x0220C1B3 (machine 0x00#8 0x80000000 0xFFFFFFFF 0x0 0x0 0x0) = some (0x80000000, 0x00) := by
  decide +kernel
theorem test_divu :
    xAfter 0x0220D1B3 (machine 0x00#8 0x14 0x6 0x0 0x0 0x0) = some (0x3, 0x00) := by
  decide +kernel
theorem test_divu_by_zero :
    xAfter 0x0220D1B3 (machine 0x00#8 0x7 0x0 0x0 0x0 0x0) = some (0xFFFFFFFF, 0x00) := by
  decide +kernel
theorem test_rem :
    xAfter 0x0220E1B3 (machine 0x00#8 0xFFFFFFEC 0x6 0x0 0x0 0x0) = some (0xFFFFFFFE, 0x00) := by
  decide +kernel
theorem test_rem_by_zero :
    xAfter 0x0220E1B3 (machine 0x00#8 0xFFFFFFF9 0x0 0x0 0x0 0x0) = some (0xFFFFFFF9, 0x00) := by
  decide +kernel
theorem test_remu :
    xAfter 0x0220F1B3 (machine 0x00#8 0xFFFFFFFF 0x10 0x0 0x0 0x0) = some (0xF, 0x00) := by
  decide +kernel
theorem test_remu_by_zero :
    xAfter 0x0220F1B3 (machine 0x00#8 0x7 0x0 0x0 0x0 0x0) = some (0x7, 0x00) := by
  decide +kernel
theorem test_fmwWX :
    fAfter 0x5800A1D3 (machine 0x00#8 0x7FA00000 0 0x0 0x0 0x0) = some (0x7FA00000, 0x00) := by
  decide +kernel
theorem test_fmwXW :
    xAfter 0xE00081D3 (machine 0x00#8 0x0 0x0 0xBF800000 0x0 0x0) = some (0xBF800000, 0x00) := by
  decide +kernel
theorem test_fcvtSW :
    fAfter 0xD00081D3 (machine 0x00#8 0x075BCD15 0 0x0 0x0 0x0) = some (0x4CEB79A3, 0x01) := by
  decide +kernel
theorem test_fcvtSW_up :
    fAfter 0xD000F1D3 (machine 0x60#8 0xFEFFFFFF 0 0x0 0x0 0x0) = some (0xCB800000, 0x61) := by
  decide +kernel
theorem test_fcvtSWu :
    fAfter 0xD010F1D3 (machine 0x00#8 0x1 0 0x0 0x0 0x0) = some (0x3F800000, 0x00) := by
  decide +kernel
theorem test_fcvtSWu_rtz :
    fAfter 0xD010F1D3 (machine 0x20#8 0xFFFFFFFF 0 0x0 0x0 0x0) = some (0x4F7FFFFF, 0x21) := by
  decide +kernel
theorem test_fmwWS :
    xAfter 0xC00091D3 (machine 0x00#8 0x0 0x0 0xC0200000 0x0 0x0) = some (0xFFFFFFFE, 0x01) := by
  decide +kernel
theorem test_fmwWS_nan :
    xAfter 0xC00091D3 (machine 0x00#8 0x0 0x0 0xFFC00000 0x0 0x0) = some (0x7FFFFFFF, 0x10) := by
  decide +kernel
theorem test_fmwWuS :
    xAfter 0xC01091D3 (machine 0x00#8 0x0 0x0 0x3FC00000 0x0 0x0) = some (0x1, 0x01) := by
  decide +kernel
theorem test_fmwWuS_negative :
    xAfter 0xC010F1D3 (machine 0x40#8 0x0 0x0 0xBF000000 0x0 0x0) = some (0x0, 0x50) := by
  decide +kernel
theorem test_faddS :
    fAfter 0x002081D3 (machine 0x00#8 0x0 0 0x3DCCCCCD 0x3E4CCCCD 0x0) = some (0x3E99999A, 0x01) := by
  decide +kernel
theorem test_faddS_signaling :
    fAfter 0x002081D3 (machine 0x00#8 0x0 0 0x7FA00000 0x3F800000 0x0) = some (0x7FC00000, 0x10) := by
  decide +kernel
theorem test_fsubS :
    fAfter 0x082081D3 (machine 0x00#8 0x0 0 0x40400000 0x3F800000 0x0) = some (0x40000000, 0x00) := by
  decide +kernel
theorem test_fsubS_overflow :
    fAfter 0x082081D3 (machine 0x40#8 0x0 0 0xFF7FFFFF 0x7F7FFFFF 0x0) = some (0xFF800000, 0x45) := by
  decide +kernel
theorem test_fmulS :
    fAfter 0x102081D3 (machine 0x00#8 0x0 0 0x00FFFFFF 0x3F000000 0x0) = some (0x00800000, 0x03) := by
  decide +kernel
theorem test_fmulS_not_tiny :
    fAfter 0x102081D3 (machine 0x00#8 0x0 0 0x007FFFFF 0x3F800001 0x0) = some (0x00800000, 0x01) := by
  decide +kernel
theorem test_fdivS :
    fAfter 0x182081D3 (machine 0x00#8 0x0 0 0x3F800000 0x40400000 0x0) = some (0x3EAAAAAB, 0x01) := by
  decide +kernel
theorem test_fdivS_by_zero :
    fAfter 0x182081D3 (machine 0x00#8 0x0 0 0x3F800000 0x80000000 0x0) = some (0xFF800000, 0x08) := by
  decide +kernel
theorem test_fsqrtS :
    fAfter 0x580081D3 (machine 0x00#8 0x0 0 0x40490FDB 0x0 0x0) = some (0x3FE2DFC5, 0x01) := by
  decide +kernel
theorem test_fsqrtS_subnormal :
    fAfter 0x580081D3 (machine 0x00#8 0x0 0 0x1 0x0 0x0) = some (0x1A3504F3, 0x01) := by
  decide +kernel
theorem test_fmaddS :
    fAfter 0x2020F1C3 (machine 0x00#8 0x0 0 0x3F800001 0x3F800001 0xBF800002) = some (0x28800000, 0x00) := by
  decide +kernel
theorem test_fmaddS_invalid :
    fAfter 0x2020F1C3 (machine 0x00#8 0x0 0 0x0 0x7F800000 0x7FC00000) = some (0x7FC00000, 0x10) := by
  decide +kernel
theorem test_fmsubS :
    fAfter 0x202081C7 (machine 0x00#8 0x0 0 0x3FC00000 0x40000000 0x40800000) = some (0xBF800000, 0x00) := by
  decide +kernel
theorem test_fmsubS_overflow :
    fAfter 0x202081C7 (machine 0x00#8 0x0 0 0x7F7FFFFF 0x40000000 0xFF7FFFFF) = some (0x7F800000, 0x05) := by
  decide +kernel
theorem test_fnmsubS :
    fAfter 0x2020F1CB (machine 0x00#8 0x0 0 0x3FC00000 0x40000000 0x40800000) = some (0x3F800000, 0x00) := by
  decide +kernel
theorem test_fnmsubS_zero :
    fAfter 0x2020F1CB (machine 0x00#8 0x0 0 0x0 0x3F800000 0x80000000) = some (0x80000000, 0x00) := by
  decide +kernel
theorem test_fnmaddS :
    fAfter 0x202081CF (machine 0x00#8 0x0 0 0x3FC00000 0x40000000 0x40800000) = some (0xC0E00000, 0x00) := by
  decide +kernel
theorem test_fnmaddS_invalid :
    fAfter 0x202081CF (machine 0x00#8 0x0 0 0x7F800000 0x3F800000 0xFF800000) = some (0x7FC00000, 0x10) := by
  decide +kernel
theorem test_fsgnjS :
    fAfter 0x202081D3 (machine 0x00#8 0x0 0 0x7FA00000 0x80000000 0x0) = some (0xFFA00000, 0x00) := by
  decide +kernel
theorem test_fsgnjnS :
    fAfter 0x202091D3 (machine 0x00#8 0x0 0 0x3F800000 0xC0000000 0x0) = some (0x3F800000, 0x00) := by
  decide +kernel
theorem test_fsgnjxS :
    fAfter 0x2020A1D3 (machine 0x00#8 0x0 0 0xBF800000 0xC0000000 0x0) = some (0x3F800000, 0x00) := by
  decide +kernel
theorem test_fminS :
    fAfter 0x282081D3 (machine 0x00#8 0x0 0 0x00000000 0x80000000 0x0) = some (0x80000000, 0x00) := by
  decide +kernel
theorem test_fminS_signaling :
    fAfter 0x282081D3 (machine 0x00#8 0x0 0 0x7FA00000 0xFFC12345 0x0) = some (0x7FC00000, 0x10) := by
  decide +kernel
theorem test_fmaxS :
    fAfter 0x282091D3 (machine 0x00#8 0x0 0 0x80000000 0x00000000 0x0) = some (0x00000000, 0x00) := by
  decide +kernel
theorem test_fmaxS_nan :
    fAfter 0x282091D3 (machine 0x00#8 0x0 0 0xFFFFFFFF 0xFF800000 0x0) = some (0xFF800000, 0x00) := by
  decide +kernel
theorem test_feqS :
    xAfter 0xA020A1D3 (machine 0x00#8 0x0 0x0 0x00000000 0x80000000 0x0) = some (0x1, 0x00) := by
  decide +kernel
theorem test_feqS_quiet :
    xAfter 0xA020A1D3 (machine 0x00#8 0x0 0x0 0x7FC00000 0x7FC00000 0x0) = some (0x0, 0x00) := by
  decide +kernel
theorem test_fltS :
    xAfter 0xA02091D3 (machine 0x00#8 0x0 0x0 0x80000001 0x00000001 0x0) = some (0x1, 0x00) := by
  decide +kernel
theorem test_fltS_nan :
    xAfter 0xA02091D3 (machine 0x00#8 0x0 0x0 0x7FC00000 0x3F800000 0x0) = some (0x0, 0x10) := by
  decide +kernel
theorem test_fleS :
    xAfter 0xA02081D3 (machine 0x00#8 0x0 0x0 0x00000000 0x80000000 0x0) = some (0x1, 0x00) := by
  decide +kernel
theorem test_fleS_greater :
    xAfter 0xA02081D3 (machine 0x00#8 0x0 0x0 0x40000000 0x3F800000 0x0) = some (0x0, 0x00) := by
  decide +kernel
theorem test_fclassS :
    xAfter 0xE00091D3 (machine 0x00#8 0x0 0x0 0xBF800000 0x0 0x0) = some (0x2, 0x00) := by
  decide +kernel
theorem test_fclassS_signaling :
    xAfter 0xE00091D3 (machine 0x00#8 0x0 0x0 0xFFA00000 0x0 0x0) = some (0x100, 0x00) := by
  decide +kernel
theorem test_frcsr :
    xAfter 0x003021F3 (machine 0x25#8 0x0 0x0 0x0 0x0 0x0) = some (0x25, 0x25) := by
  decide +kernel
theorem test_frrm :
    xAfter 0x002021F3 (machine 0x25#8 0x0 0x0 0x0 0x0 0x0) = some (0x1, 0x25) := by
  decide +kernel
theorem test_frflags :
    xAfter 0x001021F3 (machine 0x25#8 0x0 0x0 0x0 0x0 0x0) = some (0x5, 0x25) := by
  decide +kernel
theorem test_fscsr :
    xAfter 0x003091F3 (machine 0x25#8 0xFFFFFF41 0x0 0x0 0x0 0x0) = some (0x25, 0x41) := by
  decide +kernel
theorem test_fsrm :
    xAfter 0x002091F3 (machine 0x25#8 0xB 0x0 0x0 0x0 0x0) = some (0x1, 0x65) := by
  decide +kernel
theorem test_fsflags :
    xAfter 0x001091F3 (machine 0x25#8 0xF0 0x0 0x0 0x0 0x0) = some (0x5, 0x30) := by
  decide +kernel

/-! ### The checks of a step (spec/96_test_vectors_integer.md section 2.6; R205) -/

/-- The kind of an outcome: 0 a next state, 1 `FetchFault`, 2 `IllegalInstruction`, 3 the end of the run, 4 illegal
parameters, 5 anything else. -/
def kind : Host.Outcome State Fault Refusal → Nat
  | .next _ => 0
  | .fault (.fetchFault _ _) => 1
  | .fault (.illegalInstruction _ _) => 2
  | .refused .runFinal => 3
  | .refused .illegalParameters => 4
  | .refused (.notModelled _) => 5

/-- The state of `machine`, all operands zero, with one word at `pc`. -/
def at_ (w : Nat) : State := (machine 0x00#8 0 0 0 0 0).withFetchWord 32 w

theorem test_reset_is_final : kind (step State.reset) = 3 := by decide +kernel
theorem test_step_fetch_fault : kind (step { at_ 0x33 with pc := 0x0FFC#32 }) = 1 := by decide +kernel
theorem test_step_misaligned : kind (step { at_ 0x33 with pc := 0x1002#32 }) = 1 := by decide +kernel
theorem test_step_end : kind (step { at_ 0x33 with pc := 0x1004#32 }) = 3 := by decide +kernel
theorem test_step_unlisted : kind (step (at_ 0x00000073)) = 2 := by decide +kernel
theorem test_step_reserved_static : kind (step (at_ 0xD000D1D3)) = 2 := by decide +kernel
theorem test_step_reserved_dynamic :
    kind (step ((machine 0xA0#8 0 0 0 0 0).withFetchWord 32 0xD000F1D3)) = 2 := by decide +kernel
theorem test_step_illegal_parameters :
    kind (step { at_ 0x33 with params := { (at_ 0x33).params with programLen := 5 } }) = 4 := by decide +kernel

/-- The text may end exactly at the top of the address space; its end is then address 0 (R27). -/
theorem test_step_top_of_memory :
    kind (step ({ machine 0x00#8 0 0 0 0 0 with pc := 0xFFFFFFFC#32 }.withFetchWord 32 0x33)) = 0 ∧
    kind (step { { machine 0x00#8 0 0 0 0 0 with pc := 0xFFFFFFFC#32 }.withFetchWord 32 0x33 with pc := 0#32 }) = 3 := by
  decide +kernel

/-- Two steps: `add x3, x1, x2` then `sub x3, x3, x1`, stored little-endian (R42, R242). -/
theorem test_run_two :
    (match Sys2Proof.core.run 2 { machine 0x00#8 1 2 0 0 0 with
        params := { Params.default with programLen := 8 }
        text := [(0x1000, 0xB3), (0x1001, 0x81), (0x1002, 0x20), (0x1004, 0xB3), (0x1005, 0x81), (0x1006, 0x11),
          (0x1007, 0x40)] } with
      | .next t => some (t.readX 3#5, t.pc)
      | .fault _ => none
      | .refused _ => none) = some (2#32, 0x1008#32) := by
  decide +kernel

/-! ### A witness for the hypotheses of each statement -/

/-- `add x3, x1, x2` at `pc`, with `x1` = 1 and `x2` = 2. -/
def addHere : State := (machine 0x00#8 1 2 0 0 0).withFetchWord 32 0x002081B3

theorem test_witness_DecodeOfEncode : Instr.wellFormed Params.default.admitAll (.fmaddS 31 30 29 28 .dyn) := by decide

theorem test_witness_EncodeOfDecode : decodeWord Params.default 0x002081B3#32 = .ok (.add 3 1 2) := by decide +kernel

theorem test_witness_RowsDoNotOverlap : Mnemonic.fmwWX ≠ Mnemonic.fsqrtS := by decide

theorem test_witness_AdmittedRows : ¬ Instr.wellFormed Params.default (.frcsr 1) := by decide

theorem test_witness_ConstantRs2IsPartOfThePattern :
    (0x58102053#32).extractLsb' 25 7 = 0b0101100#7 ∧ (0x58102053#32).extractLsb' 12 3 = 0b010#3 ∧
      (0x58102053#32).extractLsb' 0 7 = 0b1010011#7 ∧ (0x58102053#32).extractLsb' 20 5 ≠ 0b00000#5 ∧
      (0x59F00053#32).extractLsb' 25 7 = 0b0101100#7 ∧ (0x59F00053#32).extractLsb' 12 3 = 0b000#3 ∧
      (0x59F00053#32).extractLsb' 0 7 = 0b1010011#7 ∧ (0x59F00053#32).extractLsb' 20 5 ≠ 0b00000#5 := by
  decide

theorem test_witness_UnlistedWordsFault :
    let s := at_ 0x00000073
    s.params.legal ∧ s.pc.toNat ≠ textEnd s.params ∧ Fetchable s ∧
      ∀ m ∈ Mnemonic.all, m.admitted s.params = true → s.fetchWord &&& m.pattern.mask ≠ m.pattern.bits := by
  decide +kernel

/-- One word for each clause on words of `UnlistedWordsFault`, in their order: the opcode of a branch; the Tier G opcode of
`fmadd.s`, not admitted; funct7 `0000010`; funct7 `0100000` with funct3 `001`; `fadd.s` with funct3 `001`; funct7 `0101100`
with funct3 `001`; funct7 `0010000` with funct3 `011`; funct7 `0010100` with funct3 `010`; funct7 `1111000`. -/
theorem test_witness_UnlistedWordsFault_words :
    ((0x00000063#32).extractLsb' 0 7 ∉ [0b0110011#7, 0b1010011#7, 0b1000011#7, 0b1000111#7, 0b1001011#7, 0b1001111#7,
        0b1110011#7]) ∧
    ((0x00000043#32).extractLsb' 0 7 ≠ 0b0110011#7 ∧ (0x00000043#32).extractLsb' 0 7 ≠ 0b1010011#7 ∧
      Params.default.admitGkRows = false) ∧
    ((0x04000033#32).extractLsb' 0 7 = 0b0110011#7 ∧
      (0x04000033#32).extractLsb' 25 7 ∉ [0b0000000#7, 0b0100000#7, 0b0000001#7]) ∧
    ((0x40001033#32).extractLsb' 25 7 = 0b0100000#7 ∧ (0x40001033#32).extractLsb' 12 3 ∉ [0b000#3, 0b101#3]) ∧
    ((0x00001053#32).extractLsb' 25 7 = 0b0000000#7 ∧ (0x00001053#32).extractLsb' 12 3 ≠ 0b000#3) ∧
    ((0x58001053#32).extractLsb' 25 7 = 0b0101100#7 ∧
      ¬ ((0x58001053#32).extractLsb' 20 5 = 0b00000#5 ∧ (0x58001053#32).extractLsb' 12 3 ∈ [0b000#3, 0b010#3])) ∧
    ((0x20003053#32).extractLsb' 25 7 = 0b0010000#7 ∧
      (0x20003053#32).extractLsb' 12 3 ∉ [0b000#3, 0b001#3, 0b010#3]) ∧
    ((0x28002053#32).extractLsb' 25 7 = 0b0010100#7 ∧ (0x28002053#32).extractLsb' 12 3 ∉ [0b000#3, 0b001#3]) ∧
    ((0xF0000053#32).extractLsb' 0 7 = 0b1010011#7 ∧ (0xF0000053#32).extractLsb' 25 7 = 0b1111000#7) := by
  decide +kernel

theorem test_witness_StepRunsTheDecodedInstruction :
    addHere.params.legal ∧ addHere.pc.toNat ≠ textEnd addHere.params ∧ Fetchable addHere ∧
      decodeBytes addHere.params [addHere.readByte addHere.pc.toNat, addHere.readByte (addHere.pc.toNat + 1),
        addHere.readByte (addHere.pc.toNat + 2), addHere.readByte (addHere.pc.toNat + 3)] = .ok (.add 3 1 2) := by
  decide +kernel

theorem test_witness_StepChecksInOrder :
    ¬ ({ addHere.params with programLen := 5 } : Params).legal ∧
    (State.reset.params.legal ∧ State.reset.pc.toNat = textEnd State.reset.params) ∧
    (addHere.params.legal ∧ (0x1002#32).toNat ≠ textEnd addHere.params ∧
      ¬ Fetchable { addHere with pc := 0x1002#32 }) ∧
    decodeWord (at_ 0x73).params (at_ 0x73).fetchWord = .error (.unlisted 0x73#32) ∧
    decodeWord addHere.params addHere.fetchWord = .ok (.add 3 1 2) := by
  decide +kernel

theorem test_witness_DivisionLaw : (3#5 : XReg) ≠ 0#5 ∧ (31#5 : XReg) ≠ 0#5 := by decide

theorem test_witness_ProductHalves : (4#5 : XReg) ≠ 0#5 ∧ (3#5 : XReg) ≠ 0#5 := by decide

theorem test_witness_MoveFromInteger :
    0xF00081D3#32 &&& 0xFFF0707F#32 = 0xF0000053#32 ∧
      ({ Params.default with fmwPolicy := .refuse } : Params).fmwPolicy = .refuse ∧
      0x5800A1D3#32 &&& 0xFFF0707F#32 = 0x58002053#32 ∧
      0x58102053#32 &&& 0xFE00707F#32 = 0x58002053#32 ∧ 0x58102053#32 &&& 0x01F00000#32 ≠ 0x00000000#32 := by
  decide

theorem test_witness_FloatAdd :
    0x00001053#32 &&& 0xFE00007F#32 = 0x00000053#32 ∧ 0x00001053#32 &&& 0x00007000#32 ≠ 0x00000000#32 := by
  decide

theorem test_witness_MoveToInteger : ∃ t u, (3#5 : XReg) ≠ 0#5 ∧
    exec (.fmwWX 1 1) (machine 0x00#8 5 0 0 0 0) = .next t ∧ exec (.fmwXW 3 1) t = .next u :=
  ⟨_, _, by decide, rfl, rfl⟩

/-- The hypotheses of the statements under a rounding mode: each static mode, `111` with each legal `frm`, and the two
ways a mode is reserved. -/
theorem test_witness_UnderMode :
    (∀ mode, ∃ rm, ∀ frm, Selects rm frm mode) ∧ (∀ mode, ∃ frm, Selects .dyn frm mode) ∧
      (∀ frm mode, ¬ Selects .reserved5 frm mode) ∧ (∀ frm mode, ¬ Selects .reserved6 frm mode) ∧
      (∀ mode, ¬ Selects .dyn 0b101#3 mode) ∧ (∀ mode, ¬ Selects .dyn 0b110#3 mode) ∧
      ∀ mode, ¬ Selects .dyn 0b111#3 mode := by
  refine ⟨fun mode => ⟨Rm.ofBits (modeCode mode), fun frm => .inl ?_⟩, fun mode => ⟨modeCode mode, .inr ⟨rfl, rfl⟩⟩,
    ?_, ?_, ?_, ?_, ?_⟩
  · cases mode <;> rfl
  all_goals unfold Selects; intros; rename_i mode; cases mode <;> simp [Rm.bits, modeCode]

theorem test_witness_FloatSqrt_words :
    0x58100053#32 &&& 0xFE00007F#32 = 0x58000053#32 ∧ 0x58100053#32 &&& 0x01F00000#32 ≠ 0x00000000#32 ∧
      0x58001053#32 &&& 0xFE00007F#32 = 0x58000053#32 ∧ 0x58001053#32 &&& 0x00007000#32 ≠ 0x00000000#32 ∧
      0x58001053#32 &&& 0x00007000#32 ≠ 0x00002000#32 := by
  decide

theorem test_witness_FloatSqrt : isFinite 0x40800000#32 = true ∧ 0 < val 0x40800000#32 := by
  have h : fpUnits 0x40800000#32 = (2 ^ 151 : ℕ) := by decide +kernel
  refine ⟨by decide +kernel, ?_⟩
  rw [val_eq_units, h]
  positivity

theorem test_witness_CompareByValue :
    isFinite ((machine 0x00#8 0 0 0x80000000#32 0x7F7FFFFF#32 0).readF 1#5) = true ∧
      isFinite ((machine 0x00#8 0 0 0x80000000#32 0x7F7FFFFF#32 0).readF 2#5) = true := by
  decide +kernel

theorem test_witness_ControlRegisterWriteThenRead : (4#5 : XReg) ≠ 0#5 ∧
    (∃ t u, exec (.fscsr 3 1) (machine 0x25#8 0x41 0 0 0 0) = .next t ∧ exec (.frcsr 4) t = .next u) ∧
    (∃ t u, exec (.fsrm 3 1) (machine 0x25#8 0x41 0 0 0 0) = .next t ∧ exec (.frrm 4) t = .next u) ∧
    ∃ t u, exec (.fsflags 3 1) (machine 0x25#8 0x41 0 0 0 0) = .next t ∧ exec (.frflags 4) t = .next u :=
  ⟨by decide, ⟨_, _, rfl, rfl⟩, ⟨_, _, rfl, rfl⟩, ⟨_, _, rfl, rfl⟩⟩

theorem test_witness_ArithmeticNaNIsCanonical : ∃ t,
    (writesOf (.faddS 3 1 2)).dest = .f 3 ∧ Instr.mnemonic (.faddS 3 1 2) ∉ [.fmwWX, .fsgnjS, .fsgnjnS, .fsgnjxS] ∧
      exec (.faddS 3 1 2) (machine 0x00#8 0 0 0xFFC00001#32 0 0) = .next t ∧ isNaN (t.readF 3) = true :=
  ⟨_, rfl, by decide, rfl, by decide +kernel⟩

theorem test_witness_RaisedFlags : ∃ t, (writesOf (.fdivS 3 1 2)).fcsr = false ∧
    (machine 0xE0#8 0 0 0x3F800000#32 0 0).fflags = 0x00#5 ∧
    exec (.fdivS 3 1 2) (machine 0xE0#8 0 0 0x3F800000#32 0 0) = .next t ∧ t.fflags = 0x08#5 :=
  ⟨_, rfl, by decide +kernel, rfl, by decide +kernel⟩

theorem test_witness_ReservedRoundingModesFault :
    ReservedMode (.fcvtSW 3 1 .dyn) (machine 0xA0#8 0 0 0 0 0).frm ∧
      ¬ ReservedMode (.fcvtSW 3 1 .dyn) (machine 0x60#8 0 0 0 0 0).frm := by
  constructor
  · refine ⟨.dyn, rfl, fun mode h => ?_⟩
    have hf : (machine 0xA0#8 0 0 0 0 0).frm = 0b101#3 := by decide +kernel
    rw [hf] at h
    exact test_witness_UnderMode.2.2.2.2.1 mode h
  · rintro ⟨rm, hrm, h⟩
    obtain rfl : Rm.dyn = rm := by simpa [rmOf] using hrm
    exact h .rup (.inr ⟨rfl, by decide +kernel⟩)

theorem test_witness_FrameOfEveryInstruction : ∃ t,
    exec (.fltS 3 1 2) (machine 0x00#8 0 0 0x7FC00000#32 0 0) = .next t :=
  ⟨_, rfl⟩

/-- Two states that differ in `x2`, `f2`, `f4` and the flags, and agree on what `fcvt.s.w f3, x1, rtz` reads. -/
theorem test_witness_ReadsOnlyItsSources : ∃ t,
    AgreeOn (readsOf (.fcvtSW 3 1 .rtz)) (machine 0x00#8 7 1 0 1 2) (machine 0xE5#8 7 9 0 3 4) ∧
      exec (.fcvtSW 3 1 .rtz) (machine 0x00#8 7 1 0 1 2) = .next t :=
  ⟨_, ⟨by decide +kernel, by decide +kernel, fun h => absurd h (by decide)⟩, rfl⟩

theorem test_witness_TierSIgnoresFrm :
    (∃ t, Mnemonic.tier (Instr.mnemonic (.fdivS 3 1 2)) = .S ∧
      exec (.fdivS 3 1 2) (machine 0xA0#8 0 0 0x3F800000#32 0x40400000#32 0) = .next t) ∧
    ∃ t, rmOf (.fcvtSW 3 1 .rup) = some .rup ∧ Rm.rup ≠ .dyn ∧
      exec (.fcvtSW 3 1 .rup) (machine 0xA0#8 7 0 0 0 0) = .next t :=
  ⟨⟨_, rfl, rfl⟩, ⟨_, rfl, by decide, rfl⟩⟩

theorem test_witness_ZeroDestination :
    (∃ t, (writesOf (.add 0 1 2)).dest = .x 0#5 ∧ exec (.add 0 1 2) (machine 0x00#8 1 2 0 0 0) = .next t) ∧
    (∃ t u, exec (.feqS 0 1 2) (machine 0x00#8 0 0 0x7FA00000#32 0 0) = .next t ∧
      exec (.feqS 3 1 2) (machine 0x00#8 0 0 0x7FA00000#32 0 0) = .next u) ∧
    (∃ t u, exec (.fltS 0 1 2) (machine 0x00#8 0 0 0x7FA00000#32 0 0) = .next t ∧
      exec (.fltS 3 1 2) (machine 0x00#8 0 0 0x7FA00000#32 0 0) = .next u) ∧
    (∃ t u, exec (.fleS 0 1 2) (machine 0x00#8 0 0 0x7FA00000#32 0 0) = .next t ∧
      exec (.fleS 3 1 2) (machine 0x00#8 0 0 0x7FA00000#32 0 0) = .next u) ∧
    (∃ t u, exec (.fmwWS 0 1 .rtz) (machine 0x00#8 0 0 0x7FA00000#32 0 0) = .next t ∧
      exec (.fmwWS 3 1 .rtz) (machine 0x00#8 0 0 0x7FA00000#32 0 0) = .next u) ∧
    ∃ t u, exec (.fmwWuS 0 1 .rtz) (machine 0x00#8 0 0 0x7FA00000#32 0 0) = .next t ∧
      exec (.fmwWuS 3 1 .rtz) (machine 0x00#8 0 0 0x7FA00000#32 0 0) = .next u :=
  ⟨⟨_, rfl, rfl⟩, ⟨_, _, rfl, rfl⟩, ⟨_, _, rfl, rfl⟩, ⟨_, _, rfl, rfl⟩, ⟨_, _, rfl, rfl⟩, ⟨_, _, rfl, rfl⟩⟩

theorem test_witness_PcIsNotRead : ∃ t, exec (.mul 3 1 2) (machine 0x00#8 3 5 0 0 0) = .next t := ⟨_, rfl⟩

theorem test_witness_RelocatedRunsAgree : addHere.legal ∧ (addHere.relocated 0x10).legal ∧
    kind (Sys2Proof.core.run 1 addHere) = 0 := by
  decide +kernel

/-- A step that clears flags, a step that changes `frm`, and a step with Tier G not admitted. -/
theorem test_witness_OnlyExplicitWritesClearFlags :
    (match step ((machine 0x25#8 0 0 0 0 0).withFetchWord 32 0x001011F3) with
      | .next t => some t.fcsr | .fault _ => none | .refused _ => none) = some 0x20#8 ∧
    (match step ((machine 0x25#8 0 0 0 0 0).withFetchWord 32 0x002011F3) with
      | .next t => some t.fcsr | .fault _ => none | .refused _ => none) = some 0x05#8 ∧
    (State.reset.withFetchWord 32 0x33).params.admitGkRows = false ∧
      kind (step (State.reset.withFetchWord 32 0x33)) = 0 := by
  decide +kernel

theorem test_witness_EveryStepAdvances : kind (step addHere) = 0 := by decide +kernel

/-- A state for each fault: a fetch outside the text, an unlisted word, a reserved rounding mode. -/
theorem test_witness_FaultsChangeNothing :
    kind (step { addHere with pc := 0x2000#32 }) = 1 ∧ kind (step (at_ 0x73)) = 2 ∧
      kind (step ((machine 0xE0#8 0 0 0 0 0).withFetchWord 32 0xD000F1D3)) = 2 := by
  decide +kernel

theorem test_witness_StepKeepsLegal : addHere.legal ∧ kind (step addHere) = 0 := by decide +kernel

theorem test_witness_RunMovesOneWordAStep : kind (Sys2Proof.core.run 1 addHere) = 0 := by decide +kernel

theorem test_witness_EveryRunEnds : addHere.legal ∧ State.reset.legal := by decide +kernel

theorem test_witness_FinalRunExecutesEveryWord : addHere.legal ∧ addHere.pc.toNat = addHere.params.programBase ∧
    (match Sys2Proof.core.run 1 addHere with
      | .next t => decide t.final | .fault _ => false | .refused _ => false) = true := by
  decide +kernel

theorem test_witness_PlacedInstructionRuns : State.reset.text.wf ∧ addHere.text.wf ∧ State.reset.pc.toNat % 4 = 0 := by
  decide +kernel

end Sys2Proof.Tests
end

/-! ### The opcode table as a function: a word fits at most one row (R74), and the encoder's word fits its own -/

namespace Sys2Proof

/-- Two rows whose fixed bits agree wherever both masks fix a bit are the same row (R74). -/
theorem eq_of_pattern_agree : ∀ m ∈ Mnemonic.all, ∀ n ∈ Mnemonic.all,
    m.pattern.bits &&& n.pattern.mask = n.pattern.bits &&& m.pattern.mask → m = n := by
  decide +kernel

theorem Mnemonic.fits_iff {m : Mnemonic} {w : Word} : m.fits w = true ↔ w &&& m.pattern.mask = m.pattern.bits := by
  rw [Mnemonic.fits, beq_iff_eq]

/-- A word fits at most one row (R74). -/
theorem Mnemonic.eq_of_fits {m n : Mnemonic} {w : Word} (hm : m.fits w = true) (hn : n.fits w = true) : m = n := by
  rw [Mnemonic.fits_iff] at hm hn
  apply eq_of_pattern_agree m (mem_all m) n (mem_all n)
  rw [← hm, ← hn, BitVec.and_assoc, BitVec.and_assoc, BitVec.and_comm m.pattern.mask]

/-- The decoder's verdict on a word of the opcode table depends on nothing but the admission of its row (R65). -/
theorem decodeWord_of_fits {m : Mnemonic} {w : Word} (p : Params) (hm : m.fits w = true) :
    decodeWord p w = if m.admitted p = true then .ok (m.build w) else .error (.unlisted w) := by
  cases hd : decodeWord p w with
  | ok i =>
    obtain ⟨n, hadm, hn, rfl⟩ := decodeWord_ok hd
    obtain rfl := Mnemonic.eq_of_fits hm hn
    rw [if_pos hadm]
  | error r =>
    obtain ⟨rfl, hno⟩ := decodeWord_error hd
    have hna : ¬ m.admitted p = true := fun hadm => by simp [hno m hadm] at hm
    rw [if_neg hna]

/-- `EncodesItsRow` for every instruction. -/
theorem encodesItsRow : ∀ i : Instr, Laws.EncodesItsRow.Statement i
  | .add _ _ _ => Laws.EncodesItsRow.add _ _ _
  | .sub _ _ _ => Laws.EncodesItsRow.sub _ _ _
  | .sll _ _ _ => Laws.EncodesItsRow.sll _ _ _
  | .slt _ _ _ => Laws.EncodesItsRow.slt _ _ _
  | .sltu _ _ _ => Laws.EncodesItsRow.sltu _ _ _
  | .xor _ _ _ => Laws.EncodesItsRow.xor _ _ _
  | .srl _ _ _ => Laws.EncodesItsRow.srl _ _ _
  | .sra _ _ _ => Laws.EncodesItsRow.sra _ _ _
  | .or _ _ _ => Laws.EncodesItsRow.or _ _ _
  | .and _ _ _ => Laws.EncodesItsRow.and _ _ _
  | .mul _ _ _ => Laws.EncodesItsRow.mul _ _ _
  | .mulh _ _ _ => Laws.EncodesItsRow.mulh _ _ _
  | .mulhsu _ _ _ => Laws.EncodesItsRow.mulhsu _ _ _
  | .mulhu _ _ _ => Laws.EncodesItsRow.mulhu _ _ _
  | .div _ _ _ => Laws.EncodesItsRow.div _ _ _
  | .divu _ _ _ => Laws.EncodesItsRow.divu _ _ _
  | .rem _ _ _ => Laws.EncodesItsRow.rem _ _ _
  | .remu _ _ _ => Laws.EncodesItsRow.remu _ _ _
  | .fmwWX _ _ => Laws.EncodesItsRow.fmwWX _ _
  | .fmwXW _ _ => Laws.EncodesItsRow.fmwXW _ _
  | .fcvtSW _ _ _ => Laws.EncodesItsRow.fcvtSW _ _ _
  | .fcvtSWu _ _ _ => Laws.EncodesItsRow.fcvtSWu _ _ _
  | .fmwWS _ _ _ => Laws.EncodesItsRow.fmwWS _ _ _
  | .fmwWuS _ _ _ => Laws.EncodesItsRow.fmwWuS _ _ _
  | .faddS _ _ _ => Laws.EncodesItsRow.faddS _ _ _
  | .fsubS _ _ _ => Laws.EncodesItsRow.fsubS _ _ _
  | .fmulS _ _ _ => Laws.EncodesItsRow.fmulS _ _ _
  | .fdivS _ _ _ => Laws.EncodesItsRow.fdivS _ _ _
  | .fsqrtS _ _ => Laws.EncodesItsRow.fsqrtS _ _
  | .fmaddS _ _ _ _ _ => Laws.EncodesItsRow.fmaddS _ _ _ _ _
  | .fmsubS _ _ _ _ _ => Laws.EncodesItsRow.fmsubS _ _ _ _ _
  | .fnmsubS _ _ _ _ _ => Laws.EncodesItsRow.fnmsubS _ _ _ _ _
  | .fnmaddS _ _ _ _ _ => Laws.EncodesItsRow.fnmaddS _ _ _ _ _
  | .fsgnjS _ _ _ => Laws.EncodesItsRow.fsgnjS _ _ _
  | .fsgnjnS _ _ _ => Laws.EncodesItsRow.fsgnjnS _ _ _
  | .fsgnjxS _ _ _ => Laws.EncodesItsRow.fsgnjxS _ _ _
  | .fminS _ _ _ => Laws.EncodesItsRow.fminS _ _ _
  | .fmaxS _ _ _ => Laws.EncodesItsRow.fmaxS _ _ _
  | .feqS _ _ _ => Laws.EncodesItsRow.feqS _ _ _
  | .fltS _ _ _ => Laws.EncodesItsRow.fltS _ _ _
  | .fleS _ _ _ => Laws.EncodesItsRow.fleS _ _ _
  | .fclassS _ _ => Laws.EncodesItsRow.fclassS _ _
  | .frcsr _ => Laws.EncodesItsRow.frcsr _
  | .frrm _ => Laws.EncodesItsRow.frrm _
  | .frflags _ => Laws.EncodesItsRow.frflags _
  | .fscsr _ _ => Laws.EncodesItsRow.fscsr _ _
  | .fsrm _ _ => Laws.EncodesItsRow.fsrm _ _
  | .fsflags _ _ => Laws.EncodesItsRow.fsflags _ _

theorem fits_encode (i : Instr) : i.mnemonic.fits (encode i) = true := (encodesItsRow i).1

theorem build_encode (i : Instr) : i.mnemonic.build (encode i) = i := (encodesItsRow i).2

/-- The decoder on an encoded instruction: the instruction itself if its row is admitted, else "unlisted" (R65). -/
theorem decodeWord_encode (p : Params) (i : Instr) :
    decodeWord p (encode i) = if i.wellFormed p then .ok i else .error (.unlisted (encode i)) := by
  rw [decodeWord_of_fits p (fits_encode i), build_encode]

/-! ### The admitted rows (R6, R140) -/

theorem Mnemonic.mem_tierS_iff (m : Mnemonic) :
    m ∈ [.add, .sub, .sll, .slt, .sltu, .xor, .srl, .sra, .or, .and, .mul, .mulh, .mulhsu, .mulhu, .div, .divu, .rem,
        .remu, .faddS, .fsubS, .fmulS, .fdivS, .fsqrtS, .fsgnjS, .fsgnjnS, .fsgnjxS, .fminS, .fmaxS] ↔
      m.tier = .S ∧ m ≠ .fmwWX := by
  cases m <;> decide

theorem Mnemonic.mem_tierG_iff (m : Mnemonic) :
    m ∈ [.fmwXW, .fcvtSW, .fcvtSWu, .fmwWS, .fmwWuS, .fmaddS, .fmsubS, .fnmsubS, .fnmaddS, .feqS, .fltS, .fleS,
        .fclassS, .frcsr, .frrm, .frflags, .fscsr, .fsrm, .fsflags] ↔ m.tier = .G := by
  cases m <;> decide

/-- Admission by tier: Tier S always but for `fmw.w.x`, which the policy decides; Tier G by `ADMIT_GK_ROWS`. -/
theorem Mnemonic.admitted_iff (p : Params) (m : Mnemonic) :
    m.admitted p = true ↔
      (m.tier = .S ∧ m ≠ .fmwWX) ∨ (m = .fmwWX ∧ p.fmwPolicy ≠ .refuse) ∨ (m.tier = .G ∧ p.admitGkRows = true) := by
  by_cases hm : m = .fmwWX
  · subst hm
    simp [Mnemonic.admitted, Mnemonic.tier]
  · cases ht : m.tier <;> simp [Mnemonic.admitted, ht, hm]

/-- Settles O5: the lists are the tiers, and the word of a row fits no other row, so without its own it is unlisted. -/
theorem admittedRows : Obligations.AdmittedRows := by
  refine ⟨fun p m => ?_, fun p i hi => ?_⟩
  · rw [Mnemonic.mem_tierS_iff, Mnemonic.mem_tierG_iff, Mnemonic.admitted_iff]
  · rw [decodeWord_encode, if_neg hi]

end Sys2Proof

/-! ### What every completing instruction does to the program: `pc` moves on, parameters and text stay -/

namespace Sys2Proof.Machine

/-- If the outcome is a next state, its `pc` is at the following instruction (R26) and its parameters and text are
those of `s` (R37, R52). -/
def AdvancesFrom (s : State) (o : Host.Outcome State Fault Refusal) : Prop :=
  ∀ t, o = .next t → t.pc = s.pc + 4#32 ∧ t.params = s.params ∧ t.text = s.text

theorem advancesFrom_fault (s : State) (f : Fault) : AdvancesFrom s (.fault f) := fun _ h => nomatch h

/-- The one form every completing instruction has: an update of registers or `fcsr`, then the advance. -/
theorem advancesFrom_next {s u : State} (hpc : u.pc = s.pc) (hparams : u.params = s.params) (htext : u.text = s.text) :
    AdvancesFrom s (.next u.advance) := by
  rintro t ⟨⟩
  exact ⟨by rw [State.advance_pc_eq, hpc], hparams, htext⟩

theorem finishX_advances (rd : XReg) (r : FpResult) (s : State) : AdvancesFrom s (finishX rd r s) :=
  advancesFrom_next (by simp) (by simp) (by simp)

theorem finishF_advances (rd : FReg) (r : FpResult) (s : State) : AdvancesFrom s (finishF rd r s) :=
  advancesFrom_next (by simp) (by simp) (by simp)

theorem execBitsX_advances (rd : XReg) (v : Word) (s : State) : AdvancesFrom s (execBitsX rd v s) :=
  advancesFrom_next (by simp) (by simp) (by simp)

theorem execBitsF_advances (rd : FReg) (v : Word) (s : State) : AdvancesFrom s (execBitsF rd v s) :=
  advancesFrom_next (by simp) (by simp) (by simp)

theorem withMode_advances {i : Instr} {rm : Rm} {s : State} {run : RoundingMode → Host.Outcome State Fault Refusal}
    (hrun : ∀ mode, AdvancesFrom s (run mode)) : AdvancesFrom s (withMode i rm s run) := by
  cases hm : resolve rm s.frm with
  | none =>
    rw [withMode_of_reserved ((resolve_eq_none_iff _ _).1 hm)]
    exact advancesFrom_fault s _
  | some mode =>
    rw [withMode_of_selects ((resolve_eq_some_iff _ _ _).1 hm)]
    exact hrun mode

/-- Every instruction, by the frame its meaning is written in. -/
theorem exec_advances (i : Instr) (s : State) : AdvancesFrom s (exec i s) := by
  cases i with
  | add | sub | sll | slt | sltu | xor | srl | sra | or | and | mul | mulh | mulhsu | mulhu | div | divu | rem | remu =>
    exact execBitsX_advances _ _ s
  | fmwXW | fclassS | frcsr | frrm | frflags => exact execBitsX_advances _ _ s
  | fmwWX | fsgnjS | fsgnjnS | fsgnjxS => exact execBitsF_advances _ _ s
  | faddS | fsubS | fmulS | fdivS | fsqrtS | fminS | fmaxS => exact finishF_advances _ _ s
  | feqS | fltS | fleS => exact finishX_advances _ _ s
  | fcvtSW | fcvtSWu | fmaddS | fmsubS | fnmsubS | fnmaddS => exact withMode_advances fun _ => finishF_advances _ _ s
  | fmwWS | fmwWuS => exact withMode_advances fun _ => finishX_advances _ _ s
  | fscsr | fsrm | fsflags => exact advancesFrom_next (by simp) (by simp) (by simp)

/-! ### The step of a running state -/

/-- The bytes at `pc` decode as the fetched word does (R42, R44). -/
theorem decodeBytes_fetch (s : State) :
    decodeBytes s.params [s.readByte s.pc.toNat, s.readByte (s.pc.toNat + 1), s.readByte (s.pc.toNat + 2),
      s.readByte (s.pc.toNat + 3)] = decodeWord s.params s.fetchWord := rfl

theorem step_of_runs {s : State} {i : Instr} (h : Runs s i) : step s = exec i s := by
  obtain ⟨hlegal, hend, hfetch, hdecode⟩ := h
  rcases step_cases s with ⟨hn, -⟩ | ⟨hfinal, -⟩ | ⟨-, -, hn, -⟩ | ⟨-, -, -, ⟨r, herr⟩, -⟩ | ⟨j, ⟨-, -, -, hj⟩, hstep⟩
  · exact absurd hlegal hn
  · exact absurd hfinal.2 hend
  · exact absurd hfetch hn
  · simp [hdecode] at herr
  · obtain rfl : i = j := Except.ok.inj (hdecode.symm.trans hj)
    exact hstep

/-- Settles O9: the state runs the decoded instruction, and every instruction that completes moves `pc` on. -/
theorem stepRunsTheDecodedInstruction : Obligations.StepRunsTheDecodedInstruction := by
  intro s i hlegal hend hfetch hdecode
  have hstep : step s = exec i s := step_of_runs ⟨hlegal, hend, hfetch, decodeBytes_fetch s ▸ hdecode⟩
  refine ⟨hstep, fun t ht => ?_⟩
  obtain ⟨hpc, -, -⟩ := exec_advances i s t (hstep ▸ ht)
  exact hpc

/-! ### Reset (R36, R240) -/

theorem default_legal : Params.default.legal := by decide

/-- The reset state is one a run can be in: an empty text is in canonical form and lists nothing outside its bounds. -/
theorem reset_legal : State.reset.legal :=
  ⟨default_legal, by decide, ⟨List.Pairwise.nil, fun _ h => nomatch h⟩, fun _ h => nomatch h⟩

/-- Settles O52: the state is legal, and the other clauses are the fields of `Params.default` and the zero register. -/
theorem resetIsALegalLaunchState : Obligations.ResetIsALegalLaunchState :=
  ⟨reset_legal, rfl, rfl, rfl, rfl, State.readX_zero _⟩

end Sys2Proof.Machine

/-! ### The step, the run and the invariant: `pc` moves on, the program stays (R26, R27, R37, R52, R242) -/

namespace Sys2Proof.Machine

/-- A step that answers a next state ran an instruction: no other branch of the step does. -/
theorem runs_of_step_next {s t : State} (h : step s = .next t) : ∃ i, Runs s i ∧ exec i s = .next t := by
  rcases step_cases s with ⟨-, hs⟩ | ⟨-, hs⟩ | ⟨-, -, -, hs⟩ | ⟨-, -, -, -, hs⟩ | ⟨i, hi, hs⟩
  · simp [hs] at h
  · simp [hs] at h
  · simp [hs] at h
  · simp [hs] at h
  · exact ⟨i, hi, hs ▸ h⟩

theorem step_advances (s : State) : AdvancesFrom s (step s) := by
  intro t h
  obtain ⟨i, -, hi⟩ := runs_of_step_next h
  exact exec_advances i s t hi

/-- Settles O49: the step ran an instruction, and every instruction that completes moves `pc` on and keeps the rest. -/
theorem everyStepAdvances : Obligations.EveryStepAdvances := by
  intro s t h
  obtain ⟨hpc, hparams, htext⟩ := step_advances s t h
  exact ⟨by rw [hpc, ← State.advance_pc_eq, State.advance_pc], hparams, htext⟩

/-- A multiple of 4 stays one under `pc <- trunc_32(pc + 4)`, since 4 divides `2^32` (R27). -/
theorem toNat_add_four_mod_four {a : Word} (h : a.toNat % 4 = 0) : (a + 4#32).toNat % 4 = 0 := by
  rw [BitVec.toNat_add]
  simp only [BitVec.toNat_ofNat]
  omega

/-- Settles O51: `pc` stays a multiple of 4, and the other clauses speak of the parameters and the text alone. -/
theorem stepKeepsLegal : Obligations.StepKeepsLegal := by
  rintro s t ⟨hparams, halign, hwf, hbounds⟩ h
  obtain ⟨hpc, hp, ht⟩ := step_advances s t h
  rw [State.legal, hp, ht, hpc]
  exact ⟨hparams, toNat_add_four_mod_four halign, hwf, hbounds⟩

/-- A run of `n + 1` steps that answers a next state is a step and a run of `n`. -/
theorem run_succ_next_iff {M : Host.Core} {n : Nat} {s t : M.State} :
    M.run (n + 1) s = .next t ↔ ∃ u, M.step s = .next u ∧ M.run n u = .next t := by
  rw [Host.Core.run]
  cases M.step s <;> simp

/-- Settles O55: by induction on the number of steps, each of which moves `pc` one word. -/
theorem runMovesOneWordAStep : Obligations.RunMovesOneWordAStep := by
  intro n
  induction n with
  | zero =>
    rintro s t ⟨⟩
    exact ⟨by simp, rfl, rfl⟩
  | succ n ih =>
    intro s t h
    obtain ⟨u, hstep, hrun⟩ := run_succ_next_iff.1 h
    obtain ⟨hpc, hparams, htext⟩ := step_advances s u hstep
    obtain ⟨ihpc, ihparams, ihtext⟩ := ih u t hrun
    refine ⟨?_, ihparams.trans hparams, ihtext.trans htext⟩
    rw [ihpc, hpc, BitVec.add_assoc, ← BitVec.ofNat_add, Nat.mul_succ, Nat.add_comm]

end Sys2Proof.Machine

/-! ### The table of R24: an instruction's effect is fixed by what it reads and lies within what it writes -/

namespace Sys2Proof.Machine

/-- What a completing instruction does before the advance: one write of a register of either file with the flags it
accrues, or a swap, which writes all of `fcsr` and an integer register. -/
inductive Effect where
  | x (rd : XReg) (r : FpResult)
  | f (rd : FReg) (r : FpResult)
  | swap (rd : XReg) (old : Word) (new : BitVec 8)

/-- The state after the effect, still at the instruction's own `pc`. -/
def Effect.apply (s : State) : Effect → State
  | .x rd r => (s.writeX rd r.bits).accrue r.flags
  | .f rd r => (s.writeF rd r.bits).accrue r.flags
  | .swap rd old new => (s.writeFcsr new).writeX rd old

/-- The effect stays within a row of the table of R24, its columns of writes. -/
def Effect.Within (w : Writes) : Effect → Prop
  | .x rd r => w.dest = .x rd ∧ w.fcsr = false ∧ (w.flags = false → r.flags = noFlags)
  | .f rd r => w.dest = .f rd ∧ w.fcsr = false ∧ (w.flags = false → r.flags = noFlags)
  | .swap rd _ _ => w.dest = .x rd ∧ w.fcsr = true ∧ w.flags = true

/-- A meaning obeys a row of the table of R24: where it completes, it has an effect within the columns of writes, and
from every state that agrees on the columns of reads it completes with that same effect. -/
def Obeys (run : State → Host.Outcome State Fault Refusal) (r : Reads) (w : Writes) : Prop :=
  ∀ s t, run s = .next t →
    ∃ e : Effect, e.Within w ∧ ∀ s', AgreeOn r s s' → run s' = .next (e.apply s').advance

theorem AgreeOn.refl (r : Reads) (s : State) : AgreeOn r s s := ⟨fun _ _ => rfl, fun _ _ => rfl, fun _ => rfl⟩

theorem AgreeOn.readX_eq {r : Reads} {s s' : State} (h : AgreeOn r s s') {q : XReg} (hq : q ∈ r.x := by simp [readsOf]) :
    s'.readX q = s.readX q := (h.1 q hq).symm

theorem AgreeOn.readF_eq {r : Reads} {s s' : State} (h : AgreeOn r s s') {q : FReg} (hq : q ∈ r.f := by simp [readsOf]) :
    s'.readF q = s.readF q := (h.2.1 q hq).symm

theorem AgreeOn.fcsr_eq {r : Reads} {s s' : State} (h : AgreeOn r s s') (hc : r.fcsr = true := by rfl) :
    s'.fcsr = s.fcsr := (h.2.2 hc).symm

/-! One lemma per frame of Machine/Operands.lean; `v` is the result as a function of the state. -/

section frames
variable {r : Reads} {v : State → FpResult} {b : State → Word}

theorem finishX_obeys (rd : XReg) (hv : ∀ s s', AgreeOn r s s' → v s' = v s) :
    Obeys (fun s => finishX rd (v s) s) r ⟨.x rd, true, false⟩ :=
  fun s _ _ => ⟨.x rd (v s), ⟨rfl, rfl, nofun⟩, fun s' h => by simp only [hv s s' h]; rfl⟩

theorem finishF_obeys (rd : FReg) (hv : ∀ s s', AgreeOn r s s' → v s' = v s) :
    Obeys (fun s => finishF rd (v s) s) r ⟨.f rd, true, false⟩ :=
  fun s _ _ => ⟨.f rd (v s), ⟨rfl, rfl, nofun⟩, fun s' h => by simp only [hv s s' h]; rfl⟩

theorem execBitsX_obeys (rd : XReg) (hb : ∀ s s', AgreeOn r s s' → b s' = b s) :
    Obeys (fun s => execBitsX rd (b s) s) r ⟨.x rd, false, false⟩ :=
  fun s _ _ => ⟨.x rd ⟨b s, noFlags⟩, ⟨rfl, rfl, fun _ => rfl⟩,
    fun s' h => by simp only [hb s s' h, execBitsX_eq_finishX]; rfl⟩

theorem execBitsF_obeys (rd : FReg) (hb : ∀ s s', AgreeOn r s s' → b s' = b s) :
    Obeys (fun s => execBitsF rd (b s) s) r ⟨.f rd, false, false⟩ :=
  fun s _ _ => ⟨.f rd ⟨b s, noFlags⟩, ⟨rfl, rfl, fun _ => rfl⟩,
    fun s' h => by simp only [hb s s' h, execBitsF_eq_finishF]; rfl⟩

theorem swap_obeys {c : State → BitVec 8} (rd : XReg) (hb : ∀ s s', AgreeOn r s s' → b s' = b s)
    (hc : ∀ s s', AgreeOn r s s' → c s' = c s) :
    Obeys (fun s => .next ((s.writeFcsr (c s)).writeX rd (b s)).advance) r ⟨.x rd, true, true⟩ :=
  fun s _ _ => ⟨.swap rd (b s) (c s), ⟨rfl, rfl, rfl⟩, fun s' h => by simp only [hb s s' h, hc s s' h]; rfl⟩

end frames

theorem execIntOp_obeys (op : Word → Word → Word) (rd rs1 rs2 : XReg) :
    Obeys (fun s => execIntOp op rd rs1 rs2 s) ⟨[rs1, rs2], [], false⟩ ⟨.x rd, false, false⟩ :=
  execBitsX_obeys rd fun _ _ h => by rw [h.readX_eq (q := rs1), h.readX_eq (q := rs2)]

theorem execFpOp_obeys (op : Word → Word → FpResult) (rd rs1 rs2 : FReg) :
    Obeys (fun s => execFpOp op rd rs1 rs2 s) ⟨[], [rs1, rs2], false⟩ ⟨.f rd, true, false⟩ :=
  finishF_obeys rd fun _ _ h => by rw [h.readF_eq (q := rs1), h.readF_eq (q := rs2)]

theorem execFpCompare_obeys (op : Word → Word → FpResult) (rd : XReg) (rs1 rs2 : FReg) :
    Obeys (fun s => execFpCompare op rd rs1 rs2 s) ⟨[], [rs1, rs2], false⟩ ⟨.x rd, true, false⟩ :=
  finishX_obeys rd fun _ _ h => by rw [h.readF_eq (q := rs1), h.readF_eq (q := rs2)]

/-- The rounding mode reads `fcsr` only where the `rm` field is `111` (R24, R78). -/
theorem AgreeOn.resolve_eq {r : Reads} {rm : Rm} {s s' : State} (h : AgreeOn r s s') (hr : r.fcsr = (rm == .dyn)) :
    resolve rm s'.frm = resolve rm s.frm := by
  by_cases hd : rm = .dyn
  · rw [State.frm, State.frm, h.fcsr_eq (by simp [hr, hd])]
  · cases rm with
    | dyn => exact absurd rfl hd
    | rne | rtz | rdn | rup | rmm | reserved5 | reserved6 => rfl

theorem withMode_obeys {r : Reads} {w : Writes} {i : Instr} {rm : Rm}
    {run : RoundingMode → State → Host.Outcome State Fault Refusal} (hr : r.fcsr = (rm == .dyn))
    (hrun : ∀ mode, Obeys (run mode) r w) : Obeys (fun s => withMode i rm s fun mode => run mode s) r w := by
  intro s t h
  cases hm : resolve rm s.frm with
  | none => simp [withMode_of_reserved ((resolve_eq_none_iff _ _).1 hm)] at h
  | some mode =>
    simp only [withMode, hm] at h
    obtain ⟨e, hw, he⟩ := hrun mode s t h
    refine ⟨e, hw, fun s' hs' => ?_⟩
    have hm' : resolve rm s'.frm = some mode := (hs'.resolve_eq hr).trans hm
    simp only [withMode, hm', he s' hs']

/-- Every instruction obeys its row of the table of R24. -/
theorem exec_obeys (i : Instr) : Obeys (fun s => exec i s) (readsOf i) (writesOf i) := by
  unfold exec
  cases i with
  | add | sub | sll | slt | sltu | xor | srl | sra | or | and | mul | mulh | mulhsu | mulhu | div | divu | rem | remu =>
    exact execIntOp_obeys _ _ _ _
  | fmwWX => exact execBitsF_obeys _ fun _ _ h => h.readX_eq
  | fmwXW => exact execBitsX_obeys _ fun _ _ h => h.readF_eq
  | fclassS rd rs1 => exact execBitsX_obeys rd fun _ _ h => by rw [h.readF_eq (q := rs1)]
  | fsgnjS _ rs1 rs2 | fsgnjnS _ rs1 rs2 | fsgnjxS _ rs1 rs2 =>
    exact execBitsF_obeys _ fun _ _ h => by rw [h.readF_eq (q := rs1), h.readF_eq (q := rs2)]
  | faddS | fsubS | fmulS | fdivS | fminS | fmaxS => exact execFpOp_obeys _ _ _ _
  | fsqrtS rd rs1 => exact finishF_obeys rd fun _ _ h => by rw [h.readF_eq (q := rs1)]
  | feqS | fltS | fleS => exact execFpCompare_obeys _ _ _ _
  | fcvtSW _ rs1 | fcvtSWu _ rs1 =>
    exact withMode_obeys rfl fun _ => finishF_obeys _ fun _ _ h => by rw [h.readX_eq (q := rs1)]
  | fmwWS _ rs1 | fmwWuS _ rs1 =>
    exact withMode_obeys rfl fun _ => finishX_obeys _ fun _ _ h => by rw [h.readF_eq (q := rs1)]
  | fmaddS _ rs1 rs2 rs3 | fmsubS _ rs1 rs2 rs3 | fnmsubS _ rs1 rs2 rs3 | fnmaddS _ rs1 rs2 rs3 =>
    exact withMode_obeys rfl fun _ => finishF_obeys _ fun _ _ h => by
      rw [h.readF_eq (q := rs1), h.readF_eq (q := rs2), h.readF_eq (q := rs3)]
  | frcsr rd => exact execBitsX_obeys rd fun _ _ h => by rw [h.fcsr_eq]
  | frrm rd => exact execBitsX_obeys rd fun _ _ h => by rw [State.frm, State.frm, h.fcsr_eq]
  | frflags rd => exact execBitsX_obeys rd fun _ _ h => by rw [State.fflags, State.fflags, h.fcsr_eq]
  | fscsr rd rs1 =>
    exact swap_obeys rd (fun _ _ h => by rw [h.fcsr_eq]) fun _ _ h => by rw [h.readX_eq (q := rs1)]
  | fsrm rd rs1 =>
    exact swap_obeys rd (fun _ _ h => by rw [State.frm, State.frm, h.fcsr_eq]) fun _ _ h => by
      rw [State.fflags, State.fflags, h.fcsr_eq, h.readX_eq (q := rs1)]
  | fsflags rd rs1 =>
    exact swap_obeys rd (fun _ _ h => by rw [State.fflags, State.fflags, h.fcsr_eq]) fun _ _ h => by
      rw [State.frm, State.frm, h.fcsr_eq, h.readX_eq (q := rs1)]

/-- What every completing instruction did, and what it does from any state that agrees on what it reads. -/
theorem exec_next {i : Instr} {s t : State} (h : exec i s = .next t) :
    ∃ e : Effect, e.Within (writesOf i) ∧ t = (e.apply s).advance ∧
      ∀ s', AgreeOn (readsOf i) s s' → exec i s' = .next (e.apply s').advance := by
  obtain ⟨e, hw, he⟩ := exec_obeys i s t h
  exact ⟨e, hw, Host.Outcome.next.inj (h.symm.trans (he s (.refl _ s))), he⟩

end Sys2Proof.Machine

/-! ### What an effect within a row of the table changes (R21, R24, R30, R31) -/

namespace Sys2Proof.Machine

theorem State.readX_writeX_of_ne (s : State) {r q : XReg} (v : Word) (h : q ≠ r) :
    (s.writeX r v).readX q = s.readX q := by
  rw [State.readX_writeX, if_neg h]
  split
  case isTrue hq => rw [hq, State.readX_zero]
  case isFalse => rfl

/-- What a write of the integer file leaves in it depends on that file alone. -/
theorem State.writeX_x_congr {s s' : State} (h : s'.x = s.x) (r : XReg) (v : Word) :
    (s'.writeX r v).x = (s.writeX r v).x := by
  unfold State.writeX
  split <;> simp [h]

/-- A state is its six fields. -/
@[ext] theorem State.ext_fields {s t : State} (hx : s.x = t.x) (hf : s.f = t.f) (hc : s.fcsr = t.fcsr)
    (hpc : s.pc = t.pc) (hparams : s.params = t.params) (htext : s.text = t.text) : s = t := by
  cases s
  cases t
  simp_all

namespace Effect
variable {e : Effect} {w : Writes} {s s' : State}

/-- Only the destination is written: the integer file. -/
theorem readX_apply (hw : e.Within w) {q : XReg} (hq : w.dest ≠ .x q) : (e.apply s).readX q = s.readX q := by
  cases e with
  | x rd | swap rd =>
    have hne : q ≠ rd := fun h => hq (h ▸ hw.1)
    simp [Effect.apply, State.readX_writeX_of_ne _ _ hne]
  | f rd => simp [Effect.apply]

/-- Only the destination is written: the floating-point file. -/
theorem readF_apply (hw : e.Within w) {q : FReg} (hq : w.dest ≠ .f q) : (e.apply s).readF q = s.readF q := by
  cases e with
  | x rd | swap rd => simp [Effect.apply]
  | f rd =>
    have hne : q ≠ rd := fun h => hq (h ▸ hw.1)
    simp [Effect.apply, State.readF_writeF, hne]

/-- The value the destination gets is the effect's own, whatever the state. -/
theorem readDest_apply (hw : e.Within w) : (e.apply s).readDest w.dest = (e.apply s').readDest w.dest := by
  cases e with
  | x | swap => simp [hw.1, State.readDest, Effect.apply, State.readX_writeX]
  | f => simp [hw.1, State.readDest, Effect.apply, State.readF_writeF]

theorem fcsr_apply_of_no_flags (hw : e.Within w) (hfl : w.flags = false) : (e.apply s).fcsr = s.fcsr := by
  cases e with
  | x | f =>
    obtain ⟨-, -, hno⟩ := hw
    simp [Effect.apply, hno hfl]
  | swap =>
    obtain ⟨-, -, hset⟩ := hw
    simp [hset] at hfl

/-- A row that does not list `fcsr` only accrues flags, the same from every state (R31). -/
theorem exists_accrued_flags (hw : e.Within w) (hc : w.fcsr = false) :
    ∃ fl, ∀ s, (e.apply s).fflags = s.fflags ||| fl ∧ (e.apply s).frm = s.frm := by
  cases e with
  | x _ r | f _ r => exact ⟨r.flags, fun s => by simp [Effect.apply]⟩
  | swap =>
    obtain ⟨-, hset, -⟩ := hw
    simp [hset] at hc

/-- A row that lists `fcsr` writes all of it, the same from every state. -/
theorem fcsr_apply_of_fcsr (hw : e.Within w) (hc : w.fcsr = true) : (e.apply s).fcsr = (e.apply s').fcsr := by
  cases e with
  | x | f =>
    obtain ⟨-, hno, -⟩ := hw
    simp [hno] at hc
  | swap => simp [Effect.apply]

theorem x_apply_congr (h : s'.x = s.x) : (e.apply s').x = (e.apply s).x := by
  cases e with
  | x => simpa [Effect.apply] using State.writeX_x_congr h _ _
  | f => simpa [Effect.apply] using h
  | swap => exact State.writeX_x_congr (by simpa using h) _ _

theorem f_apply_congr (h : s'.f = s.f) : (e.apply s').f = (e.apply s).f := by
  cases e with
  | x | swap => simpa [Effect.apply] using h
  | f => simp [Effect.apply, State.writeF_f, h]

theorem fcsr_apply_congr (h : s'.fcsr = s.fcsr) : (e.apply s').fcsr = (e.apply s).fcsr := by
  cases e with
  | x | f => simp [Effect.apply, State.accrue_fcsr, State.frm, State.fflags, h]
  | swap => simp [Effect.apply]

@[simp] theorem apply_pc (e : Effect) (s : State) : (e.apply s).pc = s.pc := by cases e <;> simp [Effect.apply]
@[simp] theorem apply_params (e : Effect) (s : State) : (e.apply s).params = s.params := by
  cases e <;> simp [Effect.apply]
@[simp] theorem apply_text (e : Effect) (s : State) : (e.apply s).text = s.text := by
  cases e <;> simp [Effect.apply]

end Effect

/-! ### The frame of every instruction -/

/-- The flags of `s` are among those of `s ||| fl`. -/
theorem flags_and_or_self (a fl : Flags) : a &&& (a ||| fl) = a := by
  ext i
  simp only [BitVec.getElem_and, BitVec.getElem_or]
  cases a[i] <;> simp

/-- Settles O42: the effect of the instruction lies within its row of the table of R24. -/
theorem frameOfEveryInstruction : Obligations.FrameOfEveryInstruction := by
  intro i s t h
  obtain ⟨hpc, hparams, htext⟩ := exec_advances i s t h
  obtain ⟨e, hw, rfl, -⟩ := exec_next h
  refine ⟨fun q hq => e.readX_apply hw hq, fun q hq => e.readF_apply hw hq, fun hfl => e.fcsr_apply_of_no_flags hw hfl,
    fun hc => ?_, hpc, hparams, fun a => by rw [State.readByte, State.readByte, htext]⟩
  obtain ⟨fl, hfl⟩ := e.exists_accrued_flags hw hc
  obtain ⟨hflags, hfrm⟩ := hfl s
  exact ⟨hfrm, by rw [State.fflags_advance, hflags, flags_and_or_self]⟩

/-- Settles O43: both states get the one effect that the agreement fixes. -/
theorem readsOnlyItsSources : Obligations.ReadsOnlyItsSources := by
  intro i s s' t hagree h
  obtain ⟨e, hw, rfl, hexec⟩ := exec_next h
  refine ⟨_, hexec s' hagree, e.readDest_apply hw, e.fcsr_apply_of_fcsr hw, fun hc => ?_⟩
  obtain ⟨fl, hfl⟩ := e.exists_accrued_flags hw hc
  exact ⟨fl, (hfl s).1, (hfl s').1⟩

/-! ### Who reads and who writes `fcsr` (R24, R30, R32) -/

/-- Only Tier G reads `fcsr`, and of the instructions with an `rm` field only those with the dynamic mode. -/
theorem of_readsOf_fcsr {i : Instr} (h : (readsOf i).fcsr = true) :
    i.mnemonic.tier = .G ∧ ∀ rm, rmOf i = some rm → rm = .dyn := by
  cases i <;> simp_all [readsOf, Instr.mnemonic, Mnemonic.tier, rmOf]

theorem writesOf_fcsr_iff (i : Instr) :
    (writesOf i).fcsr = true ↔ ∃ rd rs1, i = .fscsr rd rs1 ∨ i = .fsrm rd rs1 ∨ i = .fsflags rd rs1 := by
  cases i <;> simp [writesOf]

/-- What writes `fcsr` also reads it: the three swaps. -/
theorem readsOf_fcsr_of_writesOf {i : Instr} (h : (writesOf i).fcsr = true) : (readsOf i).fcsr = true := by
  obtain ⟨rd, rs1, rfl | rfl | rfl⟩ := (writesOf_fcsr_iff i).1 h <;> rfl

/-- Settles O44: such an instruction reads no part of `fcsr`, so its effect is the same under another `frm`; and it
only accrues flags, which keeps that `frm`. -/
theorem tierSIgnoresFrm : Obligations.TierSIgnoresFrm := by
  intro i s t m hi h
  have hreads : (readsOf i).fcsr = false := by
    by_contra hr
    obtain ⟨htier, hdyn⟩ := of_readsOf_fcsr (Bool.eq_true_of_not_eq_false hr)
    rcases hi with hS | ⟨rm, hrm, hne⟩
    · simp [htier] at hS
    · exact hne (hdyn rm hrm)
  have hwrites : (writesOf i).fcsr = false := by
    by_contra hwr
    simp [readsOf_fcsr_of_writesOf (Bool.eq_true_of_not_eq_false hwr)] at hreads
  obtain ⟨e, hw, rfl, hexec⟩ := exec_next h
  obtain ⟨fl, hfl⟩ := e.exists_accrued_flags hw hwrites
  rw [hexec (s.writeFrm m) ⟨by simp, by simp, by simp [hreads]⟩]
  congr 1
  ext1
  · exact e.x_apply_congr rfl
  · exact e.f_apply_congr rfl
  · obtain ⟨hflags, hfrm⟩ := hfl (s.writeFrm m)
    rw [State.advance_fcsr, State.fcsr_eq, hflags, hfrm, State.writeFrm_fcsr, State.fflags_advance, (hfl s).1]
    simp
  all_goals simp

/-! ### Destination `x[0]` (R21, R70) -/

/-- The flags of an operation do not depend on its integer destination. -/
theorem finishX_fcsr_eq {rd rd' : XReg} {r : FpResult} {s t u : State} (ht : finishX rd r s = .next t)
    (hu : finishX rd' r s = .next u) : t.fcsr = u.fcsr := by
  cases ht
  cases hu
  simp [State.accrue_fcsr]

/-- Nor do they under a rounding mode. -/
theorem withMode_finishX_fcsr_eq {i j : Instr} {rm : Rm} {rd rd' : XReg} {v : RoundingMode → FpResult} {s t u : State}
    (ht : withMode i rm s (fun mode => finishX rd (v mode) s) = .next t)
    (hu : withMode j rm s (fun mode => finishX rd' (v mode) s) = .next u) : t.fcsr = u.fcsr := by
  unfold withMode at ht hu
  cases hm : resolve rm s.frm with
  | none => simp [hm, raiseIllegal] at ht
  | some mode =>
    simp only [hm] at ht hu
    exact finishX_fcsr_eq ht hu

/-- Settles O45: the frame with destination `x[0]`, which reads zero in every state; and the flags are those of a
result that does not depend on the destination. -/
theorem zeroDestination : Obligations.ZeroDestination := by
  refine ⟨fun i s t hdest h => ?_, fun _ _ _ _ _ _ _ => ⟨finishX_fcsr_eq, finishX_fcsr_eq, finishX_fcsr_eq,
    withMode_finishX_fcsr_eq, withMode_finishX_fcsr_eq⟩⟩
  obtain ⟨hx, hf, -, -, hpc, -⟩ := frameOfEveryInstruction i s t h
  refine ⟨t.readX_zero, fun q => ?_, fun q => hf q (by simp [hdest]), hpc⟩
  by_cases hq : q = 0#5
  · rw [hq, State.readX_zero, State.readX_zero]
  · exact hx q (by simpa [hdest] using Ne.symm hq)

/-! ### Flags and `frm` along a step (R30 to R32) -/

theorem fsrm_keeps_fflags {rd rs1 : XReg} {s t : State} (h : exec (.fsrm rd rs1) s = .next t) :
    t.fflags = s.fflags := by
  cases h
  simp

theorem fsflags_keeps_frm {rd rs1 : XReg} {s t : State} (h : exec (.fsflags rd rs1) s = .next t) :
    t.frm = s.frm := by
  cases h
  simp

/-- What decodes is admitted. -/
theorem wellFormed_of_decodeWord {p : Params} {w : Word} {i : Instr} (h : decodeWord p w = .ok i) :
    i.wellFormed p := by
  obtain ⟨m, hadm, -, rfl⟩ := decodeWord_ok h
  rwa [Instr.wellFormed, mnemonic_build]

/-- Without `ADMIT_GK_ROWS` nothing that decodes writes `fcsr` (R6). -/
theorem writesOf_fcsr_of_decodeWord {p : Params} {w : Word} {i : Instr} (hp : p.admitGkRows = false)
    (h : decodeWord p w = .ok i) : (writesOf i).fcsr = false := by
  by_contra hc
  have hadm := wellFormed_of_decodeWord h
  obtain ⟨htier, -⟩ := of_readsOf_fcsr (readsOf_fcsr_of_writesOf (Bool.eq_true_of_not_eq_false hc))
  simp [Instr.wellFormed, Mnemonic.admitted, htier, hp] at hadm

/-- Settles O48: by the frame, only the three swaps clear a flag or change `frm`, and `fsrm` and `fsflags` each keep the
other field. -/
theorem onlyExplicitWritesClearFlags : Obligations.OnlyExplicitWritesClearFlags := by
  intro s t h
  obtain ⟨i, ⟨-, -, -, hdecode⟩, hexec⟩ := runs_of_step_next h
  obtain ⟨-, -, -, hkeeps, -⟩ := frameOfEveryInstruction i s t hexec
  have hswap : (t.frm ≠ s.frm ∨ s.fflags &&& t.fflags ≠ s.fflags) →
      ∃ rd rs1, i = .fscsr rd rs1 ∨ i = .fsrm rd rs1 ∨ i = .fsflags rd rs1 := fun hne => by
    rw [← writesOf_fcsr_iff]
    by_contra hc
    obtain ⟨hfrm, hflags⟩ := hkeeps (Bool.eq_false_of_not_eq_true hc)
    exact hne.elim (· hfrm) (· hflags)
  refine ⟨fun hcleared => ?_, fun hfrm => ?_, fun hp => hkeeps (writesOf_fcsr_of_decodeWord hp hdecode)⟩
  · obtain ⟨rd, rs1, rfl | rfl | rfl⟩ := hswap (.inr hcleared)
    · exact ⟨rd, rs1, .inl hdecode⟩
    · exact absurd (by rw [fsrm_keeps_fflags hexec, BitVec.and_self]) hcleared
    · exact ⟨rd, rs1, .inr hdecode⟩
  · obtain ⟨rd, rs1, rfl | rfl | rfl⟩ := hswap (.inl hfrm)
    · exact ⟨rd, rs1, .inl hdecode⟩
    · exact ⟨rd, rs1, .inr hdecode⟩
    · exact absurd (fsflags_keeps_frm hexec) hfrm

/-! ### Another address, another text: what an instruction cannot see (R25, R41) -/

/-- An instruction does the same from every state with the same registers and `fcsr`, wherever that state's program
stands. -/
theorem exec_next_of_registers_eq {i : Instr} {s s' t : State} (hx : s'.x = s.x) (hf : s'.f = s.f)
    (hc : s'.fcsr = s.fcsr) (h : exec i s = .next t) :
    exec i s' = .next { t with pc := s'.pc + 4#32, params := s'.params, text := s'.text } := by
  obtain ⟨e, -, rfl, hexec⟩ := exec_next h
  have hagree : AgreeOn (readsOf i) s s' :=
    ⟨fun q _ => by simp only [State.readX, hx], fun q _ => by simp only [State.readF, hf], fun _ => hc.symm⟩
  rw [hexec s' hagree]
  congr 1
  ext1
  · exact e.x_apply_congr hx
  · exact e.f_apply_congr hf
  · exact e.fcsr_apply_congr hc
  · simp [State.advance_pc_eq, -State.advance_pc]
  · simp
  · simp

/-- Settles O46: the two states have the same registers. -/
theorem pcIsNotRead : Obligations.PcIsNotRead := by
  intro i s t a h
  obtain ⟨-, hparams, htext⟩ := exec_advances i s t h
  rw [exec_next_of_registers_eq (s := s) (s' := { s with pc := a }) rfl rfl rfl h, ← hparams, ← htext]

/-- A shifted text read at the shifted address. -/
theorem Memory.read_shift (m : Memory) (k a : Nat) : Memory.read (m.map fun c => (c.1 + k, c.2)) (a + k) = m.read a := by
  induction m with
  | nil => rfl
  | cons c m ih => simp [Memory.read_cons, ih]

/-- While the fetch is admitted, moving a program within the address space does not wrap `pc`. -/
theorem relocated_pc_toNat {s : State} {d : Nat} (hd : (s.relocated d).params.legal) (hf : Fetchable s) :
    (s.relocated d).pc.toNat = s.pc.toNat + d := by
  obtain ⟨-, -, -, -, hroom, -⟩ := hd
  obtain ⟨-, -, htop⟩ := hf
  simp only [State.relocated, BitVec.toNat_add, BitVec.toNat_ofNat] at hroom ⊢
  omega

theorem relocated_fetchWord {s : State} {d : Nat} (hpc : (s.relocated d).pc.toNat = s.pc.toNat + d) :
    (s.relocated d).fetchWord = s.fetchWord := by
  have hread (k : Nat) : (s.relocated d).readByte (s.pc.toNat + d + k) = s.readByte (s.pc.toNat + k) := by
    rw [Nat.add_right_comm]
    exact Memory.read_shift s.text d _
  have hread0 : (s.relocated d).readByte (s.pc.toNat + d) = s.readByte s.pc.toNat := hread 0
  rw [State.fetchWord, State.fetchWord, State.readWord, State.readWord, hpc, hread0, hread 1, hread 2, hread 3]

/-- The moved program runs the same instruction. -/
theorem Runs.relocated {s : State} {i : Instr} {d : Nat} (hd : (s.relocated d).params.legal) (h : Runs s i) :
    Runs (s.relocated d) i := by
  obtain ⟨hlegal, hend, hfetch, hdecode⟩ := h
  have hpc := relocated_pc_toNat hd hfetch
  refine ⟨hd, ?_, ?_, ?_⟩
  · obtain ⟨-, -, -, -, hroom, -⟩ := hd
    obtain ⟨-, -, -, hlen, -, -⟩ := hlegal
    obtain ⟨-, hlow, htop⟩ := hfetch
    rw [hpc]
    simp only [State.relocated, textEnd] at hroom hend ⊢
    omega
  · obtain ⟨hbase', -⟩ := hd
    obtain ⟨hbase, -⟩ := hlegal
    obtain ⟨halign, hlow, htop⟩ := hfetch
    rw [Fetchable, hpc]
    simp only [State.relocated] at hbase' ⊢
    omega
  · rw [relocated_fetchWord hpc]
    exact hdecode

/-- One step of the moved program is the step of the program, moved. -/
theorem step_relocated {s t : State} {d : Nat} (hd : (s.relocated d).params.legal) (h : step s = .next t) :
    step (s.relocated d) = .next (t.relocated d) := by
  obtain ⟨i, hruns, hexec⟩ := runs_of_step_next h
  obtain ⟨hpc, hparams, htext⟩ := exec_advances i s t hexec
  rw [step_of_runs (hruns.relocated hd), exec_next_of_registers_eq (s := s) (s' := s.relocated d) rfl rfl rfl hexec]
  simp only [State.relocated, hpc, hparams, htext, BitVec.add_assoc, BitVec.add_comm (BitVec.ofNat 32 d)]

/-- The moved program has ended exactly where the program has. -/
theorem final_relocated_iff {s : State} {d : Nat} (hs : s.params.legal) (hd : (s.relocated d).params.legal) :
    s.final ↔ (s.relocated d).final := by
  have hend : s.pc.toNat = textEnd s.params ↔ (s.relocated d).pc.toNat = textEnd (s.relocated d).params := by
    have := s.pc.isLt
    simp only [State.relocated, textEnd, BitVec.toNat_add, BitVec.toNat_ofNat]
    omega
  exact ⟨fun h => ⟨hd, hend.1 h.2⟩, fun h => ⟨hs, hend.2 h.2⟩⟩

/-- Settles O47: by induction on the number of steps; the parameters, and so their constraints, stay along the run. -/
theorem relocatedRunsAgree : Obligations.RelocatedRunsAgree := by
  rintro n d s t ⟨hs, -⟩ ⟨hd, -⟩ hrun
  induction n generalizing s with
  | zero =>
    cases hrun
    exact ⟨rfl, final_relocated_iff hs hd⟩
  | succ n ih =>
    obtain ⟨u, hstep, hrun⟩ := run_succ_next_iff.1 hrun
    obtain ⟨-, hparams, -⟩ := step_advances s u hstep
    have hd' : (u.relocated d).params.legal := by
      rwa [show (u.relocated d).params = (s.relocated d).params by simp only [State.relocated, hparams]]
    obtain ⟨hrun', hfinal⟩ := ih u (hparams ▸ hs) hd' hrun
    exact ⟨run_succ_next_iff.2 ⟨_, step_relocated hd hstep, hrun'⟩, hfinal⟩

end Sys2Proof.Machine

/-! ### Control registers and launch (R30, R33, R36, R169 to R174) -/

namespace Sys2Proof.Machine

/-- The low `k` bits of a word, zero-extended, are the word under a mask. -/
theorem setWidth_extractLsb'_low (w : Word) (k : Nat) (hk : k ≤ 32) :
    (w.extractLsb' 0 k).setWidth 32 = w &&& BitVec.ofNat 32 (2 ^ k - 1) := by
  apply BitVec.eq_of_toNat_eq
  have hpow : 2 ^ k ≤ 2 ^ 32 := Nat.pow_le_pow_right (by decide) hk
  have hmask : 2 ^ k - 1 < 2 ^ 32 := by have := Nat.two_pow_pos k; omega
  have hlow : w.toNat % 2 ^ k < 2 ^ 32 := lt_of_lt_of_le (Nat.mod_lt _ (Nat.two_pow_pos k)) hpow
  rw [BitVec.toNat_and, BitVec.toNat_ofNat, Nat.mod_eq_of_lt hmask, Nat.and_two_pow_sub_one_eq_mod]
  simpa [BitVec.extractLsb'_toNat] using hlow

/-- What `frcsr`, `frrm` and `frflags` leave in a destination that is not `x[0]`. -/
theorem execBitsX_readX {rd : XReg} {v : Word} {s t : State} (hrd : rd ≠ 0#5) (h : execBitsX rd v s = .next t) :
    t.readX rd = v := by
  cases h
  simp [State.readX_writeX, hrd]

/-- Settles O38: the field the swap wrote is the low bits of the source, and the read gives the field back. -/
theorem controlRegisterWriteThenRead : Obligations.ControlRegisterWriteThenRead := by
  intro rd rs1 rr s t u hrr
  refine ⟨fun hwrite hread => ?_, fun hwrite hread => ?_, fun hwrite hread => ?_⟩
  · have hfield : t.fcsr = (s.readX rs1).extractLsb' 0 8 := by cases hwrite; simp
    rw [execBitsX_readX hrr hread, hfield, setWidth_extractLsb'_low _ 8 (by decide)]
    rfl
  · have hfield : t.frm = (s.readX rs1).extractLsb' 0 3 := by cases hwrite; simp
    rw [execBitsX_readX hrr hread, hfield, setWidth_extractLsb'_low _ 3 (by decide)]
    rfl
  · have hfield : t.fflags = (s.readX rs1).extractLsb' 0 5 := by cases hwrite; simp
    rw [execBitsX_readX hrr hread, hfield, setWidth_extractLsb'_low _ 5 (by decide)]
    rfl

/-- Register `k + 1` is the integer file's cell `k`: `x[0]` is no cell. -/
theorem readX_succ (s : State) (k : Fin 31) : s.readX (BitVec.ofNat 5 (k + 1)) = s.x[k] := by
  have hk : (k + 1 : Nat) % 32 = k + 1 := Nat.mod_eq_of_lt (by omega)
  have hne : BitVec.ofNat 5 (k + 1) ≠ 0#5 := fun h => by simpa [hk] using congrArg BitVec.toNat h
  rw [State.readX, if_neg hne]
  simp [hk]

theorem readF_ofNat (s : State) (k : Fin 32) : s.readF (BitVec.ofNat 5 k) = s.f[k] := by
  simp [State.readF]

/-- Settles O54: a launch state is made of what the loader supplies, and each register is its cell. -/
theorem launchState : Obligations.LaunchState := fun _ _ _ _ _ =>
  ⟨rfl, rfl, rfl, rfl, State.readX_zero _, readX_succ _, readF_ofNat _⟩

end Sys2Proof.Machine

/-! ### The byte order of memory (R42, R44) -/

namespace Sys2Proof.Machine

/-- Byte `k` of the word of four bytes is the `k`-th of them: the slice at bit `8 * k` skips the bytes appended below
it. The other half of `wordOfBytes_byteOfWord`. -/
theorem byteOfWord_wordOfBytes (b : Fin 4 → Byte) (k : Fin 4) :
    byteOfWord (wordOfBytes (b 0) (b 1) (b 2) (b 3)) k = b k := by
  rw [byteOfWord, wordOfBytes]
  match k with
  | 0 => exact BitVec.extractLsb'_append_eq_right
  | 1 =>
    rw [BitVec.extractLsb'_append_eq_of_le (by decide)]
    exact BitVec.extractLsb'_append_eq_right
  | 2 =>
    rw [BitVec.extractLsb'_append_eq_of_le (by decide), BitVec.extractLsb'_append_eq_of_le (by decide)]
    exact BitVec.extractLsb'_append_eq_right
  | 3 =>
    rw [BitVec.extractLsb'_append_eq_of_le (by decide), BitVec.extractLsb'_append_eq_of_le (by decide)]
    exact BitVec.extractLsb'_append_eq_left

/-- Memory is little-endian: byte `k` of the word at `a` is the byte at `a + k` (R42). -/
theorem State.byteOfWord_readWord (s : State) (a : Nat) (k : Fin 4) :
    byteOfWord (s.readWord a) k = s.readByte (a + k) :=
  byteOfWord_wordOfBytes (fun j => s.readByte (a + j)) k

/-- Settles O11: the four bit ranges are the word's bytes, and the fetch is by definition the read at `pc`. -/
theorem fetchIsLittleEndian : Obligations.FetchIsLittleEndian := fun s a =>
  ⟨s.byteOfWord_readWord a 0, s.byteOfWord_readWord a 1, s.byteOfWord_readWord a 2, s.byteOfWord_readWord a 3, rfl⟩

end Sys2Proof.Machine

/-! ### The round trip of decoder and encoder: a row's fixed bits and its operands are all of a word (R62, R65) -/

namespace Sys2Proof

/-- Settles O1: the encoder's word fits the instruction's own row, which builds the instruction back. -/
theorem decodeOfEncode : Obligations.DecodeOfEncode := by
  intro p i hi
  have hword : decodeWord p (encode i) = .ok i := by rw [decodeWord_encode, if_pos hi]
  refine ⟨hword, ?_⟩
  rw [encodeBytes, decodeBytes, Machine.wordOfBytes_byteOfWord, hword]

/-- The bits of a word that the field of `n` bits at bit `s` takes. -/
def fieldMask (s n : Nat) : Word := (BitVec.allOnes n).setWidth 32 <<< s

theorem and_fieldMask_congr {s n : Nat} {w v : Word} (h : w.extractLsb' s n = v.extractLsb' s n) :
    w &&& fieldMask s n = v &&& fieldMask s n := by
  apply BitVec.eq_of_getLsbD_eq
  intro k _
  simp only [fieldMask, BitVec.getLsbD_and, BitVec.getLsbD_shiftLeft, BitVec.getLsbD_setWidth, BitVec.getLsbD_allOnes]
  by_cases hs : k < s
  · simp [hs]
  by_cases hn : k - s < n
  · have hbit : w.getLsbD k = v.getLsbD k := by
      have := congrArg (·.getLsbD (k - s)) h
      simpa [BitVec.getLsbD_extractLsb', hn, Nat.add_sub_cancel' (Nat.le_of_not_lt hs)] using this
    rw [hbit]
  · simp [hn]

/-- Words that agree under two masks agree under both together. -/
theorem and_or_congr {w v a b : Word} (ha : w &&& a = v &&& a) (hb : w &&& b = v &&& b) :
    w &&& (a ||| b) = v &&& (a ||| b) := by
  rw [BitVec.and_or_distrib_left, BitVec.and_or_distrib_left, ha, hb]

theorem rmField_congr {w v : Word} (h : Rm.ofBits (rmField w) = Rm.ofBits (rmField v)) : rmField w = rmField v := by
  rw [← Rm.bits_ofBits (rmField w), h, Rm.bits_ofBits]

/-- The bits a row leaves free are its operand fields: the operands determine them (R62, R76 to R78). -/
theorem and_not_mask_eq_of_build_eq {m : Mnemonic} {w v : Word} (h : m.build w = m.build v) :
    w &&& ~~~m.pattern.mask = v &&& ~~~m.pattern.mask := by
  cases m with
  | add | sub | sll | slt | sltu | xor | srl | sra | or | and | mul | mulh | mulhsu | mulhu | div | divu | rem | remu
  | faddS | fsubS | fmulS | fdivS | fsgnjS | fsgnjnS | fsgnjxS | fminS | fmaxS | feqS | fltS | fleS =>
    injection h with hrd hrs1 hrs2
    exact and_or_congr (and_or_congr (and_fieldMask_congr hrd) (and_fieldMask_congr hrs1)) (and_fieldMask_congr hrs2)
  | fmwWX | fmwXW | fsqrtS | fclassS | fscsr | fsrm | fsflags =>
    injection h with hrd hrs1
    exact and_or_congr (and_fieldMask_congr hrd) (and_fieldMask_congr hrs1)
  | frcsr | frrm | frflags =>
    injection h with hrd
    exact and_fieldMask_congr hrd
  | fcvtSW | fcvtSWu | fmwWS | fmwWuS =>
    injection h with hrd hrs1 hrm
    exact and_or_congr (and_or_congr (and_fieldMask_congr hrd) (and_fieldMask_congr hrs1))
      (and_fieldMask_congr (rmField_congr hrm))
  | fmaddS | fmsubS | fnmsubS | fnmaddS =>
    injection h with hrd hrs1 hrs2 hrs3 hrm
    exact and_or_congr (and_or_congr (and_or_congr (and_or_congr (and_fieldMask_congr hrd) (and_fieldMask_congr hrs1))
      (and_fieldMask_congr hrs2)) (and_fieldMask_congr hrs3)) (and_fieldMask_congr (rmField_congr hrm))

/-- No bit of a word is ignored: a row gives different operands to different words of it. -/
theorem Mnemonic.eq_of_build_eq {m : Mnemonic} {w v : Word} (hw : m.fits w = true) (hv : m.fits v = true)
    (h : m.build w = m.build v) : w = v := by
  have hfixed : w &&& m.pattern.mask = v &&& m.pattern.mask := by
    rw [Mnemonic.fits_iff.1 hw, Mnemonic.fits_iff.1 hv]
  have hall := and_or_congr hfixed (and_not_mask_eq_of_build_eq h)
  rwa [BitVec.or_not_self, BitVec.and_allOnes, BitVec.and_allOnes] at hall

theorem encode_build {m : Mnemonic} {w : Word} (hw : m.fits w = true) : encode (m.build w) = w := by
  have hfits := fits_encode (m.build w)
  have hbuild := build_encode (m.build w)
  rw [mnemonic_build] at hfits hbuild
  exact Mnemonic.eq_of_build_eq hfits hw hbuild

/-- Settles O2: the word and its instruction's encoding are words of one row with the same operands. -/
theorem encodeOfDecode : Obligations.EncodeOfDecode := by
  intro p w i h
  obtain ⟨m, hadm, hfits, rfl⟩ := decodeWord_ok h
  exact ⟨encode_build hfits, Machine.wellFormed_of_decodeWord h⟩

/-- Settles O3: the decoder's two answers, each with what it says of the table. -/
theorem decodeHasTwoVerdicts : Obligations.DecodeHasTwoVerdicts := by
  intro p w
  cases hd : decodeWord p w with
  | ok i =>
    obtain ⟨m, hadm, hfits, rfl⟩ := decodeWord_ok hd
    exact .inl ⟨m.build w, by simpa using hadm, by simpa using Mnemonic.fits_iff.1 hfits, rfl⟩
  | error r =>
    obtain ⟨rfl, hno⟩ := decodeWord_error hd
    exact .inr ⟨fun m hadm hw => by simpa [Mnemonic.fits_iff.2 hw] using hno m hadm, rfl⟩

end Sys2Proof

/-! ### The opcode table by its columns: rows are disjoint (R74), and what R67 and R69 name is no row -/

namespace Sys2Proof

/-- A match value has no bit outside its mask: it is a word of its own row. -/
theorem fits_bits (m : Mnemonic) : m.fits m.pattern.bits = true := by
  cases m <;> decide

/-- Settles O4: otherwise the two patterns would agree on every bit that both masks fix, and the rows be one. -/
theorem rowsDoNotOverlap : Obligations.RowsDoNotOverlap := by
  intro m n hne
  by_contra! hagree
  refine hne (eq_of_pattern_agree m (mem_all m) n (mem_all n) ?_)
  rw [← Mnemonic.fits_iff.1 (fits_bits m), ← Mnemonic.fits_iff.1 (fits_bits n)]
  apply BitVec.eq_of_getLsbD_eq
  intro k hk
  simp only [BitVec.getLsbD_and]
  by_cases hm : m.pattern.mask.getLsbD k = true
  · by_cases hn : n.pattern.mask.getLsbD k = true
    · have hbits : m.pattern.bits.getLsbD k = n.pattern.bits.getLsbD k := hagree ⟨k, hk⟩ hm hn
      simp [hm, hn, hbits]
    · simp [hn]
  · simp [hm]

/-- The columns opcode, funct3 and funct7 of R61. -/
abbrev opcodeField (w : Word) : BitVec 7 := w.extractLsb' 0 7
abbrev funct3Field (w : Word) : BitVec 3 := w.extractLsb' 12 3
abbrev funct7Field (w : Word) : BitVec 7 := w.extractLsb' 25 7

/-- The row fixes the field of `n` bits at bit `s`. -/
abbrev Mnemonic.Fixes (m : Mnemonic) (s n : Nat) : Prop := m.pattern.mask.extractLsb' s n = BitVec.allOnes n

/-- Field by field, a word of a row is under the mask what the match value is (R66). -/
theorem extractLsb'_and_of_fits {m : Mnemonic} {w : Word} (hw : m.fits w = true) (s n : Nat) :
    w.extractLsb' s n &&& m.pattern.mask.extractLsb' s n = m.pattern.bits.extractLsb' s n := by
  rw [← Mnemonic.fits_iff.1 hw, BitVec.extractLsb'_and]

theorem extractLsb'_of_fits {m : Mnemonic} {w : Word} {s n : Nat} (hw : m.fits w = true) (hf : m.Fixes s n) :
    w.extractLsb' s n = m.pattern.bits.extractLsb' s n := by
  rw [← extractLsb'_and_of_fits hw, hf, BitVec.and_allOnes]

/-- The columns of the Tier S rows (R66): the 18 of opcode `0110011`, then the 11 of opcode `1010011`. -/
abbrev IsTierSRow (opcode : BitVec 7) (funct3 : BitVec 3) (rs2 : BitVec 5) (funct7 : BitVec 7) : Prop :=
  opcode = 0b0110011#7 ∧
      (funct7 ∈ [0b0000000#7, 0b0000001#7] ∨ funct7 = 0b0100000#7 ∧ funct3 ∈ [0b000#3, 0b101#3]) ∨
    opcode = 0b1010011#7 ∧
      (funct7 ∈ [0b0000000#7, 0b0000100#7, 0b0001000#7, 0b0001100#7] ∧ funct3 = 0b000#3 ∨
        funct7 = 0b0101100#7 ∧ rs2 = 0b00000#5 ∧ funct3 ∈ [0b000#3, 0b010#3] ∨
        funct7 = 0b0010000#7 ∧ funct3 ∈ [0b000#3, 0b001#3, 0b010#3] ∨
        funct7 = 0b0010100#7 ∧ funct3 ∈ [0b000#3, 0b001#3])

/-- The columns opcode and, under `1010011`, funct7 of the Tier G rows (R75). -/
abbrev IsTierGRow (opcode funct7 : BitVec 7) : Prop :=
  opcode ∈ [0b1000011#7, 0b1000111#7, 0b1001011#7, 0b1001111#7, 0b1110011#7] ∨
    opcode = 0b1010011#7 ∧ funct7 ∈ [0b1010000#7, 0b1100000#7, 0b1101000#7, 0b1110000#7]

/-- Every Tier S row fixes opcode, funct3 and funct7; `rs2` is free but for the two rows of R67. -/
theorem tierS_table : ∀ m ∈ Mnemonic.all, m.tier = .S → m.Fixes 0 7 ∧ m.Fixes 12 3 ∧ m.Fixes 25 7 ∧
    ∀ rs2 : BitVec 5, rs2 &&& m.pattern.mask.extractLsb' 20 5 = m.pattern.bits.extractLsb' 20 5 →
      IsTierSRow (opcodeField m.pattern.bits) (funct3Field m.pattern.bits) rs2 (funct7Field m.pattern.bits) := by
  decide +kernel

/-- Every Tier G row fixes opcode, and funct7 under opcode `1010011`. -/
theorem tierG_table : ∀ m ∈ Mnemonic.all, m.tier = .G → m.Fixes 0 7 ∧
    (opcodeField m.pattern.bits = 0b1010011#7 → m.Fixes 25 7) ∧
      IsTierGRow (opcodeField m.pattern.bits) (funct7Field m.pattern.bits) := by
  decide +kernel

theorem isTierSRow_of_fits {m : Mnemonic} {w : Word} (ht : m.tier = .S) (hw : m.fits w = true) :
    IsTierSRow (opcodeField w) (funct3Field w) (w.extractLsb' 20 5) (funct7Field w) := by
  obtain ⟨hopcode, hfunct3, hfunct7, hrow⟩ := tierS_table m (mem_all m) ht
  rw [opcodeField, funct3Field, funct7Field, extractLsb'_of_fits hw hopcode, extractLsb'_of_fits hw hfunct3,
    extractLsb'_of_fits hw hfunct7]
  exact hrow _ (extractLsb'_and_of_fits hw 20 5)

theorem isTierGRow_of_fits {m : Mnemonic} {w : Word} (ht : m.tier = .G) (hw : m.fits w = true) :
    IsTierGRow (opcodeField w) (funct7Field w) := by
  obtain ⟨hopcode, hfunct7, hrow⟩ := tierG_table m (mem_all m) ht
  rw [opcodeField, funct7Field, extractLsb'_of_fits hw hopcode]
  exact hrow.imp_right fun ⟨hop, hmem⟩ => ⟨hop, by rwa [extractLsb'_of_fits hw (hfunct7 hop)]⟩

/-- A word is unlisted where its columns are those of no Tier S row, nor of a Tier G row if those are admitted (R65). -/
theorem decodeWord_of_not_isRow {p : Params} {w : Word}
    (hS : ¬ IsTierSRow (opcodeField w) (funct3Field w) (w.extractLsb' 20 5) (funct7Field w))
    (hG : p.admitGkRows = true → ¬ IsTierGRow (opcodeField w) (funct7Field w)) :
    decodeWord p w = .error (.unlisted w) := by
  cases hd : decodeWord p w with
  | error r => rw [(decodeWord_error hd).1]
  | ok i =>
    obtain ⟨m, hadm, hw, -⟩ := decodeWord_ok hd
    cases ht : m.tier with
    | S => exact absurd (isTierSRow_of_fits ht hw) hS
    | G => exact absurd (isTierGRow_of_fits ht hw) (hG (by simpa [Mnemonic.admitted, ht] using hadm))

/-- Settles O6: the columns of the table, and among its rows of that opcode and funct7 none has another `rs2`. -/
theorem constantRs2IsPartOfThePattern : Obligations.ConstantRs2IsPartOfThePattern := by
  refine ⟨by decide, fun p w hfunct7 _ hopcode hrs2 => ?_⟩
  exact decodeWord_of_not_isRow (by simp [hopcode, hfunct7, hrs2]) (by simp [hopcode, hfunct7])

end Sys2Proof

namespace Sys2Proof.Machine

/-- The step on a fetched word that fits no admitted row (R69, R205). -/
theorem step_of_fits_no_row {s : State} (hlegal : s.params.legal) (hend : s.pc.toNat ≠ textEnd s.params)
    (hfetch : Fetchable s) (hno : ∀ m : Mnemonic, m.admitted s.params = true → ¬ m.fits s.fetchWord = true) :
    step s = .fault (.illegalInstruction s.fetchWord s) := by
  rcases step_cases s with ⟨hn, -⟩ | ⟨hfinal, -⟩ | ⟨-, -, hn, -⟩ | ⟨-, -, -, -, hstep⟩ | ⟨i, ⟨-, -, -, hdecode⟩, -⟩
  · exact absurd hlegal hn
  · exact absurd hfinal.2 hend
  · exact absurd hfetch hn
  · exact hstep
  · obtain ⟨m, hadm, hfits, -⟩ := decodeWord_ok hdecode
    exact absurd hfits (hno m hadm)

/-- Settles O7: the step's decode stage; and in each group of R69 the columns are those of no admitted row. -/
theorem unlistedWordsFault : Obligations.UnlistedWordsFault := by
  refine ⟨fun s hlegal hend hfetch hno => ?_, fun p w => ?_⟩
  · exact step_of_fits_no_row hlegal hend hfetch fun m hadm hfits => hno m hadm (Mnemonic.fits_iff.1 hfits)
  refine ⟨?_, ?_, ?_, ?_, ?_, ?_, ?_, ?_, ?_⟩
  · rintro ⟨hop, hopFp, hG⟩
    exact decodeWord_of_not_isRow (by simp [hop, hopFp]) fun hp => by simpa [hopFp] using hG hp
  · intro hopcode hfunct7
    simp only [List.mem_cons, List.not_mem_nil, or_false, not_or] at hfunct7
    exact decodeWord_of_not_isRow (by simp [hopcode, hfunct7]) (by simp [hopcode])
  · intro hopcode hfunct7 hfunct3
    exact decodeWord_of_not_isRow (by simpa [hopcode, hfunct7] using hfunct3) (by simp [hopcode])
  · intro hopcode hfunct7 hfunct3
    simp only [List.mem_cons, List.not_mem_nil, or_false] at hfunct7
    rcases hfunct7 with h | h | h | h <;>
      exact decodeWord_of_not_isRow (by simp [hopcode, h, hfunct3]) (by simp [hopcode, h])
  · intro hopcode hfunct7 hne
    exact decodeWord_of_not_isRow (by simpa [hopcode, hfunct7] using hne) (by simp [hopcode, hfunct7])
  · intro hopcode hfunct7 hfunct3
    exact decodeWord_of_not_isRow (by simpa [hopcode, hfunct7] using hfunct3) (by simp [hopcode, hfunct7])
  · intro hopcode hfunct7 hfunct3
    exact decodeWord_of_not_isRow (by simpa [hopcode, hfunct7] using hfunct3) (by simp [hopcode, hfunct7])
  · intro hopcode hfunct7 hG
    simp only [List.mem_cons, List.not_mem_nil, or_false, not_or] at hfunct7
    exact decodeWord_of_not_isRow (by simp [hopcode, hfunct7]) fun hp => by simpa [hopcode] using hG hp
  · rintro (rfl | rfl) <;> exact decodeWord_of_not_isRow (by decide) fun _ => by decide

end Sys2Proof.Machine

/-! ### The instructions with a rounding-mode field (R78, R155): which they are, and where they complete -/

namespace Sys2Proof

/-- The eight rows with an `rm` field are those whose mask leaves bits 14:12 free (R78). -/
theorem Mnemonic.mem_rmRows_iff (m : Mnemonic) :
    m ∈ [.fcvtSW, .fcvtSWu, .fmwWS, .fmwWuS, .fmaddS, .fmsubS, .fnmsubS, .fnmaddS] ↔
      m.pattern.mask &&& 0x00007000#32 = 0x00000000#32 := by
  cases m <;> decide

end Sys2Proof

namespace Sys2Proof.Machine

theorem rmOf_isSome_iff (i : Instr) :
    (rmOf i).isSome = true ↔
      i.mnemonic ∈ [.fcvtSW, .fcvtSWu, .fmwWS, .fmwWuS, .fmaddS, .fmsubS, .fnmsubS, .fnmaddS] := by
  cases i <;> simp [rmOf, Instr.mnemonic]

/-- An instruction without an `rm` field completes in every state. -/
theorem exec_completes_of_rmOf_none {i : Instr} (h : rmOf i = none) (s : State) : ∃ t, exec i s = .next t := by
  cases i with
  | fcvtSW | fcvtSWu | fmwWS | fmwWuS | fmaddS | fmsubS | fnmsubS | fnmaddS => simp [rmOf] at h
  | _ => exact ⟨_, rfl⟩

/-- An instruction with an `rm` field runs under that mode, and completes under every mode it can select. -/
theorem exec_eq_withMode {i : Instr} {rm : Rm} (h : rmOf i = some rm) (s : State) :
    ∃ run, exec i s = withMode i rm s run ∧ ∀ mode, ∃ t, run mode = .next t := by
  cases i with
  | fcvtSW | fcvtSWu | fmwWS | fmwWuS | fmaddS | fmsubS | fnmsubS | fnmaddS =>
    cases h
    exact ⟨_, rfl, fun _ => ⟨_, rfl⟩⟩
  | _ => simp [rmOf] at h

theorem exec_of_reservedMode {i : Instr} {s : State} (h : ReservedMode i s.frm) :
    exec i s = .fault (.illegalInstruction (encode i) s) := by
  obtain ⟨rm, hrm, hno⟩ := h
  obtain ⟨run, hexec, -⟩ := exec_eq_withMode hrm s
  rw [hexec, withMode_of_reserved hno]

theorem exec_completes_of_not_reservedMode {i : Instr} {s : State} (h : ¬ ReservedMode i s.frm) :
    ∃ t, exec i s = .next t := by
  cases hrm : rmOf i with
  | none => exact exec_completes_of_rmOf_none hrm s
  | some rm =>
    obtain ⟨mode, hmode⟩ : ∃ mode, Selects rm s.frm mode := by
      by_contra! hno
      exact h ⟨rm, hrm, hno⟩
    obtain ⟨run, hexec, hrun⟩ := exec_eq_withMode hrm s
    rw [hexec, withMode_of_selects hmode]
    exact hrun mode

/-- Settles O41: the masks of the eight rows, the codes of `rm`, and the two outcomes of the mode check. -/
theorem reservedRoundingModesFault : Obligations.ReservedRoundingModesFault :=
  ⟨fun i => (rmOf_isSome_iff i).trans (Mnemonic.mem_rmRows_iff i.mnemonic), Rm.bits_ofBits,
    fun _ _ => ⟨exec_of_reservedMode, exec_completes_of_not_reservedMode⟩⟩

end Sys2Proof.Machine

/-! ### The words the spec writes out (R65) -/

namespace Sys2Proof

theorem Mnemonic.admitted_admitAll (p : Params) (m : Mnemonic) : m.admitted p.admitAll = true := by
  cases ht : m.tier <;> simp [Mnemonic.admitted, ht, Params.admitAll]

/-- With both tiers admitted, the word an instruction encodes to decodes to it. -/
theorem decodeWord_admitAll_of_encode_eq {p : Params} {i : Instr} {w : Word} (h : encode i = w) :
    decodeWord p.admitAll w = .ok i := by
  rw [← h, decodeWord_encode, if_pos (Mnemonic.admitted_admitAll p i.mnemonic)]

/-- Settles O8: eleven words are the encodings of the instructions beside them; the twelfth has the columns of no row. -/
theorem sanityWordsDecode : Obligations.SanityWordsDecode := by
  refine ⟨?_, ?_, ?_, ?_, ?_, ?_, ?_, ?_, ?_, ?_, ?_, decodeWord_of_not_isRow (by decide) fun _ => by decide⟩ <;>
    exact decodeWord_admitAll_of_encode_eq (by decide)

end Sys2Proof

/-! ### The RV32I register-register instructions (R65, R66, R99 to R110) -/

namespace Sys2Proof.Machine

/-- Every row decodes by its own match and mask, with the operands its `build` extracts (R65, R66). -/
theorem rowDecodes_pattern (m : Mnemonic) : RowDecodes m m.pattern.bits m.pattern.mask m.build := by
  intro p w
  refine ⟨fun hadm hw => ?_, fun i hdecode hrow => ?_⟩
  · rw [decodeWord_of_fits p (Mnemonic.fits_iff.2 hw), if_pos hadm]
  · obtain ⟨n, -, hfits, rfl⟩ := decodeWord_ok hdecode
    obtain rfl : n = m := by rwa [mnemonic_build] at hrow
    exact ⟨Mnemonic.fits_iff.1 hfits, rfl⟩

/-- An instruction whose meaning is the frame of R99 around `op` completes with the value of `op`, whatever expression
gives that value. -/
theorem completesX_of_execIntOp {i : Instr} (op : Word → Word → Word) {rd rs1 rs2 : XReg} {s : State} {v : Word}
    (hexec : exec i s = execIntOp op rd rs1 rs2 s) (hv : op (s.readX rs1) (s.readX rs2) = v) :
    CompletesX i s rd v 0x00#5 := by
  rw [CompletesX, hexec, ← hv]
  exact execIntOp_spec op rd rs1 rs2 s

/-! The operations of the rows as the spec writes them, over the integers. -/

theorem sub_eq_ofInt (a b : Word) : a - b = BitVec.ofInt 32 ((a.toNat : ℤ) - (b.toNat : ℤ)) := by
  simp [Int.sub_eq_add_neg, BitVec.ofInt_add, BitVec.ofInt_neg, BitVec.sub_eq_add_neg]

theorem shiftAmount_eq (b : Word) : shiftAmount b = b.toNat % 32 := by
  simp [shiftAmount, BitVec.extractLsb'_toNat]

theorem shiftLeft_shiftAmount (a b : Word) :
    a <<< shiftAmount b = BitVec.ofNat 32 (a.toNat * 2 ^ (b.toNat % 32)) := by
  apply BitVec.eq_of_toNat_eq
  rw [shiftAmount_eq, BitVec.toNat_shiftLeft, Nat.shiftLeft_eq, BitVec.toNat_ofNat]

theorem ushiftRight_shiftAmount (a b : Word) :
    a >>> shiftAmount b = BitVec.ofNat 32 (a.toNat / 2 ^ (b.toNat % 32)) := by
  rw [shiftAmount_eq, ← Nat.shiftRight_eq_div_pow, ← BitVec.toNat_ushiftRight, BitVec.ofNat_toNat, BitVec.setWidth_eq]

theorem sshiftRight_shiftAmount (a b : Word) :
    a.sshiftRight (shiftAmount b) = BitVec.ofInt 32 (a.toInt / 2 ^ (b.toNat % 32)) := by
  rw [shiftAmount_eq, BitVec.sshiftRight, Int.shiftRight_eq_div_pow]
  norm_cast

theorem boolWord_decide (c : Prop) [Decidable c] : boolWord (decide c) = if c then 1#32 else 0#32 := by
  by_cases hc : c <;> simp [boolWord, hc]

/-- Settles O12: the sum and difference of words are those of their unsigned values, modulo `2^32`. -/
theorem addAndSub : Obligations.AddAndSub := by
  refine ⟨rowDecodes_pattern .add, rowDecodes_pattern .sub, fun rd rs1 rs2 s => ⟨?_, ?_⟩⟩
  · exact completesX_of_execIntOp (fun a b => a + b) rfl (BitVec.add_def _ _)
  · exact completesX_of_execIntOp (fun a b => a - b) rfl (sub_eq_ofInt _ _)

/-- Settles O13: a shift multiplies or divides by a power of two, whose exponent is the second source modulo 32. -/
theorem shifts : Obligations.Shifts := by
  refine ⟨rowDecodes_pattern .sll, rowDecodes_pattern .srl, rowDecodes_pattern .sra, fun rd rs1 rs2 s => ⟨?_, ?_, ?_⟩⟩
  · exact completesX_of_execIntOp (fun a b => a <<< shiftAmount b) rfl (shiftLeft_shiftAmount _ _)
  · exact completesX_of_execIntOp (fun a b => a >>> shiftAmount b) rfl (ushiftRight_shiftAmount _ _)
  · exact completesX_of_execIntOp (fun a b => a.sshiftRight (shiftAmount b)) rfl (sshiftRight_shiftAmount _ _)

/-- Settles O14: both write the truth value of a comparison. -/
theorem setLessThan : Obligations.SetLessThan := by
  refine ⟨rowDecodes_pattern .slt, rowDecodes_pattern .sltu, fun rd rs1 rs2 s => ⟨?_, ?_⟩⟩
  · exact completesX_of_execIntOp (fun a b => boolWord (decide (a.toInt < b.toInt))) rfl (boolWord_decide _)
  · exact completesX_of_execIntOp (fun a b => boolWord (decide (a.toNat < b.toNat))) rfl (boolWord_decide _)

/-- Settles O15: the results are the operations of `BitVec` that its `getLsbD` lemmas give bit by bit. -/
theorem bitwiseOperations : Obligations.BitwiseOperations := by
  refine ⟨rowDecodes_pattern .xor, rowDecodes_pattern .or, rowDecodes_pattern .and, fun rd rs1 rs2 s => ⟨?_, ?_, ?_⟩⟩
  · exact ⟨_, completesX_of_execIntOp (fun a b => a ^^^ b) rfl rfl, fun _ => BitVec.getLsbD_xor⟩
  · exact ⟨_, completesX_of_execIntOp (fun a b => a ||| b) rfl rfl, fun _ => BitVec.getLsbD_or⟩
  · exact ⟨_, completesX_of_execIntOp (fun a b => a &&& b) rfl rfl, fun _ => BitVec.getLsbD_and⟩

end Sys2Proof.Machine

/-! ### The RV32M instructions (R119 to R128) -/

namespace Sys2Proof.Machine

/-- An instruction that completes leaves its value in its destination, where that is not `x0`. -/
theorem CompletesX.readX_destination {i : Instr} {s : State} {rd : XReg} {v : Word} {fl : Flags}
    (h : CompletesX i s rd v fl) (hrd : rd ≠ 0#5) : ∃ t, exec i s = .next t ∧ t.readX rd = v := by
  obtain ⟨t, hexec, hread, -, -⟩ := h
  exact ⟨t, hexec, by rw [hread, if_neg hrd, if_pos rfl]⟩

/-! The product: its low word does not depend on how the factors are read, its high word does. -/

theorem ofNat_toNat_mul_toNat (a b : Word) : BitVec.ofNat 32 (a.toNat * b.toNat) = a * b := by
  simp [BitVec.ofNat_mul]

theorem ofInt_toInt_mul_toInt (a b : Word) : BitVec.ofInt 32 (a.toInt * b.toInt) = a * b := by
  simp [BitVec.ofInt_mul]

/-- The words `p / 2^32` and `p` modulo `2^32`, side by side, are `p` modulo `2^64`, for a negative `p` too. -/
theorem highWord_append_ofInt (p : ℤ) : highWord p ++ BitVec.ofInt 32 p = BitVec.ofInt 64 p := by
  apply BitVec.eq_of_toNat_eq
  rw [BitVec.toNat_append, ← Nat.shiftLeft_add_eq_or_of_lt (BitVec.isLt _), Nat.shiftLeft_eq, highWord]
  simp only [BitVec.toNat_ofInt]
  omega

theorem highWord_append_mul_unsigned (a b : Word) :
    highWord ((a.toNat : ℤ) * (b.toNat : ℤ)) ++ BitVec.ofNat 32 (a.toNat * b.toNat) =
      a.setWidth 64 * b.setWidth 64 := by
  rw [← BitVec.ofInt_natCast 32, Nat.cast_mul, highWord_append_ofInt, BitVec.ofInt_mul]
  simp only [BitVec.ofInt_natCast, BitVec.ofNat_toNat]

theorem highWord_append_mul_signed (a b : Word) :
    highWord (a.toInt * b.toInt) ++ BitVec.ofNat 32 (a.toNat * b.toNat) = a.signExtend 64 * b.signExtend 64 := by
  rw [ofNat_toNat_mul_toNat, ← ofInt_toInt_mul_toInt, highWord_append_ofInt, BitVec.ofInt_mul]
  rfl

/-! Quotients and remainders, each in one form for all divisors but zero. -/

/-- The overflow is no case of its own: its quotient `2^31` is `0x80000000` modulo `2^32`. -/
theorem divSigned_of_ne_zero {a b : Word} (hb : b ≠ 0#32) :
    divSigned a b = BitVec.ofInt 32 (Int.tdiv a.toInt b.toInt) := by
  rw [divSigned, if_neg hb]
  split
  next hoverflow => obtain ⟨rfl, rfl⟩ := hoverflow; decide
  next => rfl

/-- Division by zero and the overflow are no cases of their own for the exact remainder: the remainder by 0 is the
dividend, and that of `-2^31` by `-1` is 0. -/
theorem remSigned_eq_srem (a b : Word) : remSigned a b = a.srem b := by
  unfold remSigned
  split_ifs with hzero hoverflow
  · rw [hzero, BitVec.srem_zero]
  · obtain ⟨rfl, rfl⟩ := hoverflow; decide
  · rw [← BitVec.toInt_srem, BitVec.ofInt_toInt]

theorem toInt_remSigned (a b : Word) : (remSigned a b).toInt = Int.tmod a.toInt b.toInt := by
  rw [remSigned_eq_srem, BitVec.toInt_srem]

theorem abs_tmod_lt_abs (m : ℤ) {n : ℤ} (hn : n ≠ 0) : |Int.tmod m n| < |n| := by
  rw [Int.abs_eq_natAbs, Int.abs_eq_natAbs, Int.natAbs_tmod]
  exact_mod_cast Nat.mod_lt _ (Int.natAbs_pos.2 hn)

theorem divUnsigned_of_ne_zero {a b : Word} (hb : b ≠ 0#32) : divUnsigned a b = BitVec.ofNat 32 (a.toNat / b.toNat) :=
  if_neg hb

theorem remUnsigned_eq_umod (a b : Word) : remUnsigned a b = a % b := by
  unfold remUnsigned
  split_ifs with hzero
  · rw [hzero, BitVec.umod_zero]
  · rw [BitVec.umod_def]

/-- The remainder as R127 writes it, by the quotient's floor. -/
theorem remUnsigned_eq_sub_floor (a b : Word) :
    remUnsigned a b = if b = 0#32 then a
      else BitVec.ofInt 32 ((a.toNat : ℤ) - (b.toNat : ℤ) * ((a.toNat / b.toNat : ℕ) : ℤ)) := by
  have hmod : ((a.toNat % b.toNat : ℕ) : ℤ) = (a.toNat : ℤ) - (b.toNat : ℤ) * ((a.toNat / b.toNat : ℕ) : ℤ) := by
    push_cast
    exact Int.emod_def _ _
  rw [remUnsigned, ← hmod, BitVec.ofInt_natCast]

/-! The law of R128. -/

theorem divSigned_mul_add_remSigned (a b : Word) : divSigned a b * b + remSigned a b = a := by
  by_cases hb : b = 0#32
  · rw [hb, remSigned_eq_srem, BitVec.srem_zero, BitVec.mul_zero, BitVec.zero_add]
  · calc divSigned a b * b + remSigned a b
      _ = BitVec.ofInt 32 (Int.tdiv a.toInt b.toInt) * BitVec.ofInt 32 b.toInt +
            BitVec.ofInt 32 (Int.tmod a.toInt b.toInt) := by
          rw [divSigned_of_ne_zero hb, ← toInt_remSigned, BitVec.ofInt_toInt, BitVec.ofInt_toInt]
      _ = BitVec.ofInt 32 a.toInt := by rw [← BitVec.ofInt_mul, ← BitVec.ofInt_add, Int.tdiv_mul_add_tmod]
      _ = a := BitVec.ofInt_toInt

theorem divUnsigned_mul_add_remUnsigned (a b : Word) : divUnsigned a b * b + remUnsigned a b = a := by
  by_cases hb : b = 0#32
  · rw [hb, remUnsigned_eq_umod, BitVec.umod_zero, BitVec.mul_zero, BitVec.zero_add]
  · calc divUnsigned a b * b + remUnsigned a b
      _ = BitVec.ofNat 32 (a.toNat / b.toNat) * BitVec.ofNat 32 b.toNat + BitVec.ofNat 32 (a.toNat % b.toNat) := by
          rw [divUnsigned_of_ne_zero hb, remUnsigned_eq_umod, BitVec.umod_def, BitVec.ofNat_toNat, BitVec.setWidth_eq]
      _ = BitVec.ofNat 32 a.toNat := by rw [← BitVec.ofNat_mul, ← BitVec.ofNat_add, Nat.div_add_mod']
      _ = a := by rw [BitVec.ofNat_toNat, BitVec.setWidth_eq]

/-! What each instruction writes: its operation of the model, in the frame of R99 (R119). -/

section completion

variable (rd rs1 rs2 : XReg) (s : State)

theorem completesX_mul :
    CompletesX (.mul rd rs1 rs2) s rd (BitVec.ofNat 32 ((s.readX rs1).toNat * (s.readX rs2).toNat)) 0x00#5 :=
  completesX_of_execIntOp (fun a b => BitVec.ofNat 32 (a.toNat * b.toNat)) rfl rfl

theorem completesX_mulh :
    CompletesX (.mulh rd rs1 rs2) s rd (highWord ((s.readX rs1).toInt * (s.readX rs2).toInt)) 0x00#5 :=
  completesX_of_execIntOp (fun a b => highWord (a.toInt * b.toInt)) rfl rfl

theorem completesX_mulhsu :
    CompletesX (.mulhsu rd rs1 rs2) s rd (highWord ((s.readX rs1).toInt * ((s.readX rs2).toNat : ℤ))) 0x00#5 :=
  completesX_of_execIntOp (fun a b => highWord (a.toInt * (b.toNat : ℤ))) rfl rfl

theorem completesX_mulhu :
    CompletesX (.mulhu rd rs1 rs2) s rd (highWord (((s.readX rs1).toNat : ℤ) * ((s.readX rs2).toNat : ℤ))) 0x00#5 :=
  completesX_of_execIntOp (fun a b => highWord ((a.toNat : ℤ) * (b.toNat : ℤ))) rfl rfl

theorem completesX_div : CompletesX (.div rd rs1 rs2) s rd (divSigned (s.readX rs1) (s.readX rs2)) 0x00#5 :=
  completesX_of_execIntOp divSigned rfl rfl

theorem completesX_divu : CompletesX (.divu rd rs1 rs2) s rd (divUnsigned (s.readX rs1) (s.readX rs2)) 0x00#5 :=
  completesX_of_execIntOp divUnsigned rfl rfl

theorem completesX_rem : CompletesX (.rem rd rs1 rs2) s rd (remSigned (s.readX rs1) (s.readX rs2)) 0x00#5 :=
  completesX_of_execIntOp remSigned rfl rfl

theorem completesX_remu : CompletesX (.remu rd rs1 rs2) s rd (remUnsigned (s.readX rs1) (s.readX rs2)) 0x00#5 :=
  completesX_of_execIntOp remUnsigned rfl rfl

end completion

/-- Settles O16: the low word is the product of the words in either reading, the high words are `highWord`. -/
theorem multiply : Obligations.Multiply := by
  refine ⟨rowDecodes_pattern .mul, rowDecodes_pattern .mulh, rowDecodes_pattern .mulhsu, rowDecodes_pattern .mulhu,
    fun rd rs1 rs2 s => ⟨completesX_mul rd rs1 rs2 s, ?_, completesX_mulh rd rs1 rs2 s, completesX_mulhsu rd rs1 rs2 s,
      completesX_mulhu rd rs1 rs2 s⟩⟩
  rw [ofInt_toInt_mul_toInt, ← ofNat_toNat_mul_toNat]
  exact completesX_mul rd rs1 rs2 s

/-- Settles O17: the operations of the two meanings are the case distinctions of R124 and R125. -/
theorem divide : Obligations.Divide :=
  ⟨rowDecodes_pattern .div, rowDecodes_pattern .divu,
    fun rd rs1 rs2 s => ⟨completesX_div rd rs1 rs2 s, completesX_divu rd rs1 rs2 s⟩⟩

/-- Settles O18: read signed, the result of `rem` is the remainder of the truncated division, with no case of its own
for the overflow. -/
theorem remainder : Obligations.Remainder := by
  refine ⟨rowDecodes_pattern .rem, rowDecodes_pattern .remu, fun rd rs1 rs2 s => ⟨?_, ?_⟩⟩
  · refine ⟨_, completesX_rem rd rs1 rs2 s, rfl, fun hb => ?_⟩
    have hdivisor : (s.readX rs2).toInt ≠ 0 := fun h => hb (BitVec.eq_of_toInt_eq h)
    rw [toInt_remSigned]
    exact ⟨(Int.tdiv_mul_add_tmod _ _).symm, abs_tmod_lt_abs _ hdivisor⟩
  · rw [← remUnsigned_eq_sub_floor]
    exact completesX_remu rd rs1 rs2 s

/-- Settles O19: the law holds of the two operations, whose values the destinations hold. -/
theorem divisionLaw : Obligations.DivisionLaw := by
  intro rq rr rs1 rs2 s hrq hrr
  constructor
  · obtain ⟨t, hdiv, hquotient⟩ := (completesX_div rq rs1 rs2 s).readX_destination hrq
    obtain ⟨u, hrem, hremainder⟩ := (completesX_rem rr rs1 rs2 s).readX_destination hrr
    refine ⟨t, u, hdiv, hrem, ?_⟩
    rw [hquotient, hremainder, divSigned_mul_add_remSigned]
  · obtain ⟨t, hdivu, hquotient⟩ := (completesX_divu rq rs1 rs2 s).readX_destination hrq
    obtain ⟨u, hremu, hremainder⟩ := (completesX_remu rr rs1 rs2 s).readX_destination hrr
    refine ⟨t, u, hdivu, hremu, ?_⟩
    rw [hquotient, hremainder, divUnsigned_mul_add_remUnsigned]

/-- Settles O20: one low word completes both high words, that of the unsigned and that of the signed product. -/
theorem productHalves : Obligations.ProductHalves := by
  intro rh rl rs1 rs2 s hrh hrl
  obtain ⟨l, hmul, hlow⟩ := (completesX_mul rl rs1 rs2 s).readX_destination hrl
  obtain ⟨h, hmulhu, hhigh⟩ := (completesX_mulhu rh rs1 rs2 s).readX_destination hrh
  obtain ⟨hs, hmulh, hhighSigned⟩ := (completesX_mulh rh rs1 rs2 s).readX_destination hrh
  refine ⟨l, h, hs, hmul, hmulhu, hmulh, ?_, ?_⟩
  · rw [hhigh, hlow, highWord_append_mul_unsigned]
  · rw [hhighSigned, hlow, highWord_append_mul_signed]

end Sys2Proof.Machine

/-! ### What rounding once can give (R133), over every ordered field: the range of the result and its flags -/

namespace Sys2Proof.Machine

section Rounding
variable {K : Type} [Field K] {rm : RoundingMode}

/-- A power of two is a whole number of quanta of a lesser power. -/
theorem exists_intCast_mul_zpow [NeZero (2 : K)] {j k : ℤ} (h : j ≤ k) : ∃ n : ℤ, (2 : K) ^ k = n * 2 ^ j := by
  obtain ⟨d, rfl⟩ := Int.le.dest h
  exact ⟨2 ^ d, by rw [zpow_add₀ two_ne_zero, zpow_natCast]; push_cast; ring⟩

variable [LinearOrder K] [IsStrictOrderedRing K] [FloorRing K]

/-- The integer rounding is one of the two nearest integers, in every mode. -/
theorem rintExact_eq_floor_or_ceil (rm : RoundingMode) (neg : Bool) (u : K) :
    rintExact rm neg u = ⌊u⌋ ∨ rintExact rm neg u = ⌈u⌉ := by
  have hceil : ¬ u - ⌊u⌋ < 1 / 2 → ⌊u⌋ + 1 = ⌈u⌉ := fun h =>
    le_antisymm (Int.lt_ceil.2 (by linarith)) (Int.ceil_le_floor_add_one u)
  cases rm with
  | rtz => exact .inl rfl
  | rdn | rup => cases neg <;> simp [rintExact]
  | rne | rmm =>
    by_cases hhalf : u - ⌊u⌋ < 1 / 2
    · simp only [rintExact, if_pos hhalf, true_or]
    · simp only [rintExact, if_neg hhalf, hceil hhalf]
      repeat' split
      all_goals simp

theorem floor_le_rintExact (rm : RoundingMode) (neg : Bool) (u : K) : ⌊u⌋ ≤ rintExact rm neg u := by
  have hfc : ⌊u⌋ ≤ ⌈u⌉ := Int.floor_le_ceil u
  rcases rintExact_eq_floor_or_ceil rm neg u with h | h <;> omega

theorem rintExact_le_ceil (rm : RoundingMode) (neg : Bool) (u : K) : rintExact rm neg u ≤ ⌈u⌉ := by
  have hfc : ⌊u⌋ ≤ ⌈u⌉ := Int.floor_le_ceil u
  rcases rintExact_eq_floor_or_ceil rm neg u with h | h <;> omega

theorem rintExact_intCast (rm : RoundingMode) (neg : Bool) (n : ℤ) : rintExact rm neg (n : K) = n := by
  simpa using rintExact_eq_floor_or_ceil rm neg (n : K)

/-- Rounding to a quantum passes no power of two that is a whole number of quanta: from above. -/
theorem zpow_le_rintExact_mul (neg : Bool) {m : K} {j k : ℤ} (hjk : j ≤ k) (h : 2 ^ k ≤ m) :
    2 ^ k ≤ (rintExact rm neg (m / 2 ^ j) : K) * 2 ^ j := by
  obtain ⟨n, hn⟩ := exists_intCast_mul_zpow (K := K) hjk
  have hle : (n : K) ≤ m / 2 ^ j := by rwa [le_div_iff₀ (by positivity), ← hn]
  have hrint : n ≤ rintExact rm neg (m / 2 ^ j) := (Int.le_floor.2 hle).trans (floor_le_rintExact rm neg _)
  rw [hn]
  gcongr

/-- Rounding to a quantum passes no power of two that is a whole number of quanta: from below. -/
theorem rintExact_mul_le_zpow (neg : Bool) {m : K} {j k : ℤ} (hjk : j ≤ k) (h : m ≤ 2 ^ k) :
    (rintExact rm neg (m / 2 ^ j) : K) * 2 ^ j ≤ 2 ^ k := by
  obtain ⟨n, hn⟩ := exists_intCast_mul_zpow (K := K) hjk
  have hle : m / 2 ^ j ≤ n := by rwa [div_le_iff₀ (by positivity), ← hn]
  have hrint : rintExact rm neg (m / 2 ^ j) ≤ n := (rintExact_le_ceil rm neg _).trans (Int.ceil_le.2 hle)
  rw [hn]
  gcongr

/-- The quantum of R133 for the exponent `e` keeps the powers of two from `2^-149` on as bounds: from above. -/
theorem zpow_le_rintExact_mul_quantum (neg : Bool) {m : K} {e k : ℤ} (hlo : 2 ^ e ≤ m) (hk : -149 ≤ k)
    (h : 2 ^ k ≤ m) :
    2 ^ k ≤ (rintExact rm neg (m / 2 ^ (max e (-126) - 23)) : K) * 2 ^ (max e (-126) - 23) := by
  by_cases hquantum : max e (-126) - 23 ≤ k
  · exact zpow_le_rintExact_mul neg hquantum h
  · calc (2 : K) ^ k ≤ 2 ^ e := zpow_le_zpow_right₀ one_le_two (by omega)
      _ ≤ _ := zpow_le_rintExact_mul neg (by omega) hlo

/-- The quantum of R133 for the exponent `e` keeps the powers of two from `2^-149` on as bounds: from below. -/
theorem rintExact_mul_quantum_le_zpow (neg : Bool) {m : K} {e k : ℤ} (hlo : 2 ^ e ≤ m) (hk : -149 ≤ k)
    (h : m ≤ 2 ^ k) :
    (rintExact rm neg (m / 2 ^ (max e (-126) - 23)) : K) * 2 ^ (max e (-126) - 23) ≤ 2 ^ k := by
  have hek : e ≤ k := (zpow_le_zpow_iff_right₀ one_lt_two).1 (hlo.trans h)
  exact rintExact_mul_le_zpow neg (by omega) h

/-- What is below `2^-126` once rounded to 24 bits has an exponent below -126. -/
theorem exponent_lt_of_tiny (neg : Bool) {m : K} {e : ℤ} (hlo : 2 ^ e ≤ m)
    (htiny : (rintExact rm neg (m / 2 ^ (e - 23)) : K) * 2 ^ (e - 23) < 2 ^ (-126 : ℤ)) : e < -126 :=
  (zpow_lt_zpow_iff_right₀ one_lt_two).1 ((zpow_le_rintExact_mul neg (by omega) hlo).trans_lt htiny)

/-- A multiple of the quantum is not rounded. -/
theorem rintExact_mul_of_multiple (neg : Bool) (n j : ℤ) :
    (rintExact rm neg (n * (2 : K) ^ j / 2 ^ j) : K) * 2 ^ j = n * 2 ^ j := by
  rw [mul_div_cancel_right₀ _ (by positivity), rintExact_intCast]

/-- The result of a rounding that does not overflow. Powers of two from `2^-149` on bound it as they bound the exact
number, and UF is raised only with NX, below `2^-126`, for a number that is no multiple of `2^-149`. -/
structure RoundedInRange (t : K) (r : Word) (fl : Flags) : Prop where
  finite : isFinite r = true
  sign : fpSign r = decide (t < 0)
  zpow_le : ∀ k : ℤ, -149 ≤ k → (2 : K) ^ k ≤ |t| → (2 : K) ^ k ≤ |((val r : ℚ) : K)|
  le_zpow : ∀ k : ℤ, -149 ≤ k → |t| ≤ (2 : K) ^ k → |((val r : ℚ) : K)| ≤ (2 : K) ^ k
  flags : fl = 0x00#5 ∨ fl = 0x01#5 ∨ fl = 0x03#5 ∧ |t| < (2 : K) ^ (-126 : ℤ) ∧
    ∀ n : ℤ, |t| ≠ n * (2 : K) ^ (-149 : ℤ)

/-- A rounding overflows, and then its number is beyond `2^127`, or stays in range. -/
theorem Rounded.overflow_or_inRange {t : K} {r : Word} {fl : Flags} (h : Rounded rm t r fl) :
    (fl = 0x05#5 ∧ r = overflowOf rm (decide (t < 0)) ∧ (2 : K) ^ (127 : ℤ) < |t|) ∨ RoundedInRange t r fl := by
  obtain ⟨e, hlo, hhi, h⟩ := h
  dsimp only at h
  set neg : Bool := decide (t < 0)
  set v : K := rintExact rm neg (|t| / 2 ^ (max e (-126) - 23)) * 2 ^ (max e (-126) - 23) with hv
  by_cases hov : 2 ^ (128 : ℤ) ≤ v
  · rw [if_pos hov] at h
    refine .inl ⟨h.1, h.2, ?_⟩
    by_contra! hle
    have hpow : (2 : K) ^ (128 : ℤ) ≤ 2 ^ (127 : ℤ) :=
      hov.trans (rintExact_mul_quantum_le_zpow neg hlo (by norm_num) hle)
    exact absurd ((zpow_le_zpow_iff_right₀ one_lt_two).1 hpow) (by norm_num)
  · rw [if_neg hov] at h
    obtain ⟨hfin, hsign, hval, hfl⟩ := h
    refine .inr ⟨hfin, hsign, fun k hk hle => hval ▸ zpow_le_rintExact_mul_quantum neg hlo hk hle,
      fun k hk hle => hval ▸ rintExact_mul_quantum_le_zpow neg hlo hk hle, ?_⟩
    by_cases hexact : v = |t|
    · exact .inl (by simp [hfl, hexact])
    by_cases htiny : (rintExact rm neg (|t| / 2 ^ (e - 23)) : K) * 2 ^ (e - 23) < 2 ^ (-126 : ℤ)
    · rw [if_pos hexact, if_pos ⟨htiny, hexact⟩] at hfl
      have he := exponent_lt_of_tiny neg hlo htiny
      refine .inr (.inr ⟨hfl, hhi.trans_le (zpow_le_zpow_right₀ one_le_two (by omega)), fun n hn => hexact ?_⟩)
      rw [hv, show max e (-126) - 23 = -149 by omega, hn, rintExact_mul_of_multiple]
    · rw [if_pos hexact, if_neg fun h => htiny h.1] at hfl
      exact .inr (.inl hfl)

end Rounding

end Sys2Proof.Machine

/-! ### Patterns of binary32 (R130): the fields determine the pattern and its class -/

namespace Sys2Proof.Machine

/-- A pattern is its three fields. -/
theorem eq_of_fields {a b : Word} (hs : fpSign a = fpSign b) (he : fpExp a = fpExp b) (hf : fpFrac a = fpFrac b) :
    a = b := by
  have split (v : Word) : v.toNat = (fpSign v).toNat * 2 ^ 31 + fpExp v * 2 ^ 23 + fpFrac v := by
    have hv : v.toNat < 2 ^ 32 := v.isLt
    simp only [fpSign, fpExp, fpFrac, BitVec.msb_eq_decide, BitVec.extractLsb'_toNat, Nat.shiftRight_eq_div_pow]
    by_cases h : 2 ^ 31 ≤ v.toNat <;>
      simp only [h, decide_true, decide_false, Bool.toNat_true, Bool.toNat_false] <;> omega
  exact BitVec.eq_of_toNat_eq (by rw [split a, split b, hs, he, hf])

theorem isFinite_of_isZero {v : Word} (h : isZero v = true) : isFinite v = true := by
  simp_all [isZero, isFinite]

theorem isNaN_of_isFinite {v : Word} (h : isFinite v = true) : isNaN v = false := by
  simp_all [isFinite, isNaN]

theorem isSNaN_of_isFinite {v : Word} (h : isFinite v = true) : isSNaN v = false := by
  simp [isSNaN, isNaN_of_isFinite h]

theorem isNaN_of_isInf {v : Word} (h : isInf v = true) : isNaN v = false := by
  simp_all [isInf, isNaN]

theorem isFinite_iff (v : Word) : isFinite v = true ↔ isNaN v = false ∧ isInf v = false := by
  by_cases h : fpExp v = 255 <;> by_cases hf : fpFrac v = 0 <;> simp [isFinite, isNaN, isInf, h, hf]

/-- There is one infinity, and one zero, of each sign. -/
theorem eq_of_isInf {a b : Word} (ha : isInf a = true) (hb : isInf b = true) (hs : fpSign a = fpSign b) : a = b := by
  simp only [isInf, Bool.and_eq_true, beq_iff_eq] at ha hb
  exact eq_of_fields hs (ha.1.trans hb.1.symm) (ha.2.trans hb.2.symm)

theorem eq_of_isZero {a b : Word} (ha : isZero a = true) (hb : isZero b = true) (hs : fpSign a = fpSign b) : a = b := by
  simp only [isZero, Bool.and_eq_true, beq_iff_eq] at ha hb
  exact eq_of_fields hs (ha.1.trans hb.1.symm) (ha.2.trans hb.2.symm)

theorem infOf_eq (sg : Bool) : infOf sg = signedInf sg := by cases sg <;> rfl

theorem zeroOf_eq (sg : Bool) : zeroOf sg = signedZero sg := by cases sg <;> rfl

/-! The flip of the sign bit (R147). -/

@[simp] theorem fpExp_flip (b : Word) : fpExp (b ^^^ 0x80000000#32) = fpExp b := by
  rw [fpExp, fpExp, BitVec.extractLsb'_xor]
  simp

@[simp] theorem fpFrac_flip (b : Word) : fpFrac (b ^^^ 0x80000000#32) = fpFrac b := by
  rw [fpFrac, fpFrac, BitVec.extractLsb'_xor]
  simp

@[simp] theorem isNaN_flip (b : Word) : isNaN (b ^^^ 0x80000000#32) = isNaN b := by simp [isNaN]

@[simp] theorem isSNaN_flip (b : Word) : isSNaN (b ^^^ 0x80000000#32) = isSNaN b := by simp [isSNaN]

@[simp] theorem isQNaN_flip (b : Word) : isQNaN (b ^^^ 0x80000000#32) = isQNaN b := by simp [isQNaN]

end Sys2Proof.Machine

/-! ### The operations of the machine are those of the spec over the rationals (R142 to R151) -/

namespace Sys2Proof.Machine

theorem val_eq_div (v : Word) : val v = fpUnits v / (2 ^ 149 : ℕ) := by
  rw [val_eq_units, div_eq_mul_inv]
  norm_num

theorem val_add_val (a b : Word) : val a + val b = (fpUnits a + fpUnits b : ℤ) / (2 ^ 149 : ℕ) := by
  rw [val_eq_div, val_eq_div]
  push_cast
  ring

theorem two_pow_298 : (2 ^ 298 : ℕ) = 2 ^ 149 * 2 ^ 149 := by rw [← pow_add]

theorem val_mul_val (a b : Word) : val a * val b = (fpUnits a * fpUnits b : ℤ) / (2 ^ 298 : ℕ) := by
  rw [val_eq_div, val_eq_div, div_mul_div_comm, ← Nat.cast_mul, ← two_pow_298, Int.cast_mul]

/-- The addend of a fused multiply-add in the units of the product. -/
theorem val_eq_div_product (v : Word) : val v = (fpUnits v * 2 ^ 149 : ℤ) / (2 ^ 298 : ℕ) := by
  have hne : ((2 ^ 149 : ℕ) : ℚ) ≠ 0 := by norm_num
  have hcast : ((2 ^ 149 : ℤ) : ℚ) = (2 ^ 149 : ℕ) := by norm_num
  rw [val_eq_div, ← mul_div_mul_right _ _ hne, ← Nat.cast_mul, ← two_pow_298, Int.cast_mul, hcast]

theorem intCast_div_eq_zero_iff (n : ℤ) (d : ℕ) [NeZero d] : (n : ℚ) / d = 0 ↔ n = 0 := by
  simp [NeZero.ne d]

/-! In each proof below the cases of the two definitions are the same; all but the roundings are constants. -/

/-- `fp_add` is the sum of R146. -/
theorem fpAdd_sumIs (mode : RoundingMode) (a b : Word) :
    SumIs mode a b (fpAdd a b mode).bits (fpAdd a b mode).flags := by
  have hzero : val a + val b = 0 ↔ fpUnits a + fpUnits b = 0 := by
    rw [val_add_val, intCast_div_eq_zero_iff]
  simp only [SumIs, fpAdd, zeroSum, hzero, Bool.or_eq_true, Bool.and_eq_true, bne_iff_ne, beq_iff_eq, and_assoc]
  split_ifs with hnan hinvalid ha hb hsum
  all_goals try exact ⟨rfl, rfl⟩
  exact roundRatio_rounded mode hsum (by norm_num) (val_add_val a b)

/-- `fp_mul` is the product of R148. -/
theorem fpMul_productIs (mode : RoundingMode) (a b : Word) :
    ProductIs mode a b (fpMul a b mode).bits (fpMul a b mode).flags := by
  simp only [ProductIs, fpMul, Bool.or_eq_true, Bool.and_eq_true, infOf_eq, zeroOf_eq]
  split_ifs with hnan hinvalid hinf hzero
  all_goals try exact ⟨rfl, rfl⟩
  rw [← units_eq_zero_iff, ← units_eq_zero_iff, not_or] at hzero
  exact roundRatio_rounded mode (mul_ne_zero hzero.1 hzero.2) (by norm_num) (val_mul_val a b)

/-- The sign bit is the sign of the value. -/
theorem fpUnits_eq_sign_mul (v : Word) : fpUnits v = (if fpSign v then -1 else 1) * ((fpUnits v).natAbs : ℤ) := by
  simp only [fpUnits]
  split_ifs <;> simp only [Int.natAbs_neg, Int.natAbs_natCast, neg_one_mul, one_mul]

theorem val_div_val (a b : Word) :
    val a / val b =
      (if fpSign a ^^ fpSign b then -1 else 1) * Mag.toRat ⟨(fpUnits a).natAbs, (fpUnits b).natAbs⟩ := by
  rw [val_eq_div, val_eq_div, div_div_div_cancel_right₀ (by norm_num), fpUnits_eq_sign_mul a, fpUnits_eq_sign_mul b,
    Mag.toRat]
  cases fpSign a <;> cases fpSign b <;> simp <;> ring

/-- `fp_div` is the quotient of R149. -/
theorem fpDiv_quotientIs (mode : RoundingMode) (a b : Word) :
    QuotientIs mode a b (fpDiv a b mode).bits (fpDiv a b mode).flags := by
  simp only [QuotientIs, fpDiv, Bool.or_eq_true, Bool.and_eq_true, infOf_eq, zeroOf_eq]
  split_ifs with hnan hinfs hzeros ha hb hbz haz
  all_goals try exact ⟨rfl, rfl⟩
  rw [← units_eq_zero_iff] at hbz haz
  exact roundMag_rounded mode _ (Int.natAbs_pos.2 haz) (Int.natAbs_pos.2 hbz) (val_div_val a b)

/-- `fp_sqrt` is the square root of R150. -/
theorem fpSqrt_sqrtIs (a : Word) : SqrtIs .rne a (fpSqrt a).bits (fpSqrt a).flags := by
  simp only [SqrtIs, fpSqrt]
  split_ifs with hnan hzero hsign hinf
  all_goals try exact ⟨rfl, rfl⟩
  have hfin : isFinite a = true := (isFinite_iff a).2 ⟨by simpa using hnan, by simpa using hinf⟩
  exact sqrtFinite_rounded (by simpa using hsign) (by simpa using hzero) hfin

/-- `fp_fma` is the fused multiply-add of R151. -/
theorem fpFma_fmaIs (mode : RoundingMode) (negp negc : Bool) (a b c : Word) :
    FmaIs mode negp negc a b c (fpFma a b c mode negp negc).bits (fpFma a b c mode negp negc).flags := by
  simp only [FmaIs, fpFma]
  generalize (if negc then c ^^^ 0x80000000#32 else c) = c
  have hprod : (if negp then -1 else 1) * val a * val b =
      ((if negp then -(fpUnits a * fpUnits b) else fpUnits a * fpUnits b : ℤ) : ℚ) / (2 ^ 298 : ℕ) := by
    rw [mul_assoc, val_mul_val]
    cases negp
    · exact one_mul _
    · rw [if_pos rfl, if_pos rfl, neg_one_mul, Int.cast_neg, neg_div]
  generalize (if negp then -(fpUnits a * fpUnits b) else fpUnits a * fpUnits b) = p at hprod ⊢
  have hsum : (p : ℚ) / (2 ^ 298 : ℕ) + val c = (p + fpUnits c * 2 ^ 149 : ℤ) / (2 ^ 298 : ℕ) := by
    rw [val_eq_div_product, Int.cast_add, add_div]
  rw [hprod]
  simp only [hsum, intCast_div_eq_zero_iff, Bool.or_eq_true, Bool.and_eq_true, infOf_eq, bne_iff_ne,
    and_assoc, or_assoc, zeroSum, flagIf]
  split_ifs with hnan hsignaling hproduct hinvalid hab hc hzero
  all_goals try exact ⟨rfl, rfl⟩
  · exact ⟨rfl, fun _ => rfl, fun hquiet => absurd hsignaling hquiet⟩
  · exact ⟨rfl, fun h => absurd h hsignaling, fun _ => rfl⟩
  · exact roundRatio_rounded mode hzero (by norm_num) rfl

/-- `fp_of_int` is the conversion of R142 and R143. -/
theorem fpOfInt_floatOfIntIs (mode : RoundingMode) (k : ℤ) :
    FloatOfIntIs mode k (fpOfInt mode k).bits (fpOfInt mode k).flags := by
  simp only [FloatOfIntIs, fpOfInt]
  split_ifs with hk
  · exact ⟨rfl, rfl⟩
  · exact roundRatio_rounded mode hk one_pos (by simp)

theorem abs_val_eq_toRat (v : Word) : |val v| = Mag.toRat ⟨(fpUnits v).natAbs, 2 ^ 149⟩ := by
  rw [val_eq_div, abs_div, Mag.toRat, Nat.cast_natAbs, Int.cast_abs]
  simp

theorem fpRint_eq (mode : RoundingMode) (a : Word) :
    fpRint mode a = if fpSign a then - rintExact mode true |val a| else rintExact mode false |val a| := by
  rw [fpRint, abs_val_eq_toRat, rint_eq _ _ (by positivity), rint_eq _ _ (by positivity)]
  cases fpSign a <;> rfl

/-- `fp_to_int` is the conversion of R144 and R145. -/
theorem fpToInt_intOfFloatIs (lo hi : ℤ) (mode : RoundingMode) (a : Word) :
    IntOfFloatIs lo hi mode a (fpToInt lo hi mode a).bits (fpToInt lo hi mode a).flags := by
  have hexact (n : ℤ) : n * 2 ^ 149 ≠ fpUnits a ↔ (n : ℚ) ≠ val a := by
    rw [val_eq_div, ne_eq, ne_eq, eq_div_iff (by norm_num)]
    norm_cast
  simp only [IntOfFloatIs, fpToInt, ← fpRint_eq, flagIf, bne_iff_ne, hexact]
  split_ifs with hnan hinf hhi hlo
  all_goals exact ⟨rfl, rfl⟩

end Sys2Proof.Machine

/-! ### The results of the spec's operations: which flags they raise (R132) and which NaN they are (R131) -/

namespace Sys2Proof.Machine

/-- The result of a case without rounding: the canonical NaN, with NV or no flag, or a pattern that is no NaN, without a
flag. -/
inductive UnroundedResult : Word → Flags → Prop
  | nan {fl : Flags} (hfl : fl = 0x00#5 ∨ fl = 0x10#5) : UnroundedResult 0x7FC00000#32 fl
  | number {r : Word} (hr : isNaN r = false) : UnroundedResult r 0x00#5

theorem UnroundedResult.flags {r : Word} {fl : Flags} (h : UnroundedResult r fl) : fl = 0x00#5 ∨ fl = 0x10#5 := by
  cases h with
  | nan hfl => exact hfl
  | number => exact .inl rfl

theorem nanFlags_eq (c : Bool) : nanFlags c = 0x00#5 ∨ nanFlags c = 0x10#5 := by
  cases c <;> decide

/-- The sets of flags of R132 but for DZ: none, NV, OF with NX, NX, UF with NX. -/
abbrev RegularFlags (fl : Flags) : Prop := fl = 0x00#5 ∨ fl = 0x10#5 ∨ fl = 0x05#5 ∨ fl = 0x01#5 ∨ fl = 0x03#5

/-- What R131 and R132 say of every result but a quotient's: a NaN is the canonical one, and DZ is not raised. -/
structure RegularResult (r : Word) (fl : Flags) : Prop where
  nan : isNaN r = true → r = 0x7FC00000#32
  flags : RegularFlags fl

theorem RegularResult.no_divideByZero {r : Word} {fl : Flags} (h : RegularResult r fl) : fl &&& 0x08#5 = 0x00#5 := by
  rcases h.flags with rfl | rfl | rfl | rfl | rfl <;> decide

theorem UnroundedResult.regular {r : Word} {fl : Flags} (h : UnroundedResult r fl) : RegularResult r fl := by
  refine ⟨fun hnan => ?_, h.flags.imp_right .inl⟩
  cases h with
  | nan => rfl
  | number hr => simp [hr] at hnan

theorem isNaN_overflowOf (rm : RoundingMode) (neg : Bool) : isNaN (overflowOf rm neg) = false := by
  cases rm <;> cases neg <;> rfl

theorem isNaN_signedInf (neg : Bool) : isNaN (signedInf neg) = false := by cases neg <;> rfl

theorem isNaN_signedZero (neg : Bool) : isNaN (signedZero neg) = false := by cases neg <;> rfl

section Rounding
variable {K : Type} [Field K] [LinearOrder K] [IsStrictOrderedRing K] [FloorRing K]
  {rm : RoundingMode} {t : K} {r : Word} {fl : Flags}

theorem Rounded.regular (h : Rounded rm t r fl) : RegularResult r fl := by
  rcases h.overflow_or_inRange with ⟨rfl, rfl, -⟩ | h
  · exact ⟨by simp [isNaN_overflowOf], by decide⟩
  · refine ⟨by simp [isNaN_of_isFinite h.finite], ?_⟩
    rcases h.flags with rfl | rfl | ⟨rfl, -⟩ <;> decide

/-- A multiple of `2^-149` does not underflow: where it is tiny it is exact. -/
theorem Rounded.no_underflow (h : Rounded rm t r fl) {n : ℤ} (ht : |t| = n * (2 : K) ^ (-149 : ℤ)) :
    fl = 0x05#5 ∨ fl = 0x00#5 ∨ fl = 0x01#5 := by
  rcases h.overflow_or_inRange with ⟨hfl, -⟩ | h
  · exact .inl hfl
  · rcases h.flags with hfl | hfl | ⟨-, -, hne⟩
    · exact .inr (.inl hfl)
    · exact .inr (.inr hfl)
    · exact absurd ht (hne n)

/-- Between `2^-126` and `2^127` a rounding raises at most NX. -/
theorem Rounded.inRange_of_normal (h : Rounded rm t r fl) (hlo : (2 : K) ^ (-126 : ℤ) ≤ |t|)
    (hhi : |t| ≤ (2 : K) ^ (127 : ℤ)) : RoundedInRange t r fl ∧ (fl = 0x00#5 ∨ fl = 0x01#5) := by
  rcases h.overflow_or_inRange with ⟨-, -, hov⟩ | h
  · exact absurd hhi (not_le.2 hov)
  · refine ⟨h, ?_⟩
    rcases h.flags with hfl | hfl | ⟨-, htiny, -⟩
    · exact .inl hfl
    · exact .inr hfl
    · exact absurd hlo (not_le.2 htiny)

end Rounding

/-! Each operation delivers a result without rounding or rounds its exact value. -/

section results
variable {mode : RoundingMode} {a b r : Word} {fl : Flags}

theorem SumIs.unrounded_or_rounded (h : SumIs mode a b r fl) :
    UnroundedResult r fl ∨ Rounded mode (val a + val b) r fl := by
  unfold SumIs at h
  split_ifs at h with hnan hinvalid ha hb hsum hzeros hdown
  all_goals try obtain ⟨rfl, rfl⟩ := h
  · exact .inl (.nan (nanFlags_eq _))
  · exact .inl (.nan (.inr rfl))
  · exact .inl (.number (isNaN_of_isInf ha))
  · exact .inl (.number (isNaN_of_isInf hb))
  · exact .inl (.number (isNaN_of_isFinite (isFinite_of_isZero hzeros.1)))
  · exact .inl (.number (by decide))
  · exact .inl (.number (by decide))
  · exact .inr h

theorem ProductIs.unrounded_or_rounded (h : ProductIs mode a b r fl) :
    UnroundedResult r fl ∨ Rounded mode (val a * val b) r fl := by
  unfold ProductIs at h
  split_ifs at h with hnan hinvalid hinf hzero
  all_goals try obtain ⟨rfl, rfl⟩ := h
  · exact .inl (.nan (nanFlags_eq _))
  · exact .inl (.nan (.inr rfl))
  · exact .inl (.number (isNaN_signedInf _))
  · exact .inl (.number (isNaN_signedZero _))
  · exact .inr h

/-- Only the quotient of a number by zero raises DZ (R132, R149). -/
theorem QuotientIs.unrounded_or_divideByZero_or_rounded (h : QuotientIs mode a b r fl) :
    UnroundedResult r fl ∨ (isNaN r = false ∧ fl = 0x08#5) ∨ Rounded mode (val a / val b) r fl := by
  unfold QuotientIs at h
  split_ifs at h with hnan hinfs hzeros ha hb hbz haz
  all_goals try obtain ⟨rfl, rfl⟩ := h
  · exact .inl (.nan (nanFlags_eq _))
  · exact .inl (.nan (.inr rfl))
  · exact .inl (.nan (.inr rfl))
  · exact .inl (.number (isNaN_signedInf _))
  · exact .inl (.number (isNaN_signedZero _))
  · exact .inr (.inl ⟨isNaN_signedInf _, rfl⟩)
  · exact .inl (.number (isNaN_signedZero _))
  · exact .inr (.inr h)

theorem val_pos_iff (v : Word) : 0 < val v ↔ fpSign v = false ∧ isZero v = false := by
  have hs := fpUnits_eq_sign_mul v
  rw [val_eq_units, mul_pos_iff_of_pos_right (by positivity), Int.cast_pos, ← Bool.not_eq_true (isZero v),
    ← units_eq_zero_iff]
  cases hsign : fpSign v
  · rw [hsign, if_neg Bool.false_ne_true] at hs
    simp only [true_and]
    omega
  · rw [hsign, if_pos rfl] at hs
    simp only [Bool.true_eq_false, false_and, iff_false]
    omega

theorem val_nonneg {v : Word} (h : fpSign v = false) : 0 ≤ val v := by
  rw [val_eq_sig h]
  positivity

/-- The least positive number of the format is `2^-149`. -/
theorem zpow_le_val {v : Word} (h : 0 < val v) : (2 : ℚ) ^ (-149 : ℤ) ≤ val v := by
  rw [val_eq_units] at h ⊢
  have hone : (1 : ℚ) ≤ fpUnits v := by
    exact_mod_cast Int.add_one_le_iff.2 (Int.cast_pos.1 (pos_of_mul_pos_left h (by positivity)))
  exact le_mul_of_one_le_left (by positivity) hone

/-- Every finite number is below `2^128` in magnitude. -/
theorem abs_val_le {v : Word} (h : isFinite v = true) : |val v| ≤ (2 : ℚ) ^ (128 : ℤ) := by
  have hfrac : (fpFrac v : ℚ) ≤ 2 ^ 23 := by exact_mod_cast (v.extractLsb' 0 23).isLt.le
  have hexp : fpExp v < 2 ^ 8 := (v.extractLsb' 23 8).isLt
  have hne : fpExp v ≠ 255 := by simpa [isFinite] using h
  rw [abs_val]
  split
  · calc (fpFrac v : ℚ) * 2 ^ (-149 : ℤ) ≤ 2 ^ 23 * 2 ^ (-149 : ℤ) := by gcongr
      _ ≤ 2 ^ (128 : ℤ) := by norm_num
  · calc (2 ^ 23 + (fpFrac v : ℚ)) * 2 ^ ((fpExp v : ℤ) - 150) ≤ (2 ^ 23 + 2 ^ 23) * 2 ^ (104 : ℤ) := by
          gcongr
          · exact one_le_two
          · omega
      _ ≤ 2 ^ (128 : ℤ) := by norm_num

/-- The root that is rounded is that of a positive number (R150). -/
theorem SqrtIs.unrounded_or_rounded (h : SqrtIs mode a r fl) :
    (UnroundedResult r fl ∧ ¬ (isFinite a = true ∧ 0 < val a)) ∨
      ((isFinite a = true ∧ 0 < val a) ∧ Rounded mode (Real.sqrt ((val a : ℚ) : ℝ)) r fl) := by
  rw [val_pos_iff, isFinite_iff]
  unfold SqrtIs at h
  split_ifs at h with hnan hzero hsign hinf
  all_goals try obtain ⟨rfl, rfl⟩ := h
  · exact .inl ⟨.nan (nanFlags_eq _), by simp [hnan]⟩
  · exact .inl ⟨.number (isNaN_of_isFinite (isFinite_of_isZero hzero)), by simp [hzero]⟩
  · exact .inl ⟨.nan (.inr rfl), by simp [hsign]⟩
  · exact .inl ⟨.number (isNaN_of_isInf hinf), by simp [hinf]⟩
  · exact .inr ⟨by simp [hnan, hzero, hsign, hinf], h⟩

/-- The exact value of a fused multiply-add: the product, negated if `negp`, plus the addend, its sign flipped if `negc`
(R151). -/
def fusedValue (negp negc : Bool) (a b c : Word) : ℚ :=
  (if negp then -1 else 1) * val a * val b + val (if negc then c ^^^ 0x80000000#32 else c)

theorem FmaIs.unrounded_or_rounded {negp negc : Bool} {c : Word} (h : FmaIs mode negp negc a b c r fl) :
    UnroundedResult r fl ∨ Rounded mode (fusedValue negp negc a b c) r fl := by
  unfold FmaIs at h
  unfold fusedValue
  dsimp only at h
  generalize (if negc then c ^^^ 0x80000000#32 else c) = c at h ⊢
  generalize (if negp then (-1 : ℚ) else 1) * val a * val b = p at h ⊢
  split_ifs at h with hnan hproduct hinvalid hab hc hsum hzeros hdown
  all_goals try obtain ⟨rfl, rfl⟩ := h
  · obtain ⟨rfl, hinvalid, hquiet⟩ := h
    exact .inl (.nan ((em _).elim (fun hnv => .inr (hinvalid hnv)) fun hnv => .inl (hquiet hnv)))
  · exact .inl (.nan (.inr rfl))
  · exact .inl (.nan (.inr rfl))
  · exact .inl (.number (isNaN_signedInf _))
  · exact .inl (.number (isNaN_of_isInf hc))
  · exact .inl (.number (isNaN_of_isFinite (isFinite_of_isZero hzeros.2.1)))
  · exact .inl (.number (by decide))
  · exact .inl (.number (by decide))
  · exact .inr h

theorem FloatOfIntIs.unrounded_or_rounded {k : ℤ} (h : FloatOfIntIs mode k r fl) :
    (k = 0 ∧ r = 0x00000000#32 ∧ fl = 0x00#5) ∨ (k ≠ 0 ∧ Rounded mode (k : ℚ) r fl) := by
  unfold FloatOfIntIs at h
  split_ifs at h with hk
  · exact .inl ⟨hk, h⟩
  · exact .inr ⟨hk, h⟩

/-! What follows for each operation. -/

theorem SumIs.regular (h : SumIs mode a b r fl) : RegularResult r fl :=
  h.unrounded_or_rounded.elim (·.regular) (·.regular)

theorem ProductIs.regular (h : ProductIs mode a b r fl) : RegularResult r fl :=
  h.unrounded_or_rounded.elim (·.regular) (·.regular)

theorem FmaIs.regular {negp negc : Bool} {c : Word} (h : FmaIs mode negp negc a b c r fl) : RegularResult r fl :=
  h.unrounded_or_rounded.elim (·.regular) (·.regular)

theorem SqrtIs.regular (h : SqrtIs mode a r fl) : RegularResult r fl :=
  h.unrounded_or_rounded.elim (·.1.regular) (·.2.regular)

theorem FloatOfIntIs.regular {k : ℤ} (h : FloatOfIntIs mode k r fl) : RegularResult r fl := by
  rcases h.unrounded_or_rounded with ⟨-, rfl, rfl⟩ | ⟨-, h⟩
  · exact (UnroundedResult.number (by decide)).regular
  · exact h.regular

theorem QuotientIs.regular_or_divideByZero (h : QuotientIs mode a b r fl) :
    RegularResult r fl ∨ (isNaN r = false ∧ fl = 0x08#5) := by
  rcases h.unrounded_or_divideByZero_or_rounded with h | h | h
  · exact .inl h.regular
  · exact .inr h
  · exact .inl h.regular

/-- A sum of binary32 numbers is a multiple of `2^-149`, so it never underflows (R146). -/
theorem SumIs.no_underflow (h : SumIs mode a b r fl) : fl &&& 0x0A#5 = 0x00#5 := by
  rcases h.unrounded_or_rounded with h | h
  · rcases h.flags with rfl | rfl <;> decide
  · have hmultiple : |val a + val b| = (|fpUnits a + fpUnits b| : ℤ) * (2 : ℚ) ^ (-149 : ℤ) := by
      rw [val_eq_units, val_eq_units, ← add_mul, abs_mul, abs_of_pos (a := (2 : ℚ) ^ (-149 : ℤ)) (by positivity)]
      push_cast
      rfl
    rcases h.no_underflow hmultiple with rfl | rfl | rfl <;> decide

/-- An integer up to `2^127` in magnitude rounds within the normal numbers (R142, R143). -/
theorem FloatOfIntIs.flags {k : ℤ} (h : FloatOfIntIs mode k r fl) (hk : |k| ≤ 2 ^ 127) :
    (fl = 0x00#5 ∨ fl = 0x01#5) ∧ fpSign r = decide (k < 0) := by
  rcases h.unrounded_or_rounded with ⟨rfl, rfl, rfl⟩ | ⟨hne, h⟩
  · exact ⟨.inl rfl, by decide⟩
  · have hone : (1 : ℚ) ≤ |(k : ℚ)| := by exact_mod_cast Int.one_le_abs hne
    have hhi : |(k : ℚ)| ≤ 2 ^ (127 : ℤ) := by exact_mod_cast hk
    obtain ⟨h, hfl⟩ := h.inRange_of_normal ((zpow_le_one_of_nonpos₀ one_le_two (by norm_num)).trans hone) hhi
    exact ⟨hfl, by simp [h.sign]⟩

/-- The root of a positive number lies between `2^-75` and `2^64`. -/
theorem sqrt_val_bounds (hfin : isFinite a = true) (hpos : 0 < val a) :
    (2 : ℝ) ^ (-75 : ℤ) ≤ Real.sqrt ((val a : ℚ) : ℝ) ∧ Real.sqrt ((val a : ℚ) : ℝ) ≤ (2 : ℝ) ^ (64 : ℤ) := by
  have hlo : ((2 : ℝ) ^ (-149 : ℤ)) ≤ ((val a : ℚ) : ℝ) := by
    simpa using (Rat.cast_le (K := ℝ)).2 (zpow_le_val hpos)
  have hhi : ((val a : ℚ) : ℝ) ≤ (2 : ℝ) ^ (128 : ℤ) := by exact_mod_cast (le_abs_self _).trans (abs_val_le hfin)
  constructor
  · refine Real.le_sqrt_of_sq_le (le_trans ?_ hlo)
    norm_num
  · refine (Real.sqrt_le_left (by positivity)).2 (hhi.trans ?_)
    norm_num

/-- Rounded, the root of a positive number still lies between `2^-75` and `2^64` (R150). -/
theorem SqrtIs.range (h : SqrtIs mode a r fl) (hfin : isFinite a = true) (hpos : 0 < val a) :
    (fl = 0x00#5 ∨ fl = 0x01#5) ∧ isFinite r = true ∧ (2 : ℚ) ^ (-75 : ℤ) ≤ val r ∧ val r ≤ 2 ^ 64 := by
  rcases h.unrounded_or_rounded with ⟨-, hno⟩ | ⟨-, h⟩
  · exact absurd ⟨hfin, hpos⟩ hno
  obtain ⟨hlo, hhi⟩ := sqrt_val_bounds hfin hpos
  have hroot := abs_of_nonneg (Real.sqrt_nonneg ((val a : ℚ) : ℝ))
  rw [← hroot] at hlo hhi
  obtain ⟨h, hfl⟩ := h.inRange_of_normal ((zpow_le_zpow_right₀ one_le_two (by norm_num)).trans hlo)
    (hhi.trans (zpow_le_zpow_right₀ one_le_two (by norm_num)))
  have hr : |val r| = val r := abs_of_nonneg (val_nonneg (by simp [h.sign]))
  rw [← hr]
  refine ⟨hfl, h.finite, (Rat.cast_le (K := ℝ)).1 ?_, (Rat.cast_le (K := ℝ)).1 ?_⟩
  · simpa using h.zpow_le (-75) (by norm_num) hlo
  · simpa using h.le_zpow 64 (by norm_num) hhi

/-- A square root raises NV or NX only (R150). -/
theorem SqrtIs.flags (h : SqrtIs mode a r fl) : fl &&& 0x0E#5 = 0x00#5 := by
  rcases h.unrounded_or_rounded with ⟨hr, -⟩ | ⟨⟨hfin, hpos⟩, -⟩
  · rcases hr.flags with rfl | rfl <;> decide
  · rcases (h.range hfin hpos).1 with rfl | rfl <;> decide

end results

end Sys2Proof.Machine

/-! ### RV32F moves, conversions and arithmetic: the instructions (R137 to R155) -/

namespace Sys2Proof

/-! The words of a row's columns that are of no row. -/

/-- A mask that covers a field fixes it. -/
theorem extractLsb'_of_and {w mask bits : Word} {s n : Nat} (h : w &&& mask = bits)
    (hmask : mask.extractLsb' s n = BitVec.allOnes n) : w.extractLsb' s n = bits.extractLsb' s n := by
  rw [← h, BitVec.extractLsb'_and, hmask, BitVec.and_allOnes]

/-- A field that differs under its mask differs. -/
theorem extractLsb'_ne_of_and_ne {w v : Word} {s n : Nat} (h : w &&& fieldMask s n ≠ v &&& fieldMask s n) :
    w.extractLsb' s n ≠ v.extractLsb' s n := fun heq => h (and_fieldMask_congr heq)

end Sys2Proof

namespace Sys2Proof.Machine

section completion
variable {i : Instr} {s : State}

theorem completesF_of_finishF {rd : FReg} {r : FpResult} (hexec : exec i s = finishF rd r s) :
    CompletesF i s rd r.bits r.flags := by
  rw [CompletesF, hexec]
  exact finishF_spec rd r s

theorem completesX_of_finishX {rd : XReg} {r : FpResult} (hexec : exec i s = finishX rd r s) :
    CompletesX i s rd r.bits r.flags := by
  rw [CompletesX, hexec]
  exact finishX_spec rd r s

theorem completesX_of_finishX_eq {rd : XReg} {r : FpResult} {v : Word} {fl : Flags}
    (hexec : exec i s = finishX rd r s) (hr : r = ⟨v, fl⟩) : CompletesX i s rd v fl := by
  subst hr
  exact completesX_of_finishX hexec

theorem completesF_of_finishF_eq {rd : FReg} {r : FpResult} {v : Word} {fl : Flags}
    (hexec : exec i s = finishF rd r s) (hr : r = ⟨v, fl⟩) : CompletesF i s rd v fl := by
  subst hr
  exact completesF_of_finishF hexec

/-- An instruction with an `rm` field does what it does under the mode it selects (R155). -/
theorem underMode_of_withMode {rm : Rm} {run : RoundingMode → Host.Outcome State Fault Refusal}
    {P : RoundingMode → Prop} (hexec : exec i s = withMode i rm s run) (hrun : ∀ mode, exec i s = run mode → P mode) :
    UnderMode i rm s P :=
  ⟨fun mode hmode => hrun mode (by rw [hexec, withMode_of_selects hmode]),
    fun hno => by rw [hexec, withMode_of_reserved hno]⟩

end completion

/-- Settles O21: the copy is the meaning itself; the other words have the columns of no row, or of a row not
admitted. -/
theorem moveFromInteger : Obligations.MoveFromInteger := by
  refine ⟨rowDecodes_pattern .fmwWX, fun rd rs1 s => execBitsF_spec rd _ s,
    fun p w => ⟨fun hw => ?_, fun hw hrs2 => ?_, fun hp hw => ?_⟩⟩
  · have hopcode := extractLsb'_of_and (s := 0) (n := 7) hw (by decide)
    have hfunct7 := extractLsb'_of_and (s := 25) (n := 7) hw (by decide)
    exact decodeWord_of_not_isRow (by simp [hopcode, hfunct7]) fun _ => by simp [hopcode, hfunct7]
  · exact constantRs2IsPartOfThePattern.2 p w (extractLsb'_of_and hw (by decide))
      (.inl (extractLsb'_of_and hw (by decide))) (extractLsb'_of_and hw (by decide))
      (extractLsb'_ne_of_and_ne (v := 0#32) hrs2)
  · have hadm : ¬ Mnemonic.fmwWX.admitted p = true := by simp [Mnemonic.admitted_iff, hp, Mnemonic.tier]
    rw [decodeWord_of_fits (m := .fmwWX) p (Mnemonic.fits_iff.2 hw), if_neg hadm]

/-- Settles O22: both moves copy bits, so the second gives back what the first wrote. -/
theorem moveToInteger : Obligations.MoveToInteger := by
  refine ⟨rowDecodes_pattern .fmwXW, fun rd rs1 s => execBitsX_spec rd _ s, fun rd rs1 f s t u hrd hto hback => ?_⟩
  have hcopied : t.readF f = s.readX rs1 := by
    cases hto
    simp [State.readF_writeF]
  rw [execBitsX_readX hrd hback, hcopied]

/-- Settles O23: the model's conversion is the exact one rounded once, and no 32-bit integer leaves the normal
numbers. -/
theorem integerToFloat : Obligations.IntegerToFloat := by
  refine ⟨rowDecodes_pattern .fcvtSW, rowDecodes_pattern .fcvtSWu, fun rd rs1 rm s =>
    ⟨underMode_of_withMode rfl fun mode hexec => ?_, underMode_of_withMode rfl fun mode hexec => ?_⟩⟩
  · have hresult := fpOfInt_floatOfIntIs mode (s.readX rs1).toInt
    have hlo : -2 ^ 31 ≤ (s.readX rs1).toInt := BitVec.le_toInt _
    have hhi : (s.readX rs1).toInt < 2 ^ 31 := BitVec.toInt_lt
    obtain ⟨hflags, -⟩ := hresult.flags (abs_le.2 ⟨by omega, by omega⟩)
    exact ⟨_, _, hresult, hflags, completesF_of_finishF hexec⟩
  · have hresult := fpOfInt_floatOfIntIs mode ((s.readX rs1).toNat : ℤ)
    have hhi : (s.readX rs1).toNat < 2 ^ 32 := BitVec.isLt _
    obtain ⟨hflags, hsign⟩ := hresult.flags (abs_le.2 ⟨by omega, by omega⟩)
    exact ⟨_, _, hresult, hflags, hsign.trans (decide_eq_false (by omega)), completesF_of_finishF hexec⟩

/-- Settles O24: the model's conversion is that of the spec for either range. -/
theorem floatToInteger : Obligations.FloatToInteger :=
  ⟨rowDecodes_pattern .fmwWS, rowDecodes_pattern .fmwWuS, fun _ _ _ _ =>
    ⟨underMode_of_withMode rfl fun _ hexec => ⟨_, _, fpToInt_intOfFloatIs _ _ _ _, completesX_of_finishX hexec⟩,
      underMode_of_withMode rfl fun _ hexec => ⟨_, _, fpToInt_intOfFloatIs _ _ _ _, completesX_of_finishX hexec⟩⟩⟩

/-- Two infinities or two zeros of one sign are one pattern, so it does not matter which operand is delivered. -/
theorem fpAdd_comm (a b : Word) (mode : RoundingMode) : fpAdd a b mode = fpAdd b a mode := by
  by_cases hab : a = b
  · rw [hab]
  have hinf : isInf a = true → isInf b = true → fpSign a ≠ fpSign b := fun ha hb hs => hab (eq_of_isInf ha hb hs)
  have hzero : isZero a = true → isZero b = true → fpSign a ≠ fpSign b := fun ha hb hs => hab (eq_of_isZero ha hb hs)
  simp only [fpAdd, Bool.or_comm (isNaN b), Bool.or_comm (isSNaN b), add_comm (fpUnits b)]
  cases ha : isInf a <;> cases hb : isInf b
  case true.true => simp [hinf ha hb, (hinf ha hb).symm]
  case true.false | false.true => simp
  case false.false =>
    cases hza : isZero a <;> cases hzb : isZero b
    case true.true => simp [hzero hza hzb, (hzero hza hzb).symm]
    all_goals simp

theorem fpMul_comm (a b : Word) (mode : RoundingMode) : fpMul a b mode = fpMul b a mode := by
  simp only [fpMul, Bool.xor_comm, Bool.or_comm, Bool.and_comm, mul_comm]

/-- Settles O25: the model's sum is the exact one rounded once, a multiple of `2^-149`, and commutes. -/
theorem floatAdd : Obligations.FloatAdd := by
  refine ⟨rowDecodes_pattern .faddS, fun p w hw hfunct3 => ?_, fun rd rs1 rs2 s => ?_⟩
  · have hopcode := extractLsb'_of_and (s := 0) (n := 7) hw (by decide)
    have hfunct7 := extractLsb'_of_and (s := 25) (n := 7) hw (by decide)
    have hne := extractLsb'_ne_of_and_ne (s := 12) (n := 3) (v := 0#32) hfunct3
    exact decodeWord_of_not_isRow (by simpa [hopcode, hfunct7] using hne) fun _ => by simp [hopcode, hfunct7]
  · have hsum := fpAdd_sumIs .rne (s.readF rs1) (s.readF rs2)
    refine ⟨_, _, hsum, hsum.no_underflow, completesF_of_finishF rfl, ?_⟩
    rw [fpAdd_comm]
    exact completesF_of_finishF rfl

/-- Settles O26: the difference is by definition the sum with the second sign flipped. -/
theorem floatSub : Obligations.FloatSub := by
  refine ⟨rowDecodes_pattern .fsubS, fun b => ⟨isNaN_flip b, isSNaN_flip b, isQNaN_flip b⟩, fun rd rs1 rs2 s => ?_⟩
  have hsum := fpAdd_sumIs .rne (s.readF rs1) (s.readF rs2 ^^^ 0x80000000#32)
  exact ⟨_, _, hsum, hsum.no_underflow, completesF_of_finishF rfl⟩

/-- Settles O27: the model's product is the exact one rounded once, and commutes. -/
theorem floatMul : Obligations.FloatMul := by
  refine ⟨rowDecodes_pattern .fmulS, fun rd rs1 rs2 s => ?_⟩
  have hproduct := fpMul_productIs .rne (s.readF rs1) (s.readF rs2)
  refine ⟨_, _, hproduct, hproduct.regular.no_divideByZero, completesF_of_finishF rfl, ?_⟩
  rw [fpMul_comm]
  exact completesF_of_finishF rfl

/-- Settles O28: the model's quotient is the exact one rounded once, with the cases of R149. -/
theorem floatDiv : Obligations.FloatDiv :=
  ⟨rowDecodes_pattern .fdivS, fun _ _ _ _ => ⟨_, _, fpDiv_quotientIs .rne _ _, completesF_of_finishF rfl⟩⟩

/-- Settles O29: the model's root is the real one rounded once, which the bounds of the root keep in range. -/
theorem floatSqrt : Obligations.FloatSqrt := by
  refine ⟨rowDecodes_pattern .fsqrtS, fun p w hw hne => ?_, fun rd rs1 s => ?_⟩
  · have hopcode := extractLsb'_of_and (s := 0) (n := 7) hw (by decide)
    have hfunct7 := extractLsb'_of_and (s := 25) (n := 7) hw (by decide)
    have hfields := hne.imp (extractLsb'_ne_of_and_ne (s := 20) (n := 5) (v := 0#32)) fun ⟨h0, h2⟩ =>
      And.intro (extractLsb'_ne_of_and_ne (s := 12) (n := 3) (v := 0#32) h0)
        (extractLsb'_ne_of_and_ne (s := 12) (n := 3) (v := 0x00002000#32) h2)
    exact decodeWord_of_not_isRow (by simpa [hopcode, hfunct7, imp_iff_not_or] using hfields)
      fun _ => by simp [hopcode, hfunct7]
  · have hroot := fpSqrt_sqrtIs (s.readF rs1)
    exact ⟨_, _, hroot, hroot.flags, completesF_of_finishF rfl, fun hfin hpos => (hroot.range hfin hpos).2⟩

/-- An instruction whose meaning is the frame of R155 around `fp_fma` does what `Obligations.FusedMultiplyAdd` says. -/
theorem underMode_of_fpFma {i : Instr} {rd rs1 rs2 rs3 : FReg} {rm : Rm} {s : State} {negp negc : Bool}
    (hexec : exec i s = withMode i rm s fun mode =>
      finishF rd (fpFma (s.readF rs1) (s.readF rs2) (s.readF rs3) mode negp negc) s) :
    UnderMode i rm s fun mode => ∃ r fl, FmaIs mode negp negc (s.readF rs1) (s.readF rs2) (s.readF rs3) r fl ∧
      fl &&& 0x08#5 = 0x00#5 ∧ CompletesF i s rd r fl :=
  underMode_of_withMode hexec fun mode hrun =>
    have hfma := fpFma_fmaIs mode negp negc (s.readF rs1) (s.readF rs2) (s.readF rs3)
    ⟨_, _, hfma, hfma.regular.no_divideByZero, completesF_of_finishF hrun⟩

/-- Settles O30: the four meanings are one frame with the two signs. -/
theorem fusedMultiplyAdd : Obligations.FusedMultiplyAdd :=
  ⟨rowDecodes_pattern .fmaddS, rowDecodes_pattern .fmsubS, rowDecodes_pattern .fnmsubS, rowDecodes_pattern .fnmaddS,
    fun _ _ _ _ _ _ => ⟨underMode_of_fpFma rfl, underMode_of_fpFma rfl, underMode_of_fpFma rfl, underMode_of_fpFma rfl⟩⟩

end Sys2Proof.Machine

/-! ### The order of the finite numbers is that of their patterns (R130, R163 to R167) -/

namespace Sys2Proof.Machine

/-- The magnitude of the finite number with the bits `m` below the sign, in units of `2^-149` (R130). -/
def magnitudeUnits (m : ℕ) : ℕ :=
  if m / 2 ^ 23 = 0 then m % 2 ^ 23 else (2 ^ 23 + m % 2 ^ 23) * 2 ^ (m / 2 ^ 23 - 1)

/-- From one pattern to the next the fraction grows, or it starts again at zero under the next exponent. -/
theorem magnitudeUnits_strictMono : StrictMono magnitudeUnits := by
  refine strictMono_nat_of_lt_succ fun m => ?_
  unfold magnitudeUnits
  by_cases hcarry : m % 2 ^ 23 + 1 < 2 ^ 23
  · rw [show (m + 1) / 2 ^ 23 = m / 2 ^ 23 by omega, show (m + 1) % 2 ^ 23 = m % 2 ^ 23 + 1 by omega]
    split
    · omega
    · exact Nat.mul_lt_mul_of_pos_right (by omega) (by positivity)
  · rw [show (m + 1) / 2 ^ 23 = m / 2 ^ 23 + 1 by omega, show (m + 1) % 2 ^ 23 = 0 by omega,
      if_neg (Nat.succ_ne_zero (m / 2 ^ 23)), Nat.add_sub_cancel]
    split
    next hsub => rw [hsub]; omega
    next hnormal =>
      obtain ⟨e, he⟩ := Nat.exists_eq_succ_of_ne_zero hnormal
      rw [he, Nat.succ_sub_one]
      calc (2 ^ 23 + m % 2 ^ 23) * 2 ^ e < 2 ^ 24 * 2 ^ e := Nat.mul_lt_mul_of_pos_right (by omega) (by positivity)
        _ = (2 ^ 23 + 0) * 2 ^ (e + 1) := by ring

/-- The bits of a pattern below the sign. -/
def magnitudeBits (v : Word) : ℕ := (v.extractLsb' 0 31).toNat

theorem magnitudeBits_eq (v : Word) : magnitudeBits v = fpExp v * 2 ^ 23 + fpFrac v := by
  simp only [magnitudeBits, fpExp, fpFrac, BitVec.extractLsb'_toNat, Nat.shiftRight_eq_div_pow]
  omega

theorem fpUnits_eq_magnitudeUnits (v : Word) :
    fpUnits v = if fpSign v then -(magnitudeUnits (magnitudeBits v) : ℤ) else magnitudeUnits (magnitudeBits v) := by
  have hfrac : fpFrac v < 2 ^ 23 := (v.extractLsb' 0 23).isLt
  rw [magnitudeUnits, magnitudeBits_eq, show (fpExp v * 2 ^ 23 + fpFrac v) / 2 ^ 23 = fpExp v by omega,
    show (fpExp v * 2 ^ 23 + fpFrac v) % 2 ^ 23 = fpFrac v by omega]
  rfl

theorem isZero_iff_magnitudeBits (v : Word) : isZero v = true ↔ magnitudeBits v = 0 := by
  rw [magnitudeBits_eq]
  simp [isZero]

theorem fpKey_eq (v : Word) :
    fpKey v = if fpSign v then -1 - (magnitudeBits v : ℤ) else (magnitudeBits v : ℤ) := rfl

/-- Finite or not, `key'` orders patterns as `fpUnits` does: both are odd in the sign, and the magnitudes are in the order
of their bits. -/
theorem fpCmpKey_lt_iff (a b : Word) : fpCmpKey a < fpCmpKey b ↔ fpUnits a < fpUnits b := by
  have hlt := magnitudeUnits_strictMono.lt_iff_lt (a := magnitudeBits a) (b := magnitudeBits b)
  have hgt := magnitudeUnits_strictMono.lt_iff_lt (a := magnitudeBits b) (b := magnitudeBits a)
  have ha := magnitudeUnits_strictMono.lt_iff_lt (a := 0) (b := magnitudeBits a)
  have hb := magnitudeUnits_strictMono.lt_iff_lt (a := 0) (b := magnitudeBits b)
  rw [show magnitudeUnits 0 = 0 from rfl] at ha hb
  simp only [fpCmpKey, fpKey_eq, isZero_iff_magnitudeBits, fpUnits_eq_magnitudeUnits]
  cases fpSign a <;> cases fpSign b <;> simp only [Bool.false_eq_true, if_true, if_false] <;> split_ifs <;> omega

/-- `key'` is `key` with `-0` moved to the place of `+0`. -/
theorem fpCmpKey_eq (v : Word) : fpCmpKey v = if fpKey v = -1 then 0 else fpKey v := by
  have hkey := fpKey_eq v
  simp only [fpCmpKey, isZero_iff_magnitudeBits]
  cases hsign : fpSign v
  · rw [hsign, if_neg Bool.false_ne_true] at hkey
    split_ifs <;> omega
  · rw [hsign, if_pos rfl] at hkey
    split_ifs <;> omega

/-- So the move keeps the order. -/
theorem fpCmpKey_le_of_fpKey_le {a b : Word} (h : fpKey a ≤ fpKey b) : fpCmpKey a ≤ fpCmpKey b := by
  rw [fpCmpKey_eq a, fpCmpKey_eq b]
  split_ifs <;> omega

theorem val_lt_val_iff_fpCmpKey (a b : Word) : val a < val b ↔ fpCmpKey a < fpCmpKey b := by
  rw [val_eq_units, val_eq_units, mul_lt_mul_iff_of_pos_right (by positivity), Int.cast_lt, fpCmpKey_lt_iff]

theorem val_le_val_iff_fpCmpKey (a b : Word) : val a ≤ val b ↔ fpCmpKey a ≤ fpCmpKey b := by
  rw [← not_lt, ← not_lt, val_lt_val_iff_fpCmpKey]

theorem val_eq_val_iff_fpCmpKey (a b : Word) : val a = val b ↔ fpCmpKey a = fpCmpKey b := by
  rw [le_antisymm_iff, le_antisymm_iff, val_le_val_iff_fpCmpKey, val_le_val_iff_fpCmpKey]

theorem val_le_val_of_fpKey_le {a b : Word} (h : fpKey a ≤ fpKey b) : val a ≤ val b :=
  (val_le_val_iff_fpCmpKey a b).2 (fpCmpKey_le_of_fpKey_le h)

section finite
variable {a b : Word}

/-! On finite operands: no NaN case applies, and the keys compare the values. -/

theorem fpEq_of_isFinite (ha : isFinite a = true) (hb : isFinite b = true) :
    fpEq a b = ⟨if val a = val b then 1#32 else 0#32, 0x00#5⟩ := by
  simp [fpEq, ordered, isNaN_of_isFinite ha, isNaN_of_isFinite hb, isSNaN_of_isFinite ha, isSNaN_of_isFinite hb,
    val_eq_val_iff_fpCmpKey, boolWord, flagIf, noFlags]

theorem fpLt_of_isFinite (ha : isFinite a = true) (hb : isFinite b = true) :
    fpLt a b = ⟨if val a < val b then 1#32 else 0#32, 0x00#5⟩ := by
  simp [fpLt, ordered, isNaN_of_isFinite ha, isNaN_of_isFinite hb, val_lt_val_iff_fpCmpKey, boolWord, flagIf, noFlags]

theorem fpLe_of_isFinite (ha : isFinite a = true) (hb : isFinite b = true) :
    fpLe a b = ⟨if val a ≤ val b then 1#32 else 0#32, 0x00#5⟩ := by
  simp [fpLe, ordered, isNaN_of_isFinite ha, isNaN_of_isFinite hb, val_le_val_iff_fpCmpKey, ← le_iff_lt_or_eq, boolWord,
    flagIf, noFlags]

/-- The operand delivered is the one whose value is the lesser, or the greater. -/
theorem fpMinMax_of_isFinite (ha : isFinite a = true) (hb : isFinite b = true) (isMax : Bool) :
    ∃ r, fpMinMax a b isMax = ⟨r, 0x00#5⟩ ∧ isFinite r = true ∧
      val r = if isMax then max (val a) (val b) else min (val a) (val b) := by
  simp only [fpMinMax, isNaN_of_isFinite ha, isNaN_of_isFinite hb, isSNaN_of_isFinite ha, isSNaN_of_isFinite hb,
    Bool.false_eq_true, Bool.and_false, Bool.or_false, if_false, flagIf, noFlags]
  split_ifs with hlt hmax hgt hmax
  · exact ⟨b, rfl, hb, (max_eq_right (val_le_val_of_fpKey_le hlt.le)).symm⟩
  · exact ⟨a, rfl, ha, (min_eq_left (val_le_val_of_fpKey_le hlt.le)).symm⟩
  · exact ⟨a, rfl, ha, (max_eq_left (val_le_val_of_fpKey_le hgt.le)).symm⟩
  · exact ⟨b, rfl, hb, (min_eq_right (val_le_val_of_fpKey_le hgt.le)).symm⟩
  all_goals
    have hval : val a = val b :=
      le_antisymm (val_le_val_of_fpKey_le (not_lt.1 hgt)) (val_le_val_of_fpKey_le (not_lt.1 hlt))
    exact ⟨a, rfl, ha, by simp [hval]⟩

end finite

/-- Settles O34: on finite operands the keys compare the values. -/
theorem compareByValue : Obligations.CompareByValue := by
  intro rx rd rs1 rs2 s ha hb
  refine ⟨completesX_of_finishX_eq rfl (fpEq_of_isFinite ha hb), completesX_of_finishX_eq rfl (fpLt_of_isFinite ha hb),
    completesX_of_finishX_eq rfl (fpLe_of_isFinite ha hb), ?_, ?_⟩
  · obtain ⟨r, hr, hfin, hval⟩ := fpMinMax_of_isFinite ha hb false
    exact ⟨r, completesF_of_finishF_eq rfl hr, hfin, hval⟩
  · obtain ⟨r, hr, hfin, hval⟩ := fpMinMax_of_isFinite ha hb true
    exact ⟨r, completesF_of_finishF_eq rfl hr, hfin, hval⟩

end Sys2Proof.Machine

/-! ### Every instruction: the flags it can raise and the NaN it can compute (R131, R132) -/

namespace Sys2Proof.Machine

theorem flagIf_flagNV_eq (c : Bool) : flagIf c flagNV = 0x00#5 ∨ flagIf c flagNV = 0x10#5 := by
  cases c <;> decide

theorem IntOfFloatIs.flags {lo hi : ℤ} {mode : RoundingMode} {a r : Word} {fl : Flags}
    (h : IntOfFloatIs lo hi mode a r fl) : RegularFlags fl := by
  unfold IntOfFloatIs at h
  dsimp only at h
  split_ifs at h <;> rw [h.2] <;> decide

/-- Minimum and maximum deliver an operand that is no NaN, or the canonical NaN where both are (R163, R164). -/
theorem fpMinMax_regular (a b : Word) (isMax : Bool) :
    RegularResult (fpMinMax a b isMax).bits (fpMinMax a b isMax).flags := by
  have hflags : RegularFlags (flagIf (isSNaN a || isSNaN b) flagNV) := (flagIf_flagNV_eq _).imp_right .inl
  have number {r : Word} (hr : isNaN r = false) : RegularResult r (flagIf (isSNaN a || isSNaN b) flagNV) :=
    ⟨by simp [hr], hflags⟩
  cases ha : isNaN a <;> cases hb : isNaN b <;>
    simp only [fpMinMax, ha, hb, Bool.and_true, Bool.and_false, Bool.false_eq_true, if_true, if_false]
  case true.true => exact ⟨fun _ => rfl, hflags⟩
  case true.false => exact number hb
  case false.true => exact number ha
  case false.false =>
    split_ifs
    · exact number hb
    · exact number ha
    · exact number ha
    · exact number hb
    · exact number ha

/-- What R131 and R132 allow an instruction to write and to raise. -/
structure PermittedResult (i : Instr) (r : Word) (fl : Flags) : Prop where
  flags : fl ∈ [0x00#5, 0x10#5, 0x08#5, 0x05#5, 0x01#5, 0x03#5]
  divideByZero : fl = 0x08#5 → i.mnemonic = .fdivS
  nan : ∀ rd, (writesOf i).dest = .f rd → i.mnemonic ∉ [.fmwWX, .fsgnjS, .fsgnjnS, .fsgnjxS] → isNaN r = true →
    r = 0x7FC00000#32

section permitted
variable {i : Instr} {r : Word} {fl : Flags}

theorem RegularFlags.mem (h : RegularFlags fl) : fl ∈ [0x00#5, 0x10#5, 0x08#5, 0x05#5, 0x01#5, 0x03#5] := by
  rcases h with rfl | rfl | rfl | rfl | rfl <;> decide

theorem RegularFlags.ne_divideByZero (h : RegularFlags fl) : fl ≠ 0x08#5 := by
  rcases h with rfl | rfl | rfl | rfl | rfl <;> decide

theorem RegularResult.permitted (h : RegularResult r fl) : PermittedResult i r fl :=
  ⟨RegularFlags.mem h.flags, fun hdz => absurd hdz (RegularFlags.ne_divideByZero h.flags), fun _ _ _ => h.nan⟩

/-- An integer destination holds no NaN. -/
theorem permittedResult_of_dest_x {rd : XReg} (hdest : (writesOf i).dest = .x rd) (h : RegularFlags fl) :
    PermittedResult i r fl :=
  ⟨RegularFlags.mem h, fun hdz => absurd hdz (RegularFlags.ne_divideByZero h), fun _ hf => by simp [hdest] at hf⟩

/-- The four bit movers may write any pattern (R140, R160 to R162). -/
theorem permittedResult_of_bitMover (hi : i.mnemonic ∈ [.fmwWX, .fsgnjS, .fsgnjnS, .fsgnjxS]) :
    PermittedResult i r 0x00#5 :=
  ⟨by decide, fun hdz => absurd hdz (by decide), fun _ _ hno => absurd hi hno⟩

theorem permittedResult_quotient {mode : RoundingMode} {a b : Word} (hi : i.mnemonic = .fdivS)
    (h : QuotientIs mode a b r fl) : PermittedResult i r fl := by
  rcases h.regular_or_divideByZero with h | ⟨hr, rfl⟩
  · exact h.permitted
  · exact ⟨by decide, fun _ => hi, fun _ _ _ hnan => by simp [hr] at hnan⟩

end permitted

/-- If the outcome is a next state, it accrued the flags of a result with `P`, and wrote the result to its destination
where that is a floating-point register. -/
def Delivers (s : State) (d : Dest) (P : Word → Flags → Prop) (o : Host.Outcome State Fault Refusal) : Prop :=
  ∀ t, o = .next t → ∃ r fl, P r fl ∧ t.fflags = s.fflags ||| fl ∧ ∀ rd, d = .f rd → t.readF rd = r

section frames
variable {s : State} {P : Word → Flags → Prop} {r : FpResult} {v : Word}

theorem finishX_delivers (rd : XReg) (h : P r.bits r.flags) : Delivers s (.x rd) P (finishX rd r s) := by
  rintro t ⟨⟩
  exact ⟨_, _, h, by simp, by simp⟩

theorem finishF_delivers (rd : FReg) (h : P r.bits r.flags) : Delivers s (.f rd) P (finishF rd r s) := by
  rintro t ⟨⟩
  exact ⟨_, _, h, by simp, fun q hq => by cases hq; simp [State.readF_writeF]⟩

theorem execBitsX_delivers (rd : XReg) (h : P v 0x00#5) : Delivers s (.x rd) P (execBitsX rd v s) := by
  rw [execBitsX_eq_finishX]
  exact finishX_delivers rd h

theorem execBitsF_delivers (rd : FReg) (h : P v 0x00#5) : Delivers s (.f rd) P (execBitsF rd v s) := by
  rw [execBitsF_eq_finishF]
  exact finishF_delivers rd h

theorem withMode_delivers {i : Instr} {rm : Rm} {d : Dest} {run : RoundingMode → Host.Outcome State Fault Refusal}
    (hrun : ∀ mode, Delivers s d P (run mode)) : Delivers s d P (withMode i rm s run) := by
  cases hm : resolve rm s.frm with
  | none =>
    rw [withMode_of_reserved ((resolve_eq_none_iff _ _).1 hm)]
    exact fun _ h => nomatch h
  | some mode =>
    rw [withMode_of_selects ((resolve_eq_some_iff _ _ _).1 hm)]
    exact hrun mode

end frames

/-- Every instruction but the three swaps delivers a result that R131 and R132 allow it. -/
theorem exec_delivers (i : Instr) (s : State) (hfcsr : (writesOf i).fcsr = false) :
    Delivers s (writesOf i).dest (PermittedResult i) (exec i s) := by
  cases i with
  | fscsr | fsrm | fsflags => simp [writesOf] at hfcsr
  | add | sub | sll | slt | sltu | xor | srl | sra | or | and | mul | mulh | mulhsu | mulhu | div | divu | rem | remu
  | fmwXW | fclassS | frcsr | frrm | frflags =>
    exact execBitsX_delivers _ (permittedResult_of_dest_x rfl (.inl rfl))
  | fmwWX | fsgnjS | fsgnjnS | fsgnjxS =>
    exact execBitsF_delivers _ (permittedResult_of_bitMover (by simp [Instr.mnemonic]))
  | faddS | fsubS => exact finishF_delivers _ (fpAdd_sumIs _ _ _).regular.permitted
  | fmulS => exact finishF_delivers _ (fpMul_productIs _ _ _).regular.permitted
  | fdivS => exact finishF_delivers _ (permittedResult_quotient rfl (fpDiv_quotientIs _ _ _))
  | fsqrtS => exact finishF_delivers _ (fpSqrt_sqrtIs _).regular.permitted
  | fminS | fmaxS => exact finishF_delivers _ (fpMinMax_regular _ _ _).permitted
  | feqS | fltS | fleS =>
    exact finishX_delivers _ (permittedResult_of_dest_x rfl ((flagIf_flagNV_eq _).imp_right .inl))
  | fcvtSW | fcvtSWu => exact withMode_delivers fun _ => finishF_delivers _ (fpOfInt_floatOfIntIs _ _).regular.permitted
  | fmwWS | fmwWuS =>
    exact withMode_delivers fun _ =>
      finishX_delivers _ (permittedResult_of_dest_x rfl (fpToInt_intOfFloatIs _ _ _ _).flags)
  | fmaddS | fmsubS | fnmsubS | fnmaddS =>
    exact withMode_delivers fun _ => finishF_delivers _ (fpFma_fmaIs _ _ _ _ _ _).regular.permitted

theorem fcsr_false_of_dest_f {i : Instr} {rd : FReg} (h : (writesOf i).dest = .f rd) : (writesOf i).fcsr = false := by
  cases i with
  | fscsr | fsrm | fsflags => simp [writesOf] at h
  | _ => rfl

/-- Settles O39: the destination holds the result the instruction delivers. -/
theorem arithmeticNaNIsCanonical : Obligations.ArithmeticNaNIsCanonical := by
  intro i rd s t hdest hmover hexec hnan
  obtain ⟨r, fl, hpermitted, -, hwritten⟩ := exec_delivers i s (fcsr_false_of_dest_f hdest) t hexec
  rw [hwritten rd hdest] at hnan ⊢
  exact hpermitted.nan rd hdest hmover hnan

/-- Settles O40: from cleared flags, the flags afterwards are those of the result the instruction delivers. -/
theorem raisedFlags : Obligations.RaisedFlags := by
  intro i s t hfcsr hclear hexec
  obtain ⟨r, fl, hpermitted, hflags, -⟩ := exec_delivers i s hfcsr t hexec
  rw [hclear, BitVec.zero_or] at hflags
  rw [hflags]
  exact ⟨hpermitted.flags, hpermitted.divideByZero⟩

end Sys2Proof.Machine

/-! ### Sign, key and class of a pattern from its bits (R130, R160 to R168) -/

namespace Sys2Proof.Machine

theorem fpSign_eq_getLsbD (v : Word) : fpSign v = v.getLsbD 31 := BitVec.msb_eq_getLsbD_last v

theorem fpExp_eq (v : Word) : fpExp v = v.toNat / 2 ^ 23 % 2 ^ 8 := by
  simp [fpExp, BitVec.extractLsb'_toNat, Nat.shiftRight_eq_div_pow]

theorem fpFrac_eq (v : Word) : fpFrac v = v.toNat % 2 ^ 23 := by
  simp [fpFrac, BitVec.extractLsb'_toNat]

theorem magnitudeBits_eq_mod (v : Word) : magnitudeBits v = v.toNat % 2 ^ 31 := by
  simp [magnitudeBits, BitVec.extractLsb'_toNat]

/-! The sign injections. -/

/-- A pattern is `{ sign, a[30:0] }` if its top bit is the sign and every other bit is that of `a`. -/
theorem withSign_eq_of_bits {sign : Bool} {a r : Word} (hsign : r.getLsbD 31 = sign)
    (hrest : ∀ k < 31, r.getLsbD k = a.getLsbD k) : withSign sign a = r := by
  refine BitVec.eq_of_getLsbD_eq fun k hk => ?_
  rw [withSign, BitVec.getLsbD_append]
  by_cases hlow : k < 31
  · simp [hlow, hrest k hlow]
  · obtain rfl : k = 31 := by omega
    simpa using hsign.symm

/-- `0x80000000` is the sign bit alone. -/
theorem getLsbD_signMask (k : ℕ) : (0x80000000#32).getLsbD k = decide (k = 31) := by
  rw [show 0x80000000#32 = BitVec.twoPow 32 31 from rfl, BitVec.getLsbD_twoPow]
  simp [eq_comm]

/-- `0x7FFFFFFF` is every bit but the sign bit. -/
theorem getLsbD_magnitudeMask {k : ℕ} (hk : k < 32) : (0x7FFFFFFF#32).getLsbD k = decide (k ≠ 31) := by
  rw [show 0x7FFFFFFF#32 = ~~~ 0x80000000#32 from rfl, BitVec.getLsbD_not, getLsbD_signMask]
  simp [hk]

/-- The sign of `b` on `a` by the two masks (R160). -/
theorem withSign_fpSign (a b : Word) :
    withSign (fpSign b) a = (b &&& 0x80000000#32) ||| (a &&& 0x7FFFFFFF#32) := by
  refine withSign_eq_of_bits (by simp [fpSign_eq_getLsbD]) fun k hk => ?_
  simp [getLsbD_signMask, getLsbD_magnitudeMask (hk.trans (by decide)), hk.ne]

/-- The opposite sign is the sign of the complement (R161). -/
theorem withSign_not_fpSign (a b : Word) :
    withSign (!fpSign b) a = (~~~ b &&& 0x80000000#32) ||| (a &&& 0x7FFFFFFF#32) := by
  rw [← withSign_fpSign, fpSign, fpSign, BitVec.msb_not]
  simp

/-- The exclusive or of the two signs flips the sign of `a` where `b` is negative (R162). -/
theorem withSign_xor_fpSign (a b : Word) :
    withSign (fpSign a ^^ fpSign b) a = a ^^^ (b &&& 0x80000000#32) := by
  refine withSign_eq_of_bits (by simp [fpSign_eq_getLsbD]) fun k hk => ?_
  simp [getLsbD_signMask, hk.ne]

/-! The keys. -/

theorem fpKey_eq_orderKey (v : Word) : fpKey v = orderKey v := by
  rw [fpKey_eq, magnitudeBits_eq_mod, fpSign_eq_getLsbD, orderKey]

theorem fpCmpKey_eq_compareKey (v : Word) : fpCmpKey v = compareKey v := by
  simp only [fpCmpKey, isZero_iff_magnitudeBits, magnitudeBits_eq_mod, fpKey_eq_orderKey, compareKey]

/-- The sign and the bits below it are all of a pattern. -/
theorem eq_of_fpSign_of_magnitudeBits {a b : Word} (hsign : fpSign a = fpSign b)
    (hbits : magnitudeBits a = magnitudeBits b) : a = b := by
  have ha : fpFrac a < 2 ^ 23 := (a.extractLsb' 0 23).isLt
  have hb : fpFrac b < 2 ^ 23 := (b.extractLsb' 0 23).isLt
  rw [magnitudeBits_eq, magnitudeBits_eq] at hbits
  exact eq_of_fields hsign (by omega) (by omega)

/-- The sign of the key gives the sign of the pattern, and its magnitude the bits below (R163). -/
theorem orderKey_injective : Function.Injective orderKey := by
  intro a b hkey
  rw [← fpKey_eq_orderKey, ← fpKey_eq_orderKey, fpKey_eq, fpKey_eq] at hkey
  cases ha : fpSign a <;> cases hb : fpSign b <;>
    simp only [ha, hb, Bool.false_eq_true, if_true, if_false] at hkey
  case false.false | true.true => exact eq_of_fpSign_of_magnitudeBits (ha.trans hb.symm) (by omega)
  case false.true | true.false => omega

/-! Minimum and maximum. -/

theorem fpMinMax_minMaxIs (isMax : Bool) (a b : Word) :
    MinMaxIs isMax a b (fpMinMax a b isMax).bits (fpMinMax a b isMax).flags := by
  simp only [MinMaxIs, fpMinMax, fpKey_eq_orderKey, Bool.and_eq_true]
  split_ifs
  all_goals exact ⟨rfl, rfl⟩

/-- Two NaNs give the canonical NaN, a NaN and a number the number, and equal keys are one pattern. -/
theorem fpMinMax_comm (a b : Word) (isMax : Bool) : fpMinMax a b isMax = fpMinMax b a isMax := by
  simp only [fpMinMax, fpKey_eq_orderKey, Bool.or_comm (isSNaN b)]
  cases ha : isNaN a <;> cases hb : isNaN b <;>
    simp only [Bool.and_true, Bool.and_false, Bool.false_eq_true, if_true, if_false]
  case false.false =>
    rcases lt_trichotomy (orderKey a) (orderKey b) with hlt | heq | hgt
    · rw [if_pos hlt, if_neg hlt.not_gt, if_pos hlt]
    · rw [orderKey_injective heq]
    · rw [if_neg hgt.not_gt, if_pos hgt, if_pos hgt]

/-! The comparisons. -/

/-- A comparison is true only of two operands that are no NaN. -/
theorem boolWord_ordered_and (a b : Word) (c : Bool) :
    boolWord (ordered a b && c) = if isNaN a = false ∧ isNaN b = false ∧ c = true then 1#32 else 0#32 := by
  simp only [boolWord, ordered, Bool.and_eq_true, Bool.not_eq_true', and_assoc]

theorem fpEq_eq (a b : Word) :
    fpEq a b = ⟨if isNaN a = false ∧ isNaN b = false ∧ compareKey a = compareKey b then 1#32 else 0#32,
      nanFlags (isSNaN a || isSNaN b)⟩ := by
  rw [fpEq, boolWord_ordered_and]
  simp only [fpCmpKey_eq_compareKey, beq_iff_eq]
  rfl

theorem fpLt_eq (a b : Word) :
    fpLt a b = ⟨if isNaN a = false ∧ isNaN b = false ∧ compareKey a < compareKey b then 1#32 else 0#32,
      nanFlags (isNaN a || isNaN b)⟩ := by
  rw [fpLt, boolWord_ordered_and]
  simp only [fpCmpKey_eq_compareKey, decide_eq_true_eq]
  rfl

theorem fpLe_eq (a b : Word) :
    fpLe a b = ⟨if isNaN a = false ∧ isNaN b = false ∧ compareKey a ≤ compareKey b then 1#32 else 0#32,
      nanFlags (isNaN a || isNaN b)⟩ := by
  rw [fpLe, boolWord_ordered_and]
  simp only [fpCmpKey_eq_compareKey, Bool.or_eq_true, decide_eq_true_eq, beq_iff_eq, ← le_iff_lt_or_eq]
  rfl

/-! The classes. -/

/-- Bit 22, which tells a signaling NaN from a quiet one, is the top bit of the fraction. -/
theorem isSNaN_eq (v : Word) : isSNaN v = (isNaN v && decide (fpFrac v < 2 ^ 22)) := by
  have hbit : v.getLsbD 22 = decide (2 ^ 22 ≤ fpFrac v) := by
    rw [show v.getLsbD 22 = (v.extractLsb' 0 23).msb by simp [BitVec.msb_eq_getLsbD_last], BitVec.msb_eq_decide]
    rfl
  rw [isSNaN, hbit, ← decide_not]
  simp only [Nat.not_le]

/-- The ten classes by exponent, fraction and sign (R130). -/
theorem fpClass_eq (v : Word) :
    fpClass v =
      if fpExp v = 255 then
        if fpFrac v = 0 then (if fpSign v then .negInf else .posInf)
        else if fpFrac v < 2 ^ 22 then .signalingNaN else .quietNaN
      else if fpExp v = 0 then
        if fpFrac v = 0 then (if fpSign v then .negZero else .posZero)
        else (if fpSign v then .negSubnormal else .posSubnormal)
      else (if fpSign v then .negNormal else .posNormal) := by
  unfold fpClass
  rw [isSNaN_eq]
  by_cases hmax : fpExp v = 255
  · by_cases hfrac : fpFrac v = 0 <;> simp [isNaN, isInf, hmax, hfrac]
  · by_cases hzero : fpExp v = 0
    · by_cases hfrac : fpFrac v = 0 <;> simp [isNaN, isInf, isZero, isSub, hzero, hfrac]
    · simp [isNaN, isInf, isZero, isSub, hmax, hzero]

/-- The mask of R168 is the bit of the class. -/
theorem one_shiftLeft_classIndex (v : Word) : 1#32 <<< classIndex (fpClass v) = classMask v := by
  simp only [fpClass_eq, classMask, ← fpExp_eq, ← fpFrac_eq, ← fpSign_eq_getLsbD]
  split_ifs
  all_goals rfl

end Sys2Proof.Machine

/-! ### Sign injection, minimum, maximum, comparison and classify: the instructions (R160 to R168) -/

namespace Sys2Proof.Machine

section completion
variable {i : Instr} {s : State}

theorem completesF_of_execBitsF {rd : FReg} {u v : Word} (hexec : exec i s = execBitsF rd u s) (hv : u = v) :
    CompletesF i s rd v 0x00#5 := by
  rw [CompletesF, hexec, hv]
  exact execBitsF_spec rd v s

theorem completesX_of_execBitsX {rd : XReg} {u v : Word} (hexec : exec i s = execBitsX rd u s) (hv : u = v) :
    CompletesX i s rd v 0x00#5 := by
  rw [CompletesX, hexec, hv]
  exact execBitsX_spec rd v s

end completion

/-- Settles O31: the model's concatenation of a sign and 31 bits is the spec's masks. -/
theorem signInjection : Obligations.SignInjection :=
  ⟨rowDecodes_pattern .fsgnjS, rowDecodes_pattern .fsgnjnS, rowDecodes_pattern .fsgnjxS, fun _ _ _ _ =>
    ⟨completesF_of_execBitsF rfl (withSign_fpSign _ _), completesF_of_execBitsF rfl (withSign_not_fpSign _ _),
      completesF_of_execBitsF rfl (withSign_xor_fpSign _ _)⟩⟩

/-- Settles O32: the model's function is the spec's, and it is commutative since the key is injective. -/
theorem minimumAndMaximum : Obligations.MinimumAndMaximum := by
  refine ⟨rowDecodes_pattern .fminS, rowDecodes_pattern .fmaxS, fun _ _ hkey => orderKey_injective hkey,
    fun rd rs1 rs2 s => ⟨⟨_, _, fpMinMax_minMaxIs false _ _, ?_, ?_⟩, ⟨_, _, fpMinMax_minMaxIs true _ _, ?_, ?_⟩⟩⟩
  · exact completesF_of_finishF rfl
  · exact completesF_of_finishF_eq rfl (fpMinMax_comm _ _ _)
  · exact completesF_of_finishF rfl
  · exact completesF_of_finishF_eq rfl (fpMinMax_comm _ _ _)

/-- Settles O33: each comparison is that of the keys, and is false of a NaN. -/
theorem floatCompare : Obligations.FloatCompare :=
  ⟨rowDecodes_pattern .feqS, rowDecodes_pattern .fltS, rowDecodes_pattern .fleS, fun _ _ _ _ =>
    ⟨completesX_of_finishX_eq rfl (fpEq_eq _ _), completesX_of_finishX_eq rfl (fpLt_eq _ _),
      completesX_of_finishX_eq rfl (fpLe_eq _ _)⟩⟩

/-- Settles O35: the class read off sign, exponent and fraction has the bit the model shifts to. -/
theorem classify : Obligations.Classify :=
  ⟨rowDecodes_pattern .fclassS, fun _ _ _ => completesX_of_execBitsX rfl (one_shiftLeft_classIndex _)⟩

end Sys2Proof.Machine

/-! ### Access to `fcsr` (R30, R33, R169 to R174) -/

namespace Sys2Proof.Machine

theorem State.toNat_frm (s : State) : s.frm.toNat = s.fcsr.toNat / 32 := by
  have hfcsr : s.fcsr.toNat < 256 := s.fcsr.isLt
  rw [State.frm, BitVec.extractLsb'_toNat, Nat.shiftRight_eq_div_pow]
  omega

theorem State.toNat_fflags (s : State) : s.fflags.toNat = s.fcsr.toNat % 32 := by
  rw [State.fflags, BitVec.extractLsb'_toNat, Nat.shiftRight_zero]

/-- What a read gives of `fcsr`, of `frm` and of `fflags`. -/
theorem setWidth_fcsr (s : State) : s.fcsr.setWidth 32 = BitVec.ofNat 32 s.fcsr.toNat :=
  (BitVec.ofNat_toNat 32 s.fcsr).symm

theorem setWidth_frm (s : State) : s.frm.setWidth 32 = BitVec.ofNat 32 (s.fcsr.toNat / 32) := by
  rw [← State.toNat_frm, BitVec.ofNat_toNat]

theorem setWidth_fflags (s : State) : s.fflags.setWidth 32 = BitVec.ofNat 32 (s.fcsr.toNat % 32) := by
  rw [← State.toNat_fflags, BitVec.ofNat_toNat]

/-- Settles O36: the three meanings write a zero-extended field. -/
theorem controlRegisterReads : Obligations.ControlRegisterReads :=
  ⟨rowDecodes_pattern .frcsr, rowDecodes_pattern .frrm, rowDecodes_pattern .frflags, fun _ s =>
    ⟨completesX_of_execBitsX rfl (setWidth_fcsr s), completesX_of_execBitsX rfl (setWidth_frm s),
      completesX_of_execBitsX rfl (setWidth_fflags s)⟩⟩

/-- The low bits of a source register as the value of a field. -/
theorem extractLsb'_low_eq (v : Word) (n : ℕ) : v.extractLsb' 0 n = BitVec.ofNat n v.toNat := by
  rw [BitVec.extractLsb', Nat.shiftRight_zero]

/-- `fcsr` with a new `frm` keeps `fflags`. -/
theorem low_append_fflags (v : Word) (s : State) :
    v.extractLsb' 0 3 ++ s.fflags = BitVec.ofNat 8 (v.toNat % 8 * 32 + s.fcsr.toNat % 32) := by
  apply BitVec.eq_of_toNat_eq
  rw [toNat_append_eq, extractLsb'_low_eq, State.toNat_fflags, BitVec.toNat_ofNat, BitVec.toNat_ofNat]
  omega

/-- `fcsr` with new `fflags` keeps `frm`. -/
theorem frm_append_low (v : Word) (s : State) :
    s.frm ++ v.extractLsb' 0 5 = BitVec.ofNat 8 (s.fcsr.toNat / 32 * 32 + v.toNat % 32) := by
  have hfcsr : s.fcsr.toNat < 256 := s.fcsr.isLt
  apply BitVec.eq_of_toNat_eq
  rw [toNat_append_eq, extractLsb'_low_eq, State.toNat_frm, BitVec.toNat_ofNat, BitVec.toNat_ofNat]
  omega

/-- The frame of the swaps: a write of `fcsr` and of the destination, then the advance. -/
theorem swapsFcsr_of_writeFcsr {i : Instr} {s : State} {rd : XReg} {old v : Word} {new c : BitVec 8}
    (hexec : exec i s = .next ((s.writeFcsr c).writeX rd v).advance) (hv : v = old) (hc : c = new) :
    SwapsFcsr i s rd old new := by
  subst hv hc
  exact ⟨_, hexec, fun q => by rw [State.readX_advance, State.readX_writeX, State.readX_writeFcsr],
    fun q => by simp, by simp, by rw [State.advance_pc_eq]; simp, by simp, fun a => by simp⟩

/-- Settles O37: a write of one field is a write of `fcsr` with the other field as it was. -/
theorem controlRegisterSwaps : Obligations.ControlRegisterSwaps :=
  ⟨rowDecodes_pattern .fscsr, rowDecodes_pattern .fsrm, rowDecodes_pattern .fsflags, fun _ _ s =>
    ⟨swapsFcsr_of_writeFcsr rfl (setWidth_fcsr s) (extractLsb'_low_eq _ 8),
      swapsFcsr_of_writeFcsr rfl (setWidth_frm s) (low_append_fflags _ s),
      swapsFcsr_of_writeFcsr rfl (setWidth_fflags s) (frm_append_low _ s)⟩⟩

end Sys2Proof.Machine

/-! ### The checks of a step and the causes of its faults (R200 to R202, R205, R207) -/

namespace Sys2Proof.Machine

theorem step_of_not_legal {s : State} (h : ¬ s.params.legal) : step s = .refused .illegalParameters := by
  rw [step, if_pos h]

theorem step_of_final {s : State} (h : s.final) : step s = .refused .runFinal := by
  obtain ⟨hlegal, hend⟩ := h
  rw [step, if_neg (not_not.2 hlegal), if_pos (s.atEnd_iff.2 hend)]

theorem step_of_not_fetchable {s : State} (hlegal : s.params.legal) (hend : s.pc.toNat ≠ textEnd s.params)
    (hfetch : ¬ Fetchable s) : step s = .fault (.fetchFault s.pc s) := by
  rw [step, if_neg (not_not.2 hlegal), if_neg (mt s.atEnd_iff.1 hend), if_neg (mt s.fetchAdmitted_iff.1 hfetch)]
  rfl

/-- The step on a fetched word that the decoder refuses: such a word fits no admitted row. -/
theorem step_of_decodeWord_error {s : State} {r : Reject} (hlegal : s.params.legal)
    (hend : s.pc.toNat ≠ textEnd s.params) (hfetch : Fetchable s)
    (hdecode : decodeWord s.params s.fetchWord = .error r) :
    step s = .fault (.illegalInstruction s.fetchWord s) := by
  obtain ⟨-, hno⟩ := decodeWord_error hdecode
  exact step_of_fits_no_row hlegal hend hfetch fun m hadm => by simp [hno m hadm]

/-- Settles O10: each clause is one branch of the step, in the order of R205. -/
theorem stepChecksInOrder : Obligations.StepChecksInOrder := fun _ =>
  ⟨step_of_not_legal, fun hlegal hend => step_of_final ⟨hlegal, hend⟩, step_of_not_fetchable,
    fun hlegal hend hfetch => ⟨fun _ => step_of_decodeWord_error hlegal hend hfetch,
      fun _ hdecode => step_of_runs ⟨hlegal, hend, hfetch, hdecode⟩⟩⟩

/-- Execution faults only on a reserved rounding mode, with the instruction's own word and the state as it was. -/
theorem exec_fault {i : Instr} {s : State} {f : Fault} (h : exec i s = .fault f) :
    f = .illegalInstruction (encode i) s ∧ ReservedMode i s.frm := by
  by_cases hmode : ReservedMode i s.frm
  · rw [exec_of_reservedMode hmode] at h
    injection h with hf
    exact ⟨hf.symm, hmode⟩
  · obtain ⟨t, ht⟩ := exec_completes_of_not_reservedMode hmode
    simp [ht] at h

/-- Settles O50: of the branches of the step three can fault, and the word of the instruction that execution names is
the fetched one, since encoding undoes decoding. -/
theorem faultsChangeNothing : Obligations.FaultsChangeNothing := by
  intro s f h
  rcases step_cases s with ⟨-, hs⟩ | ⟨-, hs⟩ | ⟨-, -, hfetch, hs⟩ | ⟨-, -, hfetch, ⟨r, herr⟩, hs⟩ |
    ⟨i, ⟨-, -, hfetch, hdecode⟩, hs⟩ <;> rw [hs] at h
  · simp at h
  · simp at h
  · injection h with hf
    exact .inl ⟨hf.symm, hfetch⟩
  · injection h with hf
    obtain ⟨rfl, -⟩ := decodeWord_error herr
    exact .inr ⟨hf.symm, hfetch, .inl ⟨_, herr⟩⟩
  · obtain ⟨rfl, hmode⟩ := exec_fault h
    obtain ⟨hword, -⟩ := encodeOfDecode _ _ _ hdecode
    exact .inr ⟨by rw [hword], hfetch, .inr ⟨i, hdecode, hmode⟩⟩

end Sys2Proof.Machine

/-! ### The end of a run (R242, R245) -/

namespace Sys2Proof.Machine

/-- The state is the last of its run: it is final, or its step is a fault (R207, R245). -/
def EndsRun (t : State) : Prop := t.final ∧ step t = .refused .runFinal ∨ ∃ f, step t = .fault f

/-- A step that answers a next state fetched a word of the text. -/
theorem fetchable_of_step_next {s t : State} (h : step s = .next t) : Fetchable s := by
  obtain ⟨i, ⟨-, -, hfetch, -⟩, -⟩ := runs_of_step_next h
  exact hfetch

/-- With legal parameters a run ends at a state or goes on from it: no other refusal is left, since every instruction
has a meaning. -/
theorem endsRun_or_step_next {s : State} (hlegal : s.params.legal) : EndsRun s ∨ ∃ t, step s = .next t := by
  rcases step_cases s with ⟨hn, -⟩ | ⟨hfinal, hs⟩ | ⟨-, -, -, hs⟩ | ⟨-, -, -, -, hs⟩ | ⟨i, -, hs⟩
  · exact absurd hlegal hn
  · exact .inl (.inl ⟨hfinal, hs⟩)
  · exact .inl (.inr ⟨_, hs⟩)
  · exact .inl (.inr ⟨_, hs⟩)
  · rw [EndsRun, hs]
    by_cases hmode : ReservedMode i s.frm
    · exact .inl (.inr ⟨_, exec_of_reservedMode hmode⟩)
    · exact .inr (exec_completes_of_not_reservedMode hmode)

/-- Between two fetches of one run `pc` does not wrap round: a text that reached from address 0 to `2^32` would be
longer than R41 allows. -/
theorem pc_toNat_of_step_next {s t : State} (h : step s = .next t) (hfetch : Fetchable t) :
    t.pc.toNat = s.pc.toNat + 4 := by
  obtain ⟨i, ⟨⟨-, -, -, hlen, hroom, -⟩, -, ⟨-, -, htop⟩, -⟩, -⟩ := runs_of_step_next h
  obtain ⟨hpc, hparams, -⟩ := everyStepAdvances s t h
  obtain ⟨-, hlow, -⟩ := hfetch
  rw [hparams] at hlow
  rw [hpc, BitVec.toNat_ofNat] at hlow ⊢
  omega

/-- By induction on the number `k` of words from `pc` to the end of the text: each step leaves one word less. -/
theorem run_ends {k : Nat} {s : State} (hlegal : s.params.legal)
    (hk : Fetchable s → s.params.programBase + s.params.programLen ≤ s.pc.toNat + 4 * k) :
    ∃ (n : Nat) (t : State), n ≤ k ∧ Sys2Proof.core.run n s = .next t ∧ EndsRun t := by
  induction k generalizing s with
  | zero =>
    have hend : EndsRun s := (endsRun_or_step_next hlegal).resolve_right fun ⟨t, hstep⟩ => by
      have hfetch := fetchable_of_step_next hstep
      have := hk hfetch
      omega
    exact ⟨0, s, Nat.le_refl 0, rfl, hend⟩
  | succ k ih =>
    rcases endsRun_or_step_next hlegal with hend | ⟨u, hstep⟩
    · exact ⟨0, s, Nat.zero_le _, rfl, hend⟩
    · obtain ⟨-, hparams, -⟩ := step_advances s u hstep
      have hku : Fetchable u → u.params.programBase + u.params.programLen ≤ u.pc.toNat + 4 * k := fun hfetch => by
        have := hk (fetchable_of_step_next hstep)
        rw [hparams, pc_toNat_of_step_next hstep hfetch]
        omega
      obtain ⟨n, t, hn, hrun, hend⟩ := ih (hparams ▸ hlegal) hku
      exact ⟨n + 1, t, Nat.succ_le_succ hn, run_succ_next_iff.2 ⟨u, hstep, hrun⟩, hend⟩

/-- Settles O56: from a `pc` inside the text at most `PROGRAM_LEN / 4` words are left. -/
theorem everyRunEnds : Obligations.EveryRunEnds := by
  rintro s ⟨hlegal, -⟩
  refine run_ends hlegal ?_
  rintro ⟨-, hlow, -⟩
  obtain ⟨-, hlen, -⟩ := hlegal
  omega

/-- The words that a run of at least one step executed all lie inside the text. -/
theorem run_succ_within_text {n : Nat} {s t : State} (h : Sys2Proof.core.run (n + 1) s = .next t) :
    s.pc.toNat + 4 * (n + 1) ≤ s.params.programBase + s.params.programLen := by
  obtain ⟨u, hstep, hrun⟩ := run_succ_next_iff.1 h
  induction n generalizing s u with
  | zero =>
    obtain ⟨-, -, htop⟩ := fetchable_of_step_next hstep
    exact htop
  | succ n ih =>
    obtain ⟨v, hstep', hrun'⟩ := run_succ_next_iff.1 hrun
    obtain ⟨-, hparams, -⟩ := step_advances s u hstep
    have hpc := pc_toNat_of_step_next hstep (fetchable_of_step_next hstep')
    have := ih hrun v hstep' hrun'
    rw [hparams, hpc] at this
    omega

/-- Settles O57: `n` steps from `PROGRAM_BASE` stay inside the text, and `pc` meets its end modulo `2^32` only after
all of it, since the text is shorter than `2^32` bytes. -/
theorem finalRunExecutesEveryWord : Obligations.FinalRunExecutesEveryWord := by
  rintro n s t ⟨⟨-, -, -, hlen, -, -⟩, -⟩ hbase hrun ⟨-, hend⟩
  obtain ⟨hpc, hparams, -⟩ := runMovesOneWordAStep n s t hrun
  have hpcBase : t.pc = BitVec.ofNat 32 (s.params.programBase + 4 * n) := by
    rw [hpc, ← hbase, BitVec.ofNat_add, BitVec.ofNat_toNat, BitVec.setWidth_eq]
  have hwithin : 4 * n ≤ s.params.programLen := by
    cases n with
    | zero => omega
    | succ n =>
      have := run_succ_within_text hrun
      omega
  rw [hpcBase, hparams, textEnd, BitVec.toNat_ofNat] at hend
  exact ⟨by omega, hpcBase⟩

end Sys2Proof.Machine

/-! ### The loader (R243): a placed word is admitted, fetched and run -/

namespace Sys2Proof

/-- The table numbers the bits of a word as the word does. -/
theorem tableWord_toNat (w : Word) : tableWord 32 w.toNat = w := by
  rw [tableWord, Nat.mod_eq_of_lt w.isLt, BitVec.ofNat_toNat, BitVec.setWidth_eq]

theorem decodeTableWord_encode (i : Instr) : decodeTableWord 32 (encode i).toNat = some i := by
  simp only [decodeTableWord, tableWord_toNat, decodeBytes, Machine.wordOfBytes_byteOfWord,
    decodeWord_admitAll_of_encode_eq (p := Params.default) (rfl : encode i = encode i)]

theorem isOk_decodeWord_encode (p : Params) (i : Instr) : (decodeWord p (encode i)).isOk = true ↔ i.wellFormed p := by
  rw [decodeWord_encode]
  split
  · next h => exact iff_of_true rfl h
  · next h => exact iff_of_false nofun h

/-- One setting is enough for every row: none needs both `ADMIT_GK_ROWS` and `FMW_W_X_POLICY` = `source` (R6, R140). -/
theorem Mnemonic.admitted_of_one_setting (p : Params) (m : Mnemonic) :
    m.admitted { p with admitGkRows := true } = true ∨ m.admitted { p with fmwPolicy := .source } = true := by
  cases ht : m.tier
  case S => exact .inr (by simp [Mnemonic.admitted, ht])
  case G => exact .inl (by simp [Mnemonic.admitted, ht])

end Sys2Proof

namespace Sys2Proof.Machine

/-- Under the loader's parameters the row is admitted: where neither those in force nor `ADMIT_GK_ROWS` does it, the
policy does (R65). -/
theorem wellFormed_admitting (p : Params) (i : Instr) : i.wellFormed (admitting p (encode i)) := by
  simp only [admitting, isOk_decodeWord_encode]
  split
  · assumption
  · split
    · assumption
    · next hgk =>
      have hfmw := (i.mnemonic.admitted_of_one_setting p).resolve_left hgk
      rwa [if_pos hfmw]

/-- The two low bits that `alignedPc` clears are zero already in a multiple of 4 (R27). -/
theorem State.alignedPc_eq {s : State} (h : s.pc.toNat % 4 = 0) : s.alignedPc = s.pc := by
  have hlow : s.pc &&& 3#32 = 0#32 := by
    apply BitVec.eq_of_toNat_eq
    rw [BitVec.toNat_and]
    exact (Nat.and_two_pow_sub_one_eq_mod s.pc.toNat 2).trans h
  calc s.alignedPc = (s.pc &&& 3#32) ||| (s.pc &&& 0xFFFFFFFC#32) := by rw [hlow, BitVec.zero_or]; rfl
    _ = s.pc &&& (3#32 ||| 0xFFFFFFFC#32) := BitVec.and_or_distrib_left.symm
    _ = s.pc := BitVec.and_allOnes

/-- Where the loader keeps the text, the state it works on: `pc` aligned and the word's row admitted. -/
def State.admittingAt (s : State) (w : Word) : State :=
  { s with pc := s.alignedPc, params := admitting s.params w }

/-- Where the loader gives the text up: the text is to be the one word at `pc`. -/
def State.emptiedAt (s : State) (w : Word) : State :=
  { s with
    pc := s.alignedPc
    params := { admitting s.params w with
      programBase := s.alignedPc.toNat, programLen := 4, resetPc := (admitting s.params w).resetPc &&& 0xFFFFFFFC#32 }
    text := [] }

theorem State.emptiedAt_legal (s : State) (w : Word) : (s.emptiedAt w).params.legal := by
  have halign := s.alignedPc_mod
  have hreset := ({ s with pc := (admitting s.params w).resetPc } : State).alignedPc_mod
  have hlen : 4 < 2 ^ 32 := by decide
  have hroom : s.alignedPc.toNat + 4 ≤ 2 ^ 32 := by
    have := s.alignedPc.isLt
    omega
  exact ⟨halign, Nat.mod_self 4, s.alignedPc.isLt, hlen, hroom, hreset⟩

theorem State.fetchable_emptiedAt (s : State) (w : Word) : Fetchable (s.emptiedAt w) :=
  ⟨s.alignedPc_mod, Nat.le_refl _, Nat.le_refl _⟩

/-- What the loader does: it puts the word at `pc` into one of two states, each with legal parameters and `pc` inside
the text. -/
theorem State.placeWord_cases (s : State) (w : Word) :
    ∃ u, (u = s.admittingAt w ∨ u = s.emptiedAt w) ∧ u.params.legal ∧ Fetchable u ∧
      s.placeWord w = { u with text := u.text.writeWord u.pc.toNat w } := by
  have hif : (decide (s.admittingAt w).params.legal && (s.admittingAt w).fetchAdmitted) = true ↔
      (s.admittingAt w).params.legal ∧ Fetchable (s.admittingAt w) := by
    rw [Bool.and_eq_true, decide_eq_true_iff, State.fetchAdmitted_iff]
  by_cases h : (s.admittingAt w).params.legal ∧ Fetchable (s.admittingAt w)
  · exact ⟨_, .inl rfl, h.1, h.2, if_pos (hif.2 h)⟩
  · exact ⟨_, .inr rfl, s.emptiedAt_legal w, s.fetchable_emptiedAt w, if_neg (mt hif.1 h)⟩

/-- A `pc` whose fetch is admitted is not at the end of the text, also where the text ends at `2^32`. -/
theorem pc_ne_textEnd_of_fetchable {s : State} (hlegal : s.params.legal) (hfetch : Fetchable s) :
    s.pc.toNat ≠ textEnd s.params := by
  obtain ⟨-, -, -, hlen, hroom, -⟩ := hlegal
  obtain ⟨-, hlow, htop⟩ := hfetch
  rw [textEnd]
  omega

/-- The state with an instruction's word placed runs that instruction. -/
theorem runs_placeWord {s : State} (hwf : s.text.wf) (i : Instr) : Runs (s.placeWord (encode i)) i := by
  obtain ⟨u, hu, hlegal, hfetch, hplace⟩ := s.placeWord_cases (encode i)
  obtain ⟨htext, hadm⟩ : u.text.wf ∧ i.wellFormed u.params := by
    rcases hu with rfl | rfl
    · exact ⟨hwf, wellFormed_admitting s.params i⟩
    · exact ⟨⟨List.Pairwise.nil, nofun⟩, wellFormed_admitting s.params i⟩
  have hdecode : decodeWord u.params (encode i) = .ok i := by rw [decodeWord_encode, if_pos hadm]
  rw [hplace]
  refine ⟨hlegal, pc_ne_textEnd_of_fetchable hlegal hfetch, hfetch, ?_⟩
  rw [State.fetchWord_writeWord htext]
  exact hdecode

/-- The loader writes no register but `pc`, which it moves down to a multiple of 4. -/
theorem State.placeWord_registers (s : State) (w : Word) :
    (s.placeWord w).x = s.x ∧ (s.placeWord w).f = s.f ∧ (s.placeWord w).fcsr = s.fcsr ∧
      (s.placeWord w).pc = s.alignedPc := by
  obtain ⟨u, rfl | rfl, -, -, hplace⟩ := s.placeWord_cases w <;> rw [hplace]
  · exact ⟨rfl, rfl, rfl, rfl⟩
  · exact ⟨rfl, rfl, rfl, rfl⟩

/-- Settles O58: the placed state runs the instruction, the loader's frame is `placeWord_registers`, and the table's
decoder admits every row. -/
theorem placedInstructionRuns : Obligations.PlacedInstructionRuns := by
  intro s i hwf
  rw [State.withFetchWord, tableWord_toNat]
  obtain ⟨hx, hf, hfcsr, hpc⟩ := s.placeWord_registers (encode i)
  exact ⟨step_of_runs (runs_placeWord hwf i), hx, hf, hfcsr, fun halign => hpc.trans (State.alignedPc_eq halign),
    decodeTableWord_encode i⟩

end Sys2Proof.Machine

/-! ### The reset values of the model's own choosing (notes/assumptions/3.md, notes/assumptions/4.md) -/

namespace Sys2Proof.Machine

/-- `x[0]` is zero by rule (R21), the other 31 by the model's choice. -/
theorem readX_reset (r : XReg) : State.reset.readX r = 0#32 := by
  by_cases hr : r = 0#5
  · rw [hr, State.readX_zero]
  · rw [State.readX, if_neg hr]
    exact Vector.getElem_replicate _

theorem readF_reset (r : FReg) : State.reset.readF r = 0#32 :=
  Vector.getElem_replicate _

/-- Settles O53: the registers read as the zeros they are replicated from, and the other clauses are the fields of
`Params.default` and of the launch state. -/
theorem resetChoices : Obligations.ResetChoices :=
  ⟨readX_reset, readF_reset, rfl, rfl, rfl, rfl⟩

end Sys2Proof.Machine
